-- ==== Sys2Proof/Word.lean ====
section
/-! DEFINITION. The word types of the block: 32-bit registers and command words (rules R30, R110),
8-bit bytes of `BUF`, `KEY` and the wire formats (rule R9). -/

namespace Sys2Proof

/-- A control/status register, a command word, an argument or a result (rules R30, R35, R110). -/
abbrev Word := BitVec 32

/-- One byte of `BUF`, of `KEY` or of a wire format (rules R9, R13). -/
abbrev Byte := BitVec 8

end Sys2Proof
end

