-- ==== Sys2Proof/Machine/Errors.lean ====
section
/-! DEFINITION. The errors a command can report: 60_exceptions.md rules R341 (kinds) and R343 (details).
An error is one row of rule R343, so no other (`CODE`, `DETAIL`) pair can be produced. -/

namespace Sys2Proof.Machine

/-- The error kinds of rule R341, in the order of their codes 1..7. -/
inductive ErrKind where
  | formatError
  | golayUncorrectable
  | unsupportedFeature
  | authenticationError
  | configError
  | rangeError
  | illegalCommand
  deriving DecidableEq, Repr

/-- One failing check of a command: the rows of rule R343, in its order. -/
inductive CmdError where
  /-- 1.01: `ident_len` = 0, or an empty identity region at build. -/
  | identEmpty
  /-- 1.02: identity longer than 7 bytes at build. -/
  | identTooLong
  /-- 1.03: `version` is not `VERSION`. -/
  | wrongVersion
  /-- 1.04: frame shorter than 1 byte, than the fixed header, or negative payload length. -/
  | frameTooShort
  /-- 1.05: `has_payload` disagrees with the derived payload length. -/
  | payloadFlagWrong
  /-- 1.06: extension record truncated. -/
  | recordTruncated
  /-- 1.07: known extension type with a `len` other than its data length. -/
  | recordLengthWrong
  /-- 1.08: extensions region longer than 255 bytes at build. -/
  | extensionsTooLong
  /-- 1.09: `vc` > `VC_MAX` at build. -/
  | vcOutOfRange
  /-- 1.0A: `EXT_ENC_RAW` data longer than 15 bytes. -/
  | rawDataTooLong
  /-- 2.01: decoder step 7 reached. -/
  | uncorrectable
  /-- 3.01: Viterbi bit set in a decoded prefix. -/
  | viterbiDecoded
  /-- 3.02: Viterbi bit set in a prefix to encode. -/
  | viterbiRequested
  /-- 4.01: trailer mismatch. -/
  | trailerMismatch
  /-- 4.02: input shorter than the trailer. -/
  | inputTooShort
  /-- 5.01: key needed and `KEY_VALID` = 0. -/
  | keyMissing
  /-- 5.02: MAC not initialised, or the command would make the cycle 0. -/
  | macConfig
  /-- 5.03: `PREFIX_ENC` with the outer-FEC bit clear. -/
  | prefixWithoutFec
  /-- 5.04: `EXT_DEC_ALL` blob longer than 255 bytes. -/
  | blobTooLong
  /-- 5.05: `FRAME_BUILD.outer_fec` over `FEC_BUDGET`. -/
  | overFecBudget
  /-- 6.01: source region out of bounds. -/
  | sourceRange
  /-- 6.02: destination region out of bounds. -/
  | destinationRange
  /-- 7.01: unassigned `OPCODE`. -/
  | opcodeUnassigned
  /-- 7.02: `w[31:16] != 0`, or a reserved `MOD` bit set. -/
  | reservedBits
  /-- 7.03: `EXT_ENC` with `TYPE` >= 6. -/
  | extTypeIllegal
  deriving DecidableEq, Repr

/-- The number of a kind: `CODE` of rule R341. -/
def ErrKind.number : ErrKind → Nat
  | .formatError => 1
  | .golayUncorrectable => 2
  | .unsupportedFeature => 3
  | .authenticationError => 4
  | .configError => 5
  | .rangeError => 6
  | .illegalCommand => 7

/-- The kind of each error (rule R343, column `CODE`). -/
def CmdError.kind : CmdError → ErrKind
  | .identEmpty | .identTooLong | .wrongVersion | .frameTooShort | .payloadFlagWrong
  | .recordTruncated | .recordLengthWrong | .extensionsTooLong | .vcOutOfRange
  | .rawDataTooLong => .formatError
  | .uncorrectable => .golayUncorrectable
  | .viterbiDecoded | .viterbiRequested => .unsupportedFeature
  | .trailerMismatch | .inputTooShort => .authenticationError
  | .keyMissing | .macConfig | .prefixWithoutFec | .blobTooLong | .overFecBudget => .configError
  | .sourceRange | .destinationRange => .rangeError
  | .opcodeUnassigned | .reservedBits | .extTypeIllegal => .illegalCommand

/-- `STATUS.CODE` of an error (rules R341, R343). -/
def CmdError.code (e : CmdError) : BitVec 4 :=
  BitVec.ofNat 4 e.kind.number

/-- `STATUS.DETAIL` of an error (rule R343). -/
def CmdError.detail : CmdError → BitVec 8
  | .identEmpty => 0x01
  | .identTooLong => 0x02
  | .wrongVersion => 0x03
  | .frameTooShort => 0x04
  | .payloadFlagWrong => 0x05
  | .recordTruncated => 0x06
  | .recordLengthWrong => 0x07
  | .extensionsTooLong => 0x08
  | .vcOutOfRange => 0x09
  | .rawDataTooLong => 0x0A
  | .uncorrectable => 0x01
  | .viterbiDecoded => 0x01
  | .viterbiRequested => 0x02
  | .trailerMismatch => 0x01
  | .inputTooShort => 0x02
  | .keyMissing => 0x01
  | .macConfig => 0x02
  | .prefixWithoutFec => 0x03
  | .blobTooLong => 0x04
  | .overFecBudget => 0x05
  | .sourceRange => 0x01
  | .destinationRange => 0x02
  | .opcodeUnassigned => 0x01
  | .reservedBits => 0x02
  | .extTypeIllegal => 0x03

end Sys2Proof.Machine
end

