-- ==== Sys2Proof/Config.lean ====
section
/-! DEFINITION. The implementation parameters of 00_scope.md rule R7: the ones the spec fixes, as numbers, and
the values nothing fixes, as opaque constants that no proof can evaluate. The parameters that a build
chooses and that are plain data ride in the state (Machine/State.lean, `Build`, `Latency`). -/

namespace Sys2Proof.Config

/-- `VERSION` (rules R3, R7). -/
def version : BitVec 5 := 12

/-- `VC_MAX` (rules R7, R144). -/
def vcMax : Nat := 3

/-- `FIXED_HEADER_BYTES` (rules R7, R141). -/
def fixedHeaderBytes : Nat := 5

/-- `EXT_TAB_ENTRIES` (rules R7, R51). -/
def extTabEntries : Nat := 255

/-- `FEC_BUDGET` (rules R7, R147). -/
def fecBudget : Nat := 255

/-- `TICK_BITS` (rules R7, R293). -/
def tickBits : Nat := 24

/-- `KEY_BYTES` (rules R7, R50, R262). -/
def keyBytes : Nat := 32

/-- `AUTH_VARIANT` (rule R260). -/
inductive AuthVariant where
  | keyedHash4
  | hmacSha256x8
  deriving DecidableEq, Repr

/-- What the latency of a command may depend on. -/
inductive TimingClass where
  /-- A command that computes a digest (rules R264, R384): its word (`OPCODE` and `MOD`), its region lengths,
  and the outcome of the checks made before the digest. Not `KEY`, not the digest, not a trailer byte. -/
  | digest (word : BitVec 32) (lengths : List Nat) (early : Option Machine.CmdError)
  /-- Any other command: its word and its operands (rule R383). -/
  | plain (word : BitVec 32) (args : List (BitVec 32)) (buf : List Host.Cell)
  deriving DecidableEq, Repr

/-- `CMD_LATENCY` (rules R7, R383), OPEN: a finite number of cycles. FREE VALUE, log 6. -/
opaque cmdLatency : TimingClass → Nat

/-- The byte at an offset of `BUF` after the given number of resets, where nothing has written it since
(rule R370, "unspecified"). FREE VALUE, log 3. -/
opaque bufAfterReset : Nat → Nat → BitVec 8

/-- What the n-th read of command-written state made while `BUSY` = 1 returns (rule R379, "unspecified").
FREE VALUE, log 7. -/
opaque busyRead : Nat → BitVec 32

/-- `KH4` (rule R261(b)), OPEN, everywhere but at the one point P-KH4 fixes (rule R265; Machine/Digest.lean
pins that point). FREE VALUE, log 2. -/
opaque keyedHash : List (BitVec 8) → List (BitVec 8) → BitVec 32

end Sys2Proof.Config
end

