-- ==== Sys2Proof/Machine/Bits.lean ====
section
/-! DEFINITION. Bit counting, byte order and sign extension: the notation of 00_scope.md rules R9..R13
that every command family uses. -/

namespace Sys2Proof.Machine

/-- `popcount(v)`: the exact number of 1 bits of `v` (rule R13). -/
def popcount {w : Nat} (v : BitVec w) : Nat :=
  (List.range w).countP fun i => v.getLsbD i

/-- `parity(v) = popcount(v) mod 2` (rule R13), as a Boolean. -/
def parity {w : Nat} (v : BitVec w) : Bool :=
  popcount v % 2 == 1

/-- The low `n` bytes of a word, most significant byte first (rules R10, R87, R89). -/
def bytesOfWord (n : Nat) (w : Word) : List Byte :=
  (List.range n).map fun i => w.extractLsb' (8 * (n - 1 - i)) 8

/-- The word whose bytes, most significant first, are the given ones (rules R10, R87, R89). -/
def wordOfBytes (bs : List Byte) : Word :=
  bs.foldl (fun acc b => (acc <<< 8) ||| b.setWidth 32) 0

/-- A Boolean as bit `i` of a word. -/
def flagBit (i : Nat) (b : Bool) : Word :=
  (BitVec.ofBool b).setWidth 32 <<< i

/-- `sext_32`: a signed integer as a 32-bit two's complement word (rule R11). -/
def sext32 (z : Int) : Word :=
  BitVec.ofInt 32 z

end Sys2Proof.Machine
end

