-- ==== Sys2Proof/Machine/GolayCode.lean ====
section
/-! DEFINITION. The Golay(24,12) code over a parity matrix `B`: 43_golay.md rules R220..R223 and R227. -/

namespace Sys2Proof.Machine

/-- The default `GOLAY_B` (rule R220, log 12): row i is a 12-bit word, bit (11 - j) the entry (i, j). -/
def defaultGolayB : List (BitVec 12) :=
  [0x8ED, 0x1DB, 0x3B5, 0x769, 0xED1, 0xDA3, 0xB47, 0x68F, 0xD1D, 0xA3B, 0x477, 0xFFE]

/-- Row `i` of a matrix. -/
def golayRow (B : List (BitVec 12)) (i : Nat) : BitVec 12 :=
  B.getD i 0

/-- `e_i = 0x800 >> i` (rule R223). -/
def unitVector (i : Nat) : BitVec 12 :=
  0x800#12 >>> i

/-- `MatVec(M, v)`: the 12-bit word whose bit (11 - i) is `parity(M[i] & v)`, for 12 rows (rule R221). -/
def matVec {w : Nat} (rows : List (BitVec w)) (v : BitVec w) : BitVec 12 :=
  rows.foldl (fun acc r => (acc <<< 1) ||| (BitVec.ofBool (parity (r &&& v))).setWidth 12) 0

/-- `H24 = [I | B]`, the 12 x 24 check matrix (rule R221). -/
def checkMatrix (B : List (BitVec 12)) : List (BitVec 24) :=
  (List.range 12).map fun i => (1#24 <<< (23 - i)) ||| (golayRow B i).setWidth 24

/-- The syndrome of a received word: `MatVec(H24, r)` (rule R221). -/
def syndrome (B : List (BitVec 12)) (r : BitVec 24) : BitVec 12 :=
  matVec (checkMatrix B) r

/-- What every replacement of `GOLAY_B` must keep (rule R220): 12 rows, B = Bᵀ and B·B = I over GF(2). With B
symmetric, B·B = I says that B maps its own row i to the unit vector i. -/
def legalGolayB (B : List (BitVec 12)) : Bool :=
  B.length == 12
    && ((List.range 12).all fun i => (List.range 12).all fun j =>
      (golayRow B i).getLsbD (11 - j) == (golayRow B j).getLsbD (11 - i))
    && (List.range 12).all fun i => matVec B (golayRow B i) == unitVector i

/-- `GolayEnc(d) = MatVec(B, d) << 12 | d` (rules R121, R222). -/
def golayEncode (B : List (BitVec 12)) (d : BitVec 12) : BitVec 24 :=
  matVec B d ++ d

/-- The least row i with `popcount(x XOR B[i]) <= 2`: steps 3 and 6 of rule R223. -/
def nearRow (B : List (BitVec 12)) (x : BitVec 12) : Option Nat :=
  (List.range 12).find? fun i => decide (popcount (x ^^^ golayRow B i) ≤ 2)

/-- Steps 1 to 7 of rule R223: the error pattern of a received word and the step that found it, `none` when
step 7 is reached. The parity half of a pattern stands left of `++`, the data half right of it. -/
def golayErrorPattern (B : List (BitVec 12)) (r : BitVec 24) : Option (BitVec 24 × BitVec 8) :=
  let s := syndrome B r
  if popcount s ≤ 3 then some (s ++ 0#12, 2)
  else match nearRow B s with
    | some i => some ((s ^^^ golayRow B i) ++ unitVector i, 3)
    | none =>
      let q := matVec B s
      if popcount q ≤ 3 then some (0#12 ++ q, 5)
      else match nearRow B q with
        | some i => some (unitVector i ++ (q ^^^ golayRow B i), 6)
        | none => none

/-- What the decoder returns (rules R223, R224). -/
structure GolayResult where
  data : BitVec 12
  pattern : BitVec 24
  step : BitVec 8
  deriving DecidableEq, Repr

/-- `GolayDec(r)` (rule R223): step 8 applies the pattern; step 7 is `GolayUncorrectable`. -/
def golayDecode (B : List (BitVec 12)) (r : BitVec 24) : Except CmdError GolayResult :=
  match golayErrorPattern B r with
  | some (e, step) => .ok { data := (r ^^^ e).extractLsb' 0 12, pattern := e, step }
  | none => .error .uncorrectable

/-- `Triple(c)` (rule R227). -/
def triple (c : BitVec 24) : List Byte :=
  bytesOfWord 3 (c.setWidth 32)

/-- `Untriple(b0, b1, b2)` (rule R227). -/
def untriple (bs : List Byte) : BitVec 24 :=
  (wordOfBytes bs).setWidth 24

end Sys2Proof.Machine
end

