-- ==== Sys2Proof/Syntax.lean ====
section
/-! DEFINITION. The commands of the block, one constructor per row of spec/opcode_table.json
(30_encoding.md rule R111), and the accesses the host makes (20_memory.md rules R81, R85). -/

namespace Sys2Proof

/-- A command of rule R111. Its operands are the `MOD` fields the opcode lists; everything else a command
reads stands in `ARG0`..`ARG4` and `BUF`. -/
inductive Instr where
  /-- `NOP` (R331). -/
  | nop
  /-- `FRAME_BUILD` (R145); `MOD[0]` `AUTH`, `MOD[1]` `OUTER_FEC`. -/
  | frameBuild (auth outerFec : Bool)
  /-- `FRAME_PARSE` (R150); `MOD[0]` `DECODE_EXT`, `MOD[1]` `VERIFY`. -/
  | frameParse (decodeExt verify : Bool)
  /-- `EXT_ENC.ARQSequence` (R184), `TYPE` 0. -/
  | extEncArqSequence
  /-- `EXT_ENC.ARQRequest` (R185), `TYPE` 1. -/
  | extEncArqRequest
  /-- `EXT_ENC.ARQControl` (R186), `TYPE` 2. -/
  | extEncArqControl
  /-- `EXT_ENC.ARQHandshake` (R187), `TYPE` 3. -/
  | extEncArqHandshake
  /-- `EXT_ENC.TDDControl` (R188), `TYPE` 4. -/
  | extEncTddControl
  /-- `EXT_ENC.HMACSequenceReset` (R189), `TYPE` 5. -/
  | extEncHmacSequenceReset
  /-- `EXT_ENC_RAW` (R190); `MOD[3:0]` `TYPE`. -/
  | extEncRaw (type : BitVec 4)
  /-- `EXT_DEC` (R193). -/
  | extDec
  /-- `EXT_DEC_ALL` (R195). -/
  | extDecAll
  /-- `GOLAY_ENC` (R230). -/
  | golayEnc
  /-- `GOLAY_DEC` (R231). -/
  | golayDec
  /-- `GOLAY_ENC_BYTES` (R232). -/
  | golayEncBytes
  /-- `GOLAY_DEC_BYTES` (R233). -/
  | golayDecBytes
  /-- `PREFIX_ENC` (R235). -/
  | prefixEnc
  /-- `PREFIX_DEC` (R236). -/
  | prefixDec
  /-- `KEY_LOAD` (R266). -/
  | keyLoad
  /-- `KEY_CLEAR` (R267). -/
  | keyClear
  /-- `AUTH_APPEND` (R268). -/
  | authAppend
  /-- `AUTH_VERIFY` (R269). -/
  | authVerify
  /-- `MAC_INIT` (R296). -/
  | macInit
  /-- `MAC_OWN_REM` (R298). -/
  | macOwnRem
  /-- `MAC_PEER_REM` (R299). -/
  | macPeerRem
  /-- `MAC_CAN_SEND` (R300). -/
  | macCanSend
  /-- `MAC_UPDATE` (R303). -/
  | macUpdate
  /-- `MAC_SET_OWN` (R305). -/
  | macSetOwn
  deriving DecidableEq, Repr

/-- The width of a host access (rule R85). -/
inductive Width where
  | w8
  | w16
  | w32
  deriving DecidableEq, Repr

/-- One host access: a width, a 17-bit byte address (`ADDR_BITS`, rule R80) and, for a write, the data.
A write narrower than 32 bits drives only the low bits of `data`. -/
inductive HostAccess where
  | read (width : Width) (addr : BitVec 17)
  | write (width : Width) (addr : BitVec 17) (data : Word)
  deriving DecidableEq, Repr

/-- What the outside world does to the block in one cycle. -/
inductive HostEvent where
  /-- One read or write of the host (rules R81, R85). -/
  | access (a : HostAccess)
  /-- `poll` of rule R126: read `STATUS` until `BUSY` = 0. -/
  | poll
  /-- Reset, asserted from outside at any time (rules R371, R372). -/
  | reset
  /-- A cycle with no access. -/
  | idle
  deriving DecidableEq, Repr

end Sys2Proof
end

