-- ==== Sys2Proof/Machine/State.lean ====
section
/-! DEFINITION. The state of one block instance: every component of 10_state.md rule R30 under its own name,
and, in one sub-structure `env`, the model's own fields. Plain data throughout. -/

namespace Sys2Proof.Machine

open Config (AuthVariant)

/-- Eight 32-bit registers: `ARG0`..`ARG7` or `RES0`..`RES7` (rules R31, R32). A register not named when one
is written out is 0. -/
structure RegFile where
  r0 : Word := 0
  r1 : Word := 0
  r2 : Word := 0
  r3 : Word := 0
  r4 : Word := 0
  r5 : Word := 0
  r6 : Word := 0
  r7 : Word := 0
  deriving DecidableEq, Repr

/-- The bytes of `BUF` written since the last reset, by offset: offsets strictly rising (`Memory.wf`,
Machine/Ops.lean). An offset that is not listed has the byte reset left there (log 3, log 4). -/
abbrev Memory := List Host.Cell

/-- `KEY`: 32 bytes (rules R50, R262). -/
abbrev Key := { bytes : List Byte // bytes.length = Config.keyBytes }

/-- 32 zero bytes (rules R267, R370). -/
def Key.zero : Key := ⟨List.replicate Config.keyBytes 0, by decide⟩

/-- One entry of `EXT_TAB`: the words `W0`, `W1`, `W2` of rule R116. -/
structure ExtWords where
  w0 : Word
  w1 : Word
  w2 : Word
  deriving DecidableEq, Repr

/-- The MAC scheduler's state: exactly the eight components rule R54 lists. -/
structure MacState where
  valid : Bool
  epoch : BitVec 24
  own : BitVec 16
  peer : BitVec 16
  gap : BitVec 16
  tail : BitVec 16
  last : BitVec 24
  lastValid : Bool
  deriving DecidableEq, Repr

/-- The build-time parameters of rule R7 that a build chooses and that are plain data. A value of this type
is a legal build: the ranges of rules R7 and R220 are part of it. MODEL's own field, log 1. -/
structure Build where
  /-- `AUTH_VARIANT` (rule R260). -/
  variant : AuthVariant
  /-- `BUF_BYTES` (rule R7). -/
  bufBytes : Nat
  /-- `GOLAY_B` (rule R220). -/
  golayB : List (BitVec 12)
  /-- `BUS_ERR_RESPONSE` (rule R86). -/
  busErrResponse : Bool
  bufBytes_range : 512 ≤ bufBytes ∧ bufBytes ≤ 65535
  golayB_legal : legalGolayB golayB = true
  deriving DecidableEq, Repr

/-- The defaults of rule R7, with `HMAC_SHA256_8` as in the conventions of 95_test_vectors.md. DESIGN CHOICE,
unsafe for statements about reset alone, log 1. -/
def Build.default : Build where
  variant := .hmacSha256x8
  bufBytes := 1024
  golayB := defaultGolayB
  busErrResponse := false
  bufBytes_range := by decide
  golayB_legal := by decide

/-- `CMD_LATENCY` (rules R7, R383): the same fixed number of cycles for every command (0 is the atomic model
of rule R90), or the build's own open function. MODEL's own field, log 6. -/
inductive Latency where
  | fixed (cycles : Nat)
  | openParameter
  deriving DecidableEq, Repr

/-- The MODEL's own fields: what surrounds the block (log 1, 3, 5, 6, 7, 9). -/
structure Env where
  build : Build
  latency : Latency
  /-- Cycles the command in flight still takes (rule R53). -/
  cyclesLeft : Nat
  /-- What the outside world still has to do to the block, oldest first. -/
  bus : List HostEvent
  /-- What the last host read returned (rules R86, R87). -/
  readData : Word
  /-- Whether the bus signalled an error response to the last access (rule R86). -/
  errResponse : Bool
  /-- How many unspecified reads have taken a free value (rule R379). -/
  draws : Nat
  /-- How many resets there have been: it selects the free contents of `BUF` (rule R370). -/
  resets : Nat
  deriving DecidableEq, Repr

/-- The state: the components of rule R30, in its order, then `env`. -/
structure State where
  /-- `ARG0`..`ARG7` (rule R31). -/
  arg : RegFile
  /-- `RES0`..`RES7` (rule R32). -/
  res : RegFile
  /-- `STATUS.CODE` (rule R38). -/
  code : BitVec 4
  /-- `STATUS.DETAIL` (rule R38). -/
  detail : BitVec 8
  /-- `STATUS.BUSY` (rule R53). -/
  busy : Bool
  /-- `STICKY` (rule R39); bits 0 and [31:10] are 0. -/
  sticky : Word
  /-- `CMDREG` (rule R40). -/
  cmdReg : Word
  /-- `BUF` (rule R52). -/
  buf : Memory
  /-- `KEY` (rule R50). -/
  key : Key
  /-- `KEY_VALID` (rule R50). -/
  keyValid : Bool
  /-- `EXT_TAB` (rule R51): the entries from index 0 on; an entry past the list's end is all zero (log 15). -/
  extTab : List ExtWords
  /-- `EXT_COUNT` (rule R43). -/
  extCount : BitVec 9
  /-- `MAC_VALID`, `EPOCH`, `OWN`, `PEER`, `GAP`, `TAIL`, `LAST`, `LAST_VALID` (rules R44..R49). -/
  mac : MacState
  /-- The model's own fields. -/
  env : Env
  deriving DecidableEq, Repr

/-- The reasons a step could stop with a fault: NONE. A command that fails aborts with an error code and the
machine goes on (rules R340, R345, R347), a refused access sets `STICKY.BUS_ERR` (rule R86), and the block
has no trap (rule R350): nothing in the spec stops the machine, so no constructor stands here. -/
inductive Fault where
  deriving DecidableEq, Repr

/-- The reasons a step could be refused. -/
inductive Refusal where
  /-- Raised by an arm of `exec` whose instruction has no meaning yet; no arm raises it in this model. Safe:
  the machine stops and claims nothing. -/
  | notModelled (mnemonic : String)
  deriving DecidableEq, Repr

/-- The MAC state after reset (rule R370). -/
def MacState.reset : MacState where
  valid := false
  epoch := 0
  own := 0
  peer := 0
  gap := 0
  tail := 0
  last := 0
  lastValid := false

/-- The model's own fields at power-on (log 1, 3, 5, 6, 7, 9). -/
def Env.reset : Env where
  build := Build.default
  latency := .fixed 0
  cyclesLeft := 0
  bus := []
  readData := 0
  errResponse := false
  draws := 0
  resets := 0

/-- The machine right after reset (rule R370). `BUF` lists nothing: every byte is unspecified. -/
def State.reset : State where
  arg := {}
  res := {}
  code := 0
  detail := 0
  busy := false
  sticky := 0
  cmdReg := 0
  buf := []
  key := Key.zero
  keyValid := false
  extTab := []
  extCount := 0
  mac := MacState.reset
  env := Env.reset

end Sys2Proof.Machine
end

