-- ==== Sys2Proof/Machine/Flags.lean ====
section
/-! DEFINITION. The block's condition state (rule R34): the bits of `STICKY` (10_state.md rule R39), the
`STATUS` word (rule R38) and the constant and packed registers a host reads (rules R36, R37, R43..R48). -/

namespace Sys2Proof.Machine

open Config (AuthVariant)

/-- The bits of `STICKY` that exist: [9:1] (rules R39, R55). -/
def stickyMask : Word := 0x000003FE

/-- `STICKY.ERR[k]` for the kind of an error (rule R39). -/
def stickyErrBit (e : CmdError) : Word :=
  1#32 <<< e.kind.number

/-- `STICKY.BUS_ERR` (rule R39). -/
def busErrBit : Word := 0x00000100

/-- `STICKY.HAZARD` (rule R39). -/
def hazardBit : Word := 0x00000200

/-- `STICKY` after a host write of `w`: each bit i with `w[i]` = 1 is cleared (rule R39). -/
def stickyAfterWrite (sticky w : Word) : Word :=
  sticky &&& ~~~w

/-- `T`, the trailer length in bytes (rules R7, R260). -/
def AuthVariant.trailerBytes : AuthVariant → Nat
  | .keyedHash4 => 4
  | .hmacSha256x8 => 8

/-- `T` of a build (rule R260). -/
def Build.T (b : Build) : Nat :=
  AuthVariant.trailerBytes b.variant

/-- `ID` (rule R36): 0x534B in [31:16], `AUTH_VARIANT` in [8], `VERSION` in [4:0]. -/
def idWord (b : Build) : Word :=
  0x534B#16 ++ 0#7 ++ BitVec.ofBool (b.variant == .hmacSha256x8) ++ 0#3 ++ Config.version

/-- `CAPS` (rule R37): `BUF_BYTES` in [15:0], `TICK_BITS` in [23:16], `T` in [27:24]. -/
def capsWord (b : Build) : Word :=
  0#4 ++ BitVec.ofNat 4 b.T ++ BitVec.ofNat 8 Config.tickBits ++ BitVec.ofNat 16 b.bufBytes

/-- `STATUS` (rule R38): `CODE` [3:0], `DETAIL` [15:8], `BUSY` [16], `KEY_VALID` [17], `MAC_VALID` [18]. -/
def statusWord (s : State) : Word :=
  0#13 ++ BitVec.ofBool s.mac.valid ++ BitVec.ofBool s.keyValid ++ BitVec.ofBool s.busy
    ++ s.detail ++ 0#4 ++ s.code

/-- The cycle: `OWN + GAP + PEER + TAIL`, computed wherever it is needed (rules R30, R47, R290). -/
def MacState.cycle (m : MacState) : Nat :=
  m.own.toNat + m.gap.toNat + m.peer.toNat + m.tail.toNat

/-- `EXT_COUNT` (rule R43). -/
def extCountWord (s : State) : Word :=
  s.extCount.setWidth 32

/-- `MAC_EPOCH` (rule R44). -/
def macEpochWord (m : MacState) : Word :=
  m.epoch.setWidth 32

/-- `MAC_LEN` (rule R45): `OWN` [15:0], `PEER` [31:16]. -/
def macLenWord (m : MacState) : Word :=
  m.peer ++ m.own

/-- `MAC_GT` (rule R46): `GAP` [15:0], `TAIL` [31:16]. -/
def macGtWord (m : MacState) : Word :=
  m.tail ++ m.gap

/-- `MAC_CYCLE` (rule R47). -/
def macCycleWord (m : MacState) : Word :=
  BitVec.ofNat 32 m.cycle

/-- `MAC_LAST` (rule R48): `LAST` [23:0], `LAST_VALID` [31]. -/
def macLastWord (m : MacState) : Word :=
  BitVec.ofBool m.lastValid ++ 0#7 ++ m.last

end Sys2Proof.Machine
end

