-- ==== Sys2Proof/Machine/Operands.lean ====
section
/-! DEFINITION. Reading and writing a register file, and every operand and result form of 30_encoding.md rules
R113..R115: regions, destination offsets, narrow fields, region results. -/

namespace Sys2Proof.Machine

/-- Register `i` of eight. -/
def RegFile.get (r : RegFile) (i : Fin 8) : Word :=
  match i with
  | 0 => r.r0
  | 1 => r.r1
  | 2 => r.r2
  | 3 => r.r3
  | 4 => r.r4
  | 5 => r.r5
  | 6 => r.r6
  | 7 => r.r7

/-- Register `i` of eight replaced. -/
def RegFile.set (r : RegFile) (i : Fin 8) (v : Word) : RegFile :=
  match i with
  | 0 => { r with r0 := v }
  | 1 => { r with r1 := v }
  | 2 => { r with r2 := v }
  | 3 => { r with r3 := v }
  | 4 => { r with r4 := v }
  | 5 => { r with r5 := v }
  | 6 => { r with r6 := v }
  | 7 => { r with r7 := v }

/-- The eight registers in order. -/
def RegFile.toList (r : RegFile) : List Word :=
  [r.r0, r.r1, r.r2, r.r3, r.r4, r.r5, r.r6, r.r7]

/-- Bits [15:0] of a register (rules R113, R114). -/
def lowHalf (r : Word) : BitVec 16 :=
  r.extractLsb' 0 16

/-- Bits [31:16] of a register (rules R113, R114). -/
def highHalf (r : Word) : BitVec 16 :=
  r.extractLsb' 16 16

/-- A region operand: `BUF[off..off+n)` (rule R113). -/
structure Region where
  off : Nat
  n : Nat
  deriving DecidableEq, Repr

/-- A region operand: `off = r[15:0]`, `n = r[31:16]`, both unsigned (rule R113). -/
def regionOf (r : Word) : Region :=
  { off := (lowHalf r).toNat, n := (highHalf r).toNat }

/-- A destination or source offset operand: `r[15:0]` alone (rule R113). -/
def offsetOf (r : Word) : Nat :=
  (lowHalf r).toNat

/-- A region result: `R(off, n) = n << 16 | off` (rules R113, R115). -/
def regionWord (off n : Nat) : Word :=
  BitVec.ofNat 16 n ++ BitVec.ofNat 16 off

/-- A count or length as a result word (rule R115). -/
def countWord (n : Nat) : Word :=
  BitVec.ofNat 32 n

/-- A 12-bit operand: bits [11:0] (rule R114, the Golay commands). -/
def data12Of (r : Word) : BitVec 12 :=
  r.extractLsb' 0 12

/-- A received 24-bit word: bits [23:0] (rule R114, `GOLAY_DEC`). -/
def received24Of (r : Word) : BitVec 24 :=
  r.extractLsb' 0 24

/-- A MAC time: bits [23:0], `TICK_BITS` wide (rules R114, R293). -/
def tickOf (r : Word) : BitVec 24 :=
  r.extractLsb' 0 24

/-- `ARG3` of `FRAME_BUILD` (rule R114): `sequence` [15:0], `vc` [18:16], `fragment` [21:20], `arq_on` [24]. -/
structure FrameArgs where
  sequence : BitVec 16
  vc : BitVec 3
  fragment : BitVec 2
  arqOn : Bool
  deriving DecidableEq, Repr

/-- The fields of `FRAME_BUILD`'s `ARG3` (rule R114). -/
def frameArgsOf (r : Word) : FrameArgs :=
  { sequence := lowHalf r
    vc := r.extractLsb' 16 3
    fragment := r.extractLsb' 20 2
    arqOn := r.getLsbD 24 }

end Sys2Proof.Machine
end

