-- ==== Sys2Proof/Machine/Ops.lean ====
section
/-! DEFINITION. The named operations every command shares: one update per component of the state, the frame
buffer (20_memory.md rules R82..R84), the checks, and the two ways a command ends: success (60_exceptions.md
rule R344) and abort (rule R345). The abort is this block's only exception entry; nothing returns from it
(rules R350, R351). -/

namespace Sys2Proof.Machine

/-! ### One update per component -/

/-- Replace `ARG0`..`ARG7`. -/
def State.setArg (s : State) (v : RegFile) : State := { s with arg := v }

/-- Replace `RES0`..`RES7`. -/
def State.setRes (s : State) (v : RegFile) : State := { s with res := v }

/-- Write `STATUS.CODE` and `STATUS.DETAIL` (rule R34). -/
def State.setOutcome (s : State) (code : BitVec 4) (detail : BitVec 8) : State :=
  { s with code := code, detail := detail }

/-- Write `BUSY` (rule R53). -/
def State.setBusy (s : State) (v : Bool) : State := { s with busy := v }

/-- Write `STICKY` (rule R39). -/
def State.setSticky (s : State) (v : Word) : State := { s with sticky := v }

/-- Write `CMDREG` (rule R40). -/
def State.setCmdReg (s : State) (v : Word) : State := { s with cmdReg := v }

/-- Replace `BUF` (rule R52). -/
def State.setBuf (s : State) (v : Memory) : State := { s with buf := v }

/-- Write `KEY` and `KEY_VALID` (rule R50). -/
def State.setKey (s : State) (k : Key) (valid : Bool) : State := { s with key := k, keyValid := valid }

/-- Write `EXT_TAB` and `EXT_COUNT`: the given entries, their number, and zero in every later entry
(rules R43, R51, R152). -/
def State.setExtTab (s : State) (recs : List ExtWords) : State :=
  { s with extTab := recs, extCount := BitVec.ofNat 9 recs.length }

/-- Replace the MAC state (rule R54). -/
def State.setMac (s : State) (m : MacState) : State := { s with mac := m }

/-- Replace the model's own fields. -/
def State.setEnv (s : State) (e : Env) : State := { s with env := e }

/-! ### The frame buffer -/

/-- The byte a memory lists at an offset, `none` where nothing has written it. -/
def Memory.lookup : Memory → Nat → Option Byte
  | [], _ => none
  | (a, b) :: rest, off => if a = off then some b else Memory.lookup rest off

/-- Write one byte, keeping the offsets strictly rising. -/
def Memory.store : Memory → Nat → Byte → Memory
  | [], off, v => [(off, v)]
  | (a, b) :: rest, off, v =>
    if off < a then (off, v) :: (a, b) :: rest
    else if off = a then (off, v) :: rest
    else (a, b) :: Memory.store rest off v

/-- Write a byte string starting at an offset, one byte after another. -/
def Memory.storeBytes : Memory → Nat → List Byte → Memory
  | m, _, [] => m
  | m, off, b :: bs => Memory.storeBytes (Memory.store m off b) (off + 1) bs

/-- The canonical form: offsets strictly rising (log 4). -/
def Memory.wf : Memory → Bool
  | [] => true
  | [_] => true
  | c :: d :: rest => decide (c.1 < d.1) && Memory.wf (d :: rest)

/-- What an offset that nothing has written since reset reads as: unspecified, so a free value (rule R370,
log 3). -/
def unwrittenByte (s : State) (off : Nat) : Byte :=
  Config.bufAfterReset s.env.resets off

/-- `BUF[off]` (rule R52). -/
def bufByte (s : State) (off : Nat) : Byte :=
  (s.buf.lookup off).getD (unwrittenByte s off)

/-- `MemRead(off, n)` (rule R83). A command is given the state it starts from and nothing else, so every read
sees the pre-command `BUF`. -/
def memRead (s : State) (off n : Nat) : List Byte :=
  (List.range n).map fun i => bufByte s (off + i)

/-- `MemWrite(off, len(b), b)` (rules R83, R84): writes the bytes of `b` and no other byte. -/
def memWrite (s : State) (off : Nat) (b : List Byte) : State :=
  s.setBuf (s.buf.storeBytes off b)

/-- A region is in bounds iff `off + n <= BUF_BYTES`, on mathematical integers (rule R82). -/
def inBounds (s : State) (off n : Nat) : Bool :=
  decide (off + n ≤ s.env.build.bufBytes)

/-! ### Checks -/

/-- `raise e` unless a condition holds (rule R14). -/
def require (c : Bool) (e : CmdError) : Except CmdError Unit :=
  if c then .ok () else .error e

/-- `CheckSrc(off, n)` (rules R14, R82). -/
def checkSrc (s : State) (r : Region) : Except CmdError Unit :=
  require (inBounds s r.off r.n) .sourceRange

/-- `CheckDst(off, n)` (rules R14, R82). -/
def checkDst (s : State) (r : Region) : Except CmdError Unit :=
  require (inBounds s r.off r.n) .destinationRange

/-- The check of every command that needs the key (rule R50). -/
def requireKey (s : State) : Except CmdError Unit :=
  require s.keyValid .keyMissing

/-! ### How a command ends -/

/-- Success (rule R344): `CODE` and `DETAIL` become 0, `STICKY` keeps its value. The state given already holds
the command's writes and its results. -/
def succeed (t : State) : State :=
  t.setOutcome 0 0

/-- The abort (rule R345 (a), (b), (c)): `STATUS` takes the error, `STICKY.ERR[k]` is set, every `RES` becomes
0, and nothing else changes. -/
def abort (s : State) (e : CmdError) : State :=
  ((s.setOutcome e.code e.detail).setSticky (s.sticky ||| stickyErrBit e)).setRes {}

/-- Empty the extension table (rules R152, R195, R345(d)). -/
def clearExtTab (s : State) : State :=
  s.setExtTab []

/-- A command's rule: from the state the command starts in, the state with its writes and its `RES` values, or
the first failing check (rules R330, R340). -/
abbrev Rule := State → Except CmdError State

/-- The state in which a rule run from `s` leaves the block (rule R330): everything the rule does on success,
nothing but the abort's changes on failure. -/
def finish (rule : Rule) (s : State) : State :=
  match rule s with
  | .ok t => succeed t
  | .error e => abort s e

/-- Run a rule and end the command (rule R330). A command always ends, so this is always a next state
(rules R340, R347). -/
def settle (rule : Rule) (s : State) : Host.Outcome State Fault Refusal :=
  .next (finish rule s)

/-- The same for the two commands that empty the extension table before any other check, on every outcome
(rules R152, R195, R345(d), R346). -/
def settleWithTable (rule : Rule) (s : State) : Host.Outcome State Fault Refusal :=
  settle rule (clearExtTab s)

end Sys2Proof.Machine
end

