-- ==== Sys2Proof/Machine/Sha256.lean ====
section
/-! DEFINITION. SHA-256 and HMAC-SHA256. 44_auth.md rule R261(a) names the FIPS 180-4 hash and writes HMAC out;
the hash's constants, schedule and round function are not in spec/ and are PRESUMED from the standard it
names (log 13). The constants are computed from the standard's definition of them, not copied from a table. -/

namespace Sys2Proof.Machine

/-- The primes below `n`, in order. -/
def primesBelow (n : Nat) : List Nat :=
  (List.range n).foldl
    (fun found m => if decide (2 ≤ m) && found.all (fun p => m % p != 0) then found ++ [m] else found) []

/-- The integer `k`-th root of `n`, by its low `bits` bits from the top down, added to the root `x` of the bits
above. -/
def integerRoot (k n : Nat) : (bits : Nat) → (x : Nat) → Nat
  | 0, x => x
  | bits + 1, x => integerRoot k n bits (if (x + 2 ^ bits) ^ k ≤ n then x + 2 ^ bits else x)

/-- The first 32 fraction bits of the `k`-th root of a number whose root is below 8. -/
def rootFraction (k n : Nat) : Word :=
  BitVec.ofNat 32 (integerRoot k (n * 2 ^ (32 * k)) 35 0)

/-- The 64 round constants: the fractions of the cube roots of the first 64 primes (PRESUMED, log 13). -/
def shaRoundConstants : List Word :=
  (primesBelow 312).map (rootFraction 3)

/-- The eight working words of SHA-256. -/
structure ShaWords where
  a : Word
  b : Word
  c : Word
  d : Word
  e : Word
  f : Word
  g : Word
  h : Word
  deriving DecidableEq, Repr

/-- The initial hash value: the fractions of the square roots of the first 8 primes (PRESUMED, log 13). -/
def shaInitial : ShaWords where
  a := rootFraction 2 2
  b := rootFraction 2 3
  c := rootFraction 2 5
  d := rootFraction 2 7
  e := rootFraction 2 11
  f := rootFraction 2 13
  g := rootFraction 2 17
  h := rootFraction 2 19

/-- The schedule function sigma0. -/
def shaSmallSigma0 (x : Word) : Word :=
  x.rotateRight 7 ^^^ x.rotateRight 18 ^^^ (x >>> 3)

/-- The schedule function sigma1. -/
def shaSmallSigma1 (x : Word) : Word :=
  x.rotateRight 17 ^^^ x.rotateRight 19 ^^^ (x >>> 10)

/-- The round function Sigma0. -/
def shaBigSigma0 (x : Word) : Word :=
  x.rotateRight 2 ^^^ x.rotateRight 13 ^^^ x.rotateRight 22

/-- The round function Sigma1. -/
def shaBigSigma1 (x : Word) : Word :=
  x.rotateRight 6 ^^^ x.rotateRight 11 ^^^ x.rotateRight 25

/-- The round function Ch. -/
def shaChoose (x y z : Word) : Word :=
  (x &&& y) ^^^ (~~~x &&& z)

/-- The round function Maj. -/
def shaMajority (x y z : Word) : Word :=
  (x &&& y) ^^^ (x &&& z) ^^^ (y &&& z)

/-- One of the 64 rounds, with its constant and its schedule word. -/
def shaRound (v : ShaWords) (kw : Word × Word) : ShaWords :=
  let t1 := v.h + shaBigSigma1 v.e + shaChoose v.e v.f v.g + kw.1 + kw.2
  let t2 := shaBigSigma0 v.a + shaMajority v.a v.b v.c
  { a := t1 + t2, b := v.a, c := v.b, d := v.c, e := v.d + t1, f := v.e, g := v.f, h := v.g }

/-- The message schedule: from a window of 16 words, that window's first word and the windows after it,
`n` times, then the 16 words left. -/
def shaSchedule : Nat → List Word → List Word
  | 0, window => window
  | n + 1, window =>
    window.getD 0 0 :: shaSchedule n
      (window.tail ++ [shaSmallSigma1 (window.getD 14 0) + window.getD 9 0
        + shaSmallSigma0 (window.getD 1 0) + window.getD 0 0])

/-- The first `n` big-endian words of a byte string. -/
def shaBlockWords : Nat → List Byte → List Word
  | 0, _ => []
  | n + 1, bytes => wordOfBytes (bytes.take 4) :: shaBlockWords n (bytes.drop 4)

/-- Compress one 64-byte block into the hash value. -/
def shaCompress (v : ShaWords) (block : List Byte) : ShaWords :=
  let r := (shaRoundConstants.zip (shaSchedule 48 (shaBlockWords 16 block))).foldl shaRound v
  { a := v.a + r.a, b := v.b + r.b, c := v.c + r.c, d := v.d + r.d
    e := v.e + r.e, f := v.f + r.f, g := v.g + r.g, h := v.h + r.h }

/-- Compress `n` blocks, one after another. -/
def shaBlocks : Nat → ShaWords → List Byte → ShaWords
  | 0, v, _ => v
  | n + 1, v, bytes => shaBlocks n (shaCompress v (bytes.take 64)) (bytes.drop 64)

/-- The padded message: a 1 bit, zero bits to 8 bytes short of a block, the length in bits in 8 bytes. -/
def shaPad (m : List Byte) : List Byte :=
  let bits := 8 * m.length
  m ++ 0x80#8 :: List.replicate ((119 - m.length % 64) % 64) 0
    ++ bytesOfWord 4 (BitVec.ofNat 32 (bits / 2 ^ 32)) ++ bytesOfWord 4 (BitVec.ofNat 32 bits)

/-- The 32 bytes of a hash value. -/
def ShaWords.bytes (v : ShaWords) : List Byte :=
  bytesOfWord 4 v.a ++ bytesOfWord 4 v.b ++ bytesOfWord 4 v.c ++ bytesOfWord 4 v.d
    ++ bytesOfWord 4 v.e ++ bytesOfWord 4 v.f ++ bytesOfWord 4 v.g ++ bytesOfWord 4 v.h

/-- SHA-256 (FIPS 180-4; PRESUMED, log 13). -/
def sha256 (m : List Byte) : List Byte :=
  let padded := shaPad m
  (shaBlocks (padded.length / 64) shaInitial padded).bytes

/-- The key zero-padded to the 64-byte SHA-256 block, each byte XORed with a pad byte (rule R261(a)). -/
def hmacPaddedKey (key : List Byte) (pad : Byte) : List Byte :=
  (key ++ List.replicate (64 - key.length) 0).map fun b => b ^^^ pad

/-- `HMAC(K, m) = SHA256((K0 XOR opad) ++ SHA256((K0 XOR ipad) ++ m))` (rule R261(a)). -/
def hmacSha256 (key m : List Byte) : List Byte :=
  sha256 (hmacPaddedKey key 0x5C ++ sha256 (hmacPaddedKey key 0x36 ++ m))

end Sys2Proof.Machine
end

