-- ==== Sys2Proof/Machine/Digest.lean ====
section
/-! DEFINITION. The digest of 44_auth.md rules R260..R265: the two variants, and the trailer comparison. -/

namespace Sys2Proof.Machine

/-- The key of P-KH4: `00 01 .. 1F` (rule R265). -/
def vectorKey : List Byte :=
  (List.range 32).map fun i => BitVec.ofNat 8 i

/-- The message of P-KH4: the 22 bytes of rule R265. -/
def vectorFrame : List Byte :=
  [0x66, 0x41, 0x42, 0x43, 0x44, 0x45, 0x46, 0x2B, 0x00, 0x00, 0x00,
   0x48, 0x65, 0x6C, 0x6C, 0x6F, 0x20, 0x57, 0x6F, 0x72, 0x6C, 0x64]

/-- `KH4(K, m)` (rule R261(b)): an opaque function to 4 bytes, whose one settled value is P-KH4
(rule R265). Everywhere else it is a free value (log 2). -/
def keyedHash4 (key m : List Byte) : List Byte :=
  bytesOfWord 4 (if key = vectorKey ∧ m = vectorFrame then 0xC55B10E9 else Config.keyedHash key m)

/-- `Digest(K, m)` (rule R261): `T` bytes, under the build's variant; the leading bytes of the HMAC (log 14). -/
def digest (b : Build) (key : Key) (m : List Byte) : List Byte :=
  match b.variant with
  | .hmacSha256x8 => (hmacSha256 key.val m).take 8
  | .keyedHash4 => keyedHash4 key.val m

/-- `CtEqual(x, y)`: 1 iff x = y (rule R264). Its latency is the timing model's concern
(Machine/Timing.lean). -/
def ctEqual (x y : List Byte) : Bool :=
  x == y

end Sys2Proof.Machine
end

