-- ==== Sys2Proof/Machine/Extension.lean ====
section
/-! DEFINITION. Extension records (42_extension.md rules R180..R195, 30_encoding.md rules R116, R119, R120) and
their commands. -/

namespace Sys2Proof.Machine

/-- An extension record: the six known records and the opaque one (rules R120, R192). -/
inductive ExtRecord where
  | arqSequence (sequence : Byte)
  | arqRequest (sequence : Byte) (mask : BitVec 16)
  | arqControl (txSequence rxSequence : Byte)
  | arqHandshake (peerState : Byte) (identifier : Word)
  | tddControl (window remaining : BitVec 16)
  | hmacSequenceReset (sequence : BitVec 16)
  | opaqueRecord (type : BitVec 4) (data : List Byte)
  deriving DecidableEq, Repr

/-- `type` of a record (rule R120). -/
def ExtRecord.type : ExtRecord → BitVec 4
  | .arqSequence _ => 0
  | .arqRequest _ _ => 1
  | .arqControl _ _ => 2
  | .arqHandshake _ _ => 3
  | .tddControl _ _ => 4
  | .hmacSequenceReset _ => 5
  | .opaqueRecord t _ => t

/-- The data bytes of a record, big-endian fields in rule R120's order (rules R120, R181). -/
def ExtRecord.data : ExtRecord → List Byte
  | .arqSequence q => [q]
  | .arqRequest q mask => q :: bytesOfWord 2 (mask.setWidth 32)
  | .arqControl tx rx => [tx, rx]
  | .arqHandshake p ident => p :: bytesOfWord 4 ident
  | .tddControl win rem => bytesOfWord 2 (win.setWidth 32) ++ bytesOfWord 2 (rem.setWidth 32)
  | .hmacSequenceReset q => bytesOfWord 2 (q.setWidth 32)
  | .opaqueRecord _ d => d

/-- The header byte: `len` in [7:4], `type` in [3:0] (rules R119, R180). -/
def recordHeader (len : Nat) (type : BitVec 4) : Byte :=
  BitVec.ofNat 4 len ++ type

/-- `EncodeRecord`: header byte, then data bytes (rules R119, R181). -/
def ExtRecord.encode (r : ExtRecord) : List Byte :=
  recordHeader r.data.length r.type :: r.data

/-- Field A of a record (rules R116, R120). -/
def ExtRecord.fieldA : ExtRecord → Word
  | .arqSequence q => q.setWidth 32
  | .arqRequest q _ => q.setWidth 32
  | .arqControl tx _ => tx.setWidth 32
  | .arqHandshake p _ => p.setWidth 32
  | .tddControl win _ => win.setWidth 32
  | .hmacSequenceReset q => q.setWidth 32
  | .opaqueRecord _ _ => 0

/-- Field B of a record (rules R116, R120). -/
def ExtRecord.fieldB : ExtRecord → Word
  | .arqSequence _ => 0
  | .arqRequest _ mask => mask.setWidth 32
  | .arqControl _ rx => rx.setWidth 32
  | .arqHandshake _ ident => ident
  | .tddControl _ rem => rem.setWidth 32
  | .hmacSequenceReset _ => 0
  | .opaqueRecord _ _ => 0

/-- The type is one of the known types 0..5 (rules R116, R120). -/
def typeKnown (t : BitVec 4) : Bool :=
  decide (t.toNat ≤ 5)

/-- The words of a record whose header byte stands at `off` (rules R116, R191): `W0` = `type` [3:0], `len`
[7:4], `known` [8], the offset of the first data byte [31:16]. -/
def ExtRecord.words (r : ExtRecord) (off : Nat) : ExtWords where
  w0 := BitVec.ofNat 16 (off + 1) ++ 0#7 ++ BitVec.ofBool (typeKnown r.type)
    ++ BitVec.ofNat 4 r.data.length ++ r.type
  w1 := r.fieldA
  w2 := r.fieldB

/-- `DataLen(t)` for a known type (rules R120, R191). -/
def dataLen (t : BitVec 4) : Nat :=
  match t.toNat with
  | 0 => 1
  | 1 => 3
  | 2 => 2
  | 3 => 5
  | 4 => 4
  | 5 => 2
  | _ => 0

/-- The record with a type and data bytes, one arm per known type and a default arm for 6..15
(rules R191, R192). A known type's data has its `DataLen` bytes. -/
def recordOf (t : BitVec 4) (d : List Byte) : ExtRecord :=
  match t.toNat with
  | 0 => .arqSequence (d.getD 0 0)
  | 1 => .arqRequest (d.getD 0 0) ((wordOfBytes (d.drop 1)).setWidth 16)
  | 2 => .arqControl (d.getD 0 0) (d.getD 1 0)
  | 3 => .arqHandshake (d.getD 0 0) (wordOfBytes (d.drop 1))
  | 4 => .tddControl ((wordOfBytes (d.take 2)).setWidth 16) ((wordOfBytes (d.drop 2)).setWidth 16)
  | 5 => .hmacSequenceReset ((wordOfBytes d).setWidth 16)
  | _ => .opaqueRecord t d

/-- `DecodeRecord(off, avail)` (rule R191): the record that starts at `BUF[off]` with `avail` bytes to the end
of the blob, and how many bytes it takes. -/
def decodeRecord (s : State) (off avail : Nat) : Except CmdError (ExtRecord × Nat) := do
  require (decide (1 ≤ avail)) .recordTruncated
  let h := bufByte s off
  let len := (h.extractLsb' 4 4).toNat
  let t : BitVec 4 := h.extractLsb' 0 4
  require (decide (1 + len ≤ avail)) .recordTruncated
  require (!typeKnown t || len == dataLen t) .recordLengthWrong
  .ok (recordOf t (memRead s (off + 1) len), 1 + len)

/-- The loop of `DecodeAll` (rule R194), with `fuel` at least the bytes left: each record takes at least one. -/
def decodeRecords (s : State) : Nat → Nat → Nat → Except CmdError (List ExtWords)
  | 0, _, _ => .ok []
  | fuel + 1, off, left =>
    if left = 0 then .ok []
    else do
      let (r, c) ← decodeRecord s off left
      let rest ← decodeRecords s fuel (off + c) (left - c)
      .ok (r.words off :: rest)

/-- `DecodeAll(bo, bn)` (rule R194): the records in wire order. -/
def decodeAll (s : State) (bo bn : Nat) : Except CmdError (List ExtWords) :=
  decodeRecords s bn bo bn

/-- The common body of `EXT_ENC` (rule R182): write the record at `ARG2[15:0]`, `RES0` = its length. -/
def ruleExtEnc (rec : State → ExtRecord) : Rule := fun s => do
  let bytes := (rec s).encode
  let dst := offsetOf s.arg.r2
  checkDst s { off := dst, n := bytes.length }
  .ok ((memWrite s dst bytes).setRes { r0 := countWord bytes.length })

/-- The operands of `EXT_ENC.ARQSequence` (rule R184). -/
def arqSequenceArgs (s : State) : ExtRecord :=
  .arqSequence (s.arg.r0.extractLsb' 0 8)

/-- `EXT_ENC.ARQSequence` (rule R184). -/
def execExtEncArqSequence (s : State) : Host.Outcome State Fault Refusal :=
  settle (ruleExtEnc arqSequenceArgs) s

/-- The operands of `EXT_ENC.ARQRequest` (rule R185). -/
def arqRequestArgs (s : State) : ExtRecord :=
  .arqRequest (s.arg.r0.extractLsb' 0 8) (lowHalf s.arg.r1)

/-- `EXT_ENC.ARQRequest` (rule R185). -/
def execExtEncArqRequest (s : State) : Host.Outcome State Fault Refusal :=
  settle (ruleExtEnc arqRequestArgs) s

/-- The operands of `EXT_ENC.ARQControl` (rule R186). -/
def arqControlArgs (s : State) : ExtRecord :=
  .arqControl (s.arg.r0.extractLsb' 0 8) (s.arg.r1.extractLsb' 0 8)

/-- `EXT_ENC.ARQControl` (rule R186). -/
def execExtEncArqControl (s : State) : Host.Outcome State Fault Refusal :=
  settle (ruleExtEnc arqControlArgs) s

/-- The operands of `EXT_ENC.ARQHandshake` (rule R187). -/
def arqHandshakeArgs (s : State) : ExtRecord :=
  .arqHandshake (s.arg.r0.extractLsb' 0 8) s.arg.r1

/-- `EXT_ENC.ARQHandshake` (rule R187). -/
def execExtEncArqHandshake (s : State) : Host.Outcome State Fault Refusal :=
  settle (ruleExtEnc arqHandshakeArgs) s

/-- The operands of `EXT_ENC.TDDControl` (rule R188). -/
def tddControlArgs (s : State) : ExtRecord :=
  .tddControl (lowHalf s.arg.r0) (lowHalf s.arg.r1)

/-- `EXT_ENC.TDDControl` (rule R188). -/
def execExtEncTddControl (s : State) : Host.Outcome State Fault Refusal :=
  settle (ruleExtEnc tddControlArgs) s

/-- The operands of `EXT_ENC.HMACSequenceReset` (rule R189). -/
def hmacSequenceResetArgs (s : State) : ExtRecord :=
  .hmacSequenceReset (lowHalf s.arg.r0)

/-- `EXT_ENC.HMACSequenceReset` (rule R189). -/
def execExtEncHmacSequenceReset (s : State) : Host.Outcome State Fault Refusal :=
  settle (ruleExtEnc hmacSequenceResetArgs) s

/-- `EXT_ENC_RAW` (rule R190): any type, data from the region of `ARG3`. -/
def ruleExtEncRaw (type : BitVec 4) : Rule := fun s => do
  let src := regionOf s.arg.r3
  checkSrc s src
  require (decide (src.n ≤ 15)) .rawDataTooLong
  let dst := offsetOf s.arg.r2
  checkDst s { off := dst, n := 1 + src.n }
  .ok ((memWrite s dst (recordHeader src.n type :: memRead s src.off src.n)).setRes
    { r0 := countWord (1 + src.n) })

/-- `EXT_ENC_RAW` (rule R190). -/
def execExtEncRaw (type : BitVec 4) (s : State) : Host.Outcome State Fault Refusal :=
  settle (ruleExtEncRaw type) s

/-- `EXT_DEC` (rule R193): one record; neither `EXT_TAB` nor `BUF` is written. -/
def ruleExtDec : Rule := fun s => do
  let blob := regionOf s.arg.r0
  checkSrc s blob
  let (r, c) ← decodeRecord s blob.off blob.n
  let w := r.words blob.off
  .ok (s.setRes { r0 := w.w0, r1 := w.w1, r2 := w.w2, r3 := countWord c })

/-- `EXT_DEC` (rule R193). -/
def execExtDec (s : State) : Host.Outcome State Fault Refusal :=
  settle ruleExtDec s

/-- `EXT_DEC_ALL` after the table is emptied (rule R195). -/
def ruleExtDecAll : Rule := fun s => do
  let blob := regionOf s.arg.r0
  checkSrc s blob
  require (decide (blob.n ≤ Config.extTabEntries)) .blobTooLong
  let recs ← decodeAll s blob.off blob.n
  .ok ((s.setExtTab recs).setRes { r0 := countWord recs.length })

/-- `EXT_DEC_ALL` (rule R195). -/
def execExtDecAll (s : State) : Host.Outcome State Fault Refusal :=
  settleWithTable ruleExtDecAll s

end Sys2Proof.Machine
end

