-- ==== Sys2Proof/Machine/Frame.lean ====
section
/-! DEFINITION. The frame codec of 41_frame.md: `FRAME_BUILD` and `FRAME_PARSE` over the layout of
30_encoding.md rule R117. -/

namespace Sys2Proof.Machine

/-- `Ta`: the trailer length of a frame, `T` iff it is authenticated (rules R117, R142). -/
def trailerLen (b : Build) (auth : Bool) : Nat :=
  if auth then b.T else 0

/-- `PayloadLen(n, il, el, au)` (rule R142), a mathematical integer: the one formula of both commands. -/
def payloadLen (b : Build) (n il el : Nat) (au : Bool) : Int :=
  (n : Int) - Config.fixedHeaderBytes - il - el - trailerLen b au

/-- The bytes of a frame before its trailer (rules R117, R145). -/
def frameBody (ident ext payload : List Byte) (f : FrameArgs) (auth : Bool) : List Byte :=
  [Config.version ++ BitVec.ofNat 3 ident.length] ++ ident
    ++ [f.fragment ++ BitVec.ofBool (decide (0 < payload.length)) ++ BitVec.ofBool f.arqOn
        ++ BitVec.ofBool auth ++ f.vc]
    ++ [BitVec.ofNat 8 ext.length]
    ++ bytesOfWord 2 (f.sequence.setWidth 32) ++ ext ++ payload

/-- `total`, the length of the frame `FRAME_BUILD` makes (rules R117, R145). -/
def frameTotal (auth : Bool) (s : State) : Nat :=
  Config.fixedHeaderBytes + (regionOf s.arg.r0).n + (regionOf s.arg.r2).n + (regionOf s.arg.r1).n
    + trailerLen s.env.build auth

/-- The checks of `FRAME_BUILD`, in rule R145's order; all of them come before the digest. -/
def frameBuildChecks (auth outerFec : Bool) (s : State) : Except CmdError Unit := do
  let ident := regionOf s.arg.r0
  let payload := regionOf s.arg.r1
  let ext := regionOf s.arg.r2
  checkSrc s ident
  checkSrc s payload
  checkSrc s ext
  require (!auth || s.keyValid) .keyMissing
  require (decide (ident.n ≠ 0)) .identEmpty
  require (decide (ident.n ≤ 7)) .identTooLong
  require (decide (ext.n ≤ 255)) .extensionsTooLong
  require (decide ((frameArgsOf s.arg.r3).vc.toNat ≤ Config.vcMax)) .vcOutOfRange
  require (!outerFec || decide (frameTotal auth s ≤ Config.fecBudget)) .overFecBudget
  checkDst s { off := offsetOf s.arg.r4, n := frameTotal auth s }

/-- The frame `FRAME_BUILD` writes (rules R145, R146): the body, and its digest if `AUTH` is set. -/
def builtFrame (auth : Bool) (s : State) : List Byte :=
  let ident := regionOf s.arg.r0
  let payload := regionOf s.arg.r1
  let ext := regionOf s.arg.r2
  let body := frameBody (memRead s ident.off ident.n) (memRead s ext.off ext.n)
    (memRead s payload.off payload.n) (frameArgsOf s.arg.r3) auth
  if auth then body ++ digest s.env.build s.key body else body

/-- `FRAME_BUILD` (rule R145). -/
def ruleFrameBuild (auth outerFec : Bool) : Rule := fun s => do
  frameBuildChecks auth outerFec s
  .ok ((memWrite s (offsetOf s.arg.r4) (builtFrame auth s)).setRes { r0 := countWord (frameTotal auth s) })

/-- `FRAME_BUILD` (rule R145). -/
def execFrameBuild (auth outerFec : Bool) (s : State) : Host.Outcome State Fault Refusal :=
  settle (ruleFrameBuild auth outerFec) s

/-- The header fields `FRAME_PARSE` reads, and the derived payload length (rule R150). -/
structure FrameHeader where
  version : BitVec 5
  identLen : BitVec 3
  fragment : BitVec 2
  hasPayload : Bool
  arqOn : Bool
  authenticated : Bool
  vc : BitVec 3
  extensionLen : BitVec 8
  sequence : BitVec 16
  payloadLen : Nat
  deriving DecidableEq, Repr

/-- The header fields of a frame's bytes under the canonical layout (rules R117, R150); `il` is the identifier
length of its first byte. -/
def headerFields (build : Build) (b : List Byte) : FrameHeader :=
  let il := ((b.getD 0 0).extractLsb' 0 3).toNat
  let f := b.getD (1 + il) 0
  let el := b.getD (2 + il) 0
  { version := (b.getD 0 0).extractLsb' 3 5
    identLen := (b.getD 0 0).extractLsb' 0 3
    fragment := f.extractLsb' 6 2
    hasPayload := f.getLsbD 5
    arqOn := f.getLsbD 4
    authenticated := f.getLsbD 3
    vc := f.extractLsb' 0 3
    extensionLen := el
    sequence := b.getD (3 + il) 0 ++ b.getD (4 + il) 0
    payloadLen := (payloadLen build b.length il el.toNat (f.getLsbD 3)).toNat }

/-- `FRAME_PARSE` up to the trailer check (rule R150): the bounds, the key, and every format check, in order. -/
def frameHeader (verify : Bool) (s : State) : Except CmdError FrameHeader := do
  let r := regionOf s.arg.r0
  checkSrc s r
  require (!verify || s.keyValid) .keyMissing
  require (decide (1 ≤ r.n)) .frameTooShort
  let h := headerFields s.env.build (memRead s r.off r.n)
  require (decide (h.version = Config.version)) .wrongVersion
  require (decide (h.identLen.toNat ≠ 0)) .identEmpty
  require (decide (Config.fixedHeaderBytes + h.identLen.toNat ≤ r.n)) .frameTooShort
  require (decide (0 ≤ payloadLen s.env.build r.n h.identLen.toNat h.extensionLen.toNat h.authenticated))
    .frameTooShort
  require (h.hasPayload == decide (0 < h.payloadLen)) .payloadFlagWrong
  .ok h

/-- The trailer of the frame (off, n) matches the digest of everything before it (rules R146, R150, R263). -/
def trailerMatches (s : State) (off n : Nat) : Bool :=
  ctEqual (digest s.env.build s.key (memRead s off (n - s.env.build.T)))
    (memRead s (off + n - s.env.build.T) s.env.build.T)

/-- The trailer check of `FRAME_PARSE` (rules R150, R151): whether the frame is verified. -/
def frameVerified (verify : Bool) (h : FrameHeader) (s : State) : Except CmdError Bool := do
  let r := regionOf s.arg.r0
  require (!(h.authenticated && verify) || trailerMatches s r.off r.n) .trailerMismatch
  .ok (h.authenticated && verify)

/-- The header word `RES0` of `FRAME_PARSE` (rules R115, R150). -/
def frameHeaderWord (h : FrameHeader) (verified decoded : Bool) : Word :=
  h.version.setWidth 32 ||| (h.identLen.setWidth 32 <<< 8) ||| (h.fragment.setWidth 32 <<< 16)
    ||| flagBit 18 h.hasPayload ||| flagBit 19 h.arqOn ||| flagBit 20 h.authenticated
    ||| (h.vc.setWidth 32 <<< 24) ||| flagBit 28 verified ||| flagBit 29 decoded

/-- The results of a successful `FRAME_PARSE` of the frame (fo, n) (rules R115, R150). -/
def frameResults (b : Build) (fo n : Nat) (h : FrameHeader) (verified decoded : Bool) (count : Nat) :
    RegFile :=
  let il := h.identLen.toNat
  let el := h.extensionLen.toNat
  let ta := trailerLen b h.authenticated
  { r0 := frameHeaderWord h verified decoded
    r1 := h.sequence.setWidth 32 ||| (h.extensionLen.setWidth 32 <<< 16)
    r2 := regionWord (fo + 1) il
    r3 := regionWord (fo + 5 + il) el
    r4 := regionWord (fo + 5 + il + el) h.payloadLen
    r5 := regionWord (fo + n - ta) ta
    r6 := countWord count }

/-- The records of the frame at `fo`, if they are asked for (rules R150, R194). -/
def frameRecords (decodeExt : Bool) (h : FrameHeader) (s : State) : Except CmdError (List ExtWords) :=
  if decodeExt then
    decodeAll s ((regionOf s.arg.r0).off + 5 + h.identLen.toNat) h.extensionLen.toNat
  else .ok []

/-- `FRAME_PARSE` after the table is emptied (rule R150). -/
def ruleFrameParse (decodeExt verify : Bool) : Rule := fun s => do
  let h ← frameHeader verify s
  let verified ← frameVerified verify h s
  let recs ← frameRecords decodeExt h s
  let r := regionOf s.arg.r0
  .ok ((s.setExtTab recs).setRes
    (frameResults s.env.build r.off r.n h verified decodeExt recs.length))

/-- `FRAME_PARSE` (rules R150, R152). -/
def execFrameParse (decodeExt verify : Bool) (s : State) : Host.Outcome State Fault Refusal :=
  settleWithTable (ruleFrameParse decodeExt verify) s

end Sys2Proof.Machine
end

