-- ==== Sys2Proof/Machine/Auth.lean ====
section
/-! DEFINITION. The key and trailer commands of 44_auth.md sections 2 and 3. -/

namespace Sys2Proof.Machine

/-- The 32 bytes of `BUF` at an offset, as a key (rule R266). -/
def keyAt (s : State) (src : Nat) : Key :=
  ⟨memRead s src Config.keyBytes, by simp [memRead]⟩

/-- `KEY_LOAD` (rule R266). -/
def ruleKeyLoad : Rule := fun s => do
  let src := offsetOf s.arg.r0
  checkSrc s { off := src, n := Config.keyBytes }
  .ok ((s.setKey (keyAt s src) true).setRes {})

/-- `KEY_LOAD` (rule R266). -/
def execKeyLoad (s : State) : Host.Outcome State Fault Refusal :=
  settle ruleKeyLoad s

/-- `KEY_CLEAR` (rule R267). -/
def ruleKeyClear : Rule := fun s => .ok ((s.setKey Key.zero false).setRes {})

/-- `KEY_CLEAR` (rule R267). -/
def execKeyClear (s : State) : Host.Outcome State Fault Refusal :=
  settle ruleKeyClear s

/-- The checks of `AUTH_APPEND`, in rule R268's order; all of them come before the digest. -/
def authAppendChecks (s : State) : Except CmdError Unit := do
  let r := regionOf s.arg.r0
  checkSrc s r
  requireKey s
  checkDst s { off := r.off + r.n, n := s.env.build.T }

/-- `AUTH_APPEND` (rule R268): the trailer goes right after the data. -/
def ruleAuthAppend : Rule := fun s => do
  authAppendChecks s
  let r := regionOf s.arg.r0
  .ok ((memWrite s (r.off + r.n) (digest s.env.build s.key (memRead s r.off r.n))).setRes
    { r0 := countWord (r.n + s.env.build.T) })

/-- `AUTH_APPEND` (rule R268). -/
def execAuthAppend (s : State) : Host.Outcome State Fault Refusal :=
  settle ruleAuthAppend s

/-- The checks of `AUTH_VERIFY` that come before the digest (rule R269). -/
def authVerifyChecks (s : State) : Except CmdError Unit := do
  let r := regionOf s.arg.r0
  checkSrc s r
  requireKey s
  require (decide (s.env.build.T ≤ r.n)) .inputTooShort

/-- `AUTH_VERIFY` (rule R269). -/
def ruleAuthVerify : Rule := fun s => do
  authVerifyChecks s
  let r := regionOf s.arg.r0
  require (trailerMatches s r.off r.n) .trailerMismatch
  .ok (s.setRes { r0 := countWord (r.n - s.env.build.T) })

/-- `AUTH_VERIFY` (rule R269). -/
def execAuthVerify (s : State) : Host.Outcome State Fault Refusal :=
  settle ruleAuthVerify s

end Sys2Proof.Machine
end

