-- ==== Sys2Proof/Machine/Control.lean ====
section
/-! DEFINITION. The command of 46_control.md: `NOP`. -/

namespace Sys2Proof.Machine

/-- `NOP` (rule R331): every `RES` register 0, `CODE` and `DETAIL` 0, nothing else. -/
def ruleNop : Rule := fun s => .ok (s.setRes {})

/-- `NOP` (rule R331). -/
def execNop (s : State) : Host.Outcome State Fault Refusal :=
  settle ruleNop s

end Sys2Proof.Machine
end

