-- ==== Sys2Proof/Machine/Golay.lean ====
section
/-! DEFINITION. The Golay and length-prefix commands of 43_golay.md section 3. -/

namespace Sys2Proof.Machine

/-- The results every decode command writes (rule R224): data, error pattern, `popcount(e) | step << 8`. -/
def golayResults (r : GolayResult) : RegFile where
  r0 := r.data.setWidth 32
  r1 := r.pattern.setWidth 32
  r2 := countWord (popcount r.pattern) ||| (r.step.setWidth 32 <<< 8)

/-- `GOLAY_ENC` (rule R230). -/
def ruleGolayEnc : Rule := fun s =>
  .ok (s.setRes { r0 := (golayEncode s.env.build.golayB (data12Of s.arg.r0)).setWidth 32 })

/-- `GOLAY_ENC` (rule R230). -/
def execGolayEnc (s : State) : Host.Outcome State Fault Refusal :=
  settle ruleGolayEnc s

/-- `GOLAY_DEC` (rule R231). -/
def ruleGolayDec : Rule := fun s => do
  let g ← golayDecode s.env.build.golayB (received24Of s.arg.r0)
  .ok (s.setRes (golayResults g))

/-- `GOLAY_DEC` (rule R231). -/
def execGolayDec (s : State) : Host.Outcome State Fault Refusal :=
  settle ruleGolayDec s

/-- Write a codeword's triple at `dst` and report the codeword: the end of rules R232 and R235. -/
def writeTriple (s : State) (dst : Nat) (c : BitVec 24) : State :=
  (memWrite s dst (triple c)).setRes { r0 := c.setWidth 32 }

/-- `GOLAY_ENC_BYTES` (rule R232). -/
def ruleGolayEncBytes : Rule := fun s => do
  let dst := offsetOf s.arg.r1
  checkDst s { off := dst, n := 3 }
  .ok (writeTriple s dst (golayEncode s.env.build.golayB (data12Of s.arg.r0)))

/-- `GOLAY_ENC_BYTES` (rule R232). -/
def execGolayEncBytes (s : State) : Host.Outcome State Fault Refusal :=
  settle ruleGolayEncBytes s

/-- Read the triple at `src` and decode it: the start of rules R233 and R236. -/
def decodeTripleAt (s : State) (src : Nat) : Except CmdError GolayResult := do
  checkSrc s { off := src, n := 3 }
  golayDecode s.env.build.golayB (untriple (memRead s src 3))

/-- `GOLAY_DEC_BYTES` (rule R233). -/
def ruleGolayDecBytes : Rule := fun s => do
  let g ← decodeTripleAt s (offsetOf s.arg.r0)
  .ok (s.setRes (golayResults g))

/-- `GOLAY_DEC_BYTES` (rule R233). -/
def execGolayDecBytes (s : State) : Host.Outcome State Fault Refusal :=
  settle ruleGolayDecBytes s

/-- `PREFIX_ENC` (rule R235): bit 11 is the Viterbi bit, bit 8 the outer-FEC bit (rule R122). -/
def rulePrefixEnc : Rule := fun s => do
  let v := data12Of s.arg.r0
  let dst := offsetOf s.arg.r1
  checkDst s { off := dst, n := 3 }
  require (!v.getLsbD 11) .viterbiRequested
  require (v.getLsbD 8) .prefixWithoutFec
  .ok (writeTriple s dst (golayEncode s.env.build.golayB v))

/-- `PREFIX_ENC` (rule R235). -/
def execPrefixEnc (s : State) : Host.Outcome State Fault Refusal :=
  settle rulePrefixEnc s

/-- `PREFIX_DEC` (rule R236): the Viterbi bit is tested after correction. -/
def rulePrefixDec : Rule := fun s => do
  let g ← decodeTripleAt s (offsetOf s.arg.r0)
  require (!g.data.getLsbD 11) .viterbiDecoded
  .ok (s.setRes (golayResults g))

/-- `PREFIX_DEC` (rule R236). -/
def execPrefixDec (s : State) : Host.Outcome State Fault Refusal :=
  settle rulePrefixDec s

end Sys2Proof.Machine
end

