-- ==== Sys2Proof/Machine/Mac.lean ====
section
/-! DEFINITION. The TDD MAC scheduler of 45_mac.md: the formulas of rule R290 and the six commands. -/

namespace Sys2Proof.Machine

/-- `(a - b) mod c`, the non-negative modulus (rules R12, R290, R382). -/
def modSub (a b : Int) (c : Nat) : Int :=
  (a - b) % (c : Int)

/-- `OwnRem(now)` (rule R290). -/
def ownRem (m : MacState) (now : BitVec 24) : Int :=
  m.own.toNat - modSub now.toNat m.epoch.toNat m.cycle

/-- `PeerRem(now)` (rule R290); `EPOCH + OWN + GAP` is not reduced. -/
def peerRem (m : MacState) (now : BitVec 24) : Int :=
  m.peer.toNat - modSub now.toNat (m.epoch.toNat + m.own.toNat + m.gap.toNat) m.cycle

/-- `CanSend(now)` (rule R290). -/
def canSend (m : MacState) (now : BitVec 24) : Bool :=
  decide (0 < ownRem m now)

/-- `MAC_VALID` = 1, the precondition of every MAC command but `MAC_INIT` (rule R297). -/
def requireMac (s : State) : Except CmdError Unit :=
  require s.mac.valid .macConfig

/-- The MAC state `MAC_INIT` creates (rule R296), for a cycle that is not 0. -/
def macInitState (s : State) : MacState :=
  let own := lowHalf s.arg.r1
  let peer := highHalf s.arg.r1
  let gap := lowHalf s.arg.r2
  let tail := highHalf s.arg.r2
  let c := own.toNat + gap.toNat + peer.toNat + tail.toNat
  { valid := true, epoch := BitVec.ofNat 24 ((tickOf s.arg.r0).toNat % c)
    own, peer, gap, tail, last := 0, lastValid := false }

/-- `MAC_INIT` (rule R296). -/
def ruleMacInit : Rule := fun s => do
  let m := macInitState s
  require (decide (m.cycle ≠ 0)) .macConfig
  .ok ((s.setMac m).setRes { r0 := countWord m.cycle })

/-- `MAC_INIT` (rule R296). -/
def execMacInit (s : State) : Host.Outcome State Fault Refusal :=
  settle ruleMacInit s

/-- `MAC_OWN_REM` (rule R298). -/
def ruleMacOwnRem : Rule := fun s => do
  requireMac s
  .ok (s.setRes { r0 := sext32 (ownRem s.mac (tickOf s.arg.r0)) })

/-- `MAC_OWN_REM` (rule R298). -/
def execMacOwnRem (s : State) : Host.Outcome State Fault Refusal :=
  settle ruleMacOwnRem s

/-- `MAC_PEER_REM` (rule R299). -/
def ruleMacPeerRem : Rule := fun s => do
  requireMac s
  .ok (s.setRes { r0 := sext32 (peerRem s.mac (tickOf s.arg.r0)) })

/-- `MAC_PEER_REM` (rule R299). -/
def execMacPeerRem (s : State) : Host.Outcome State Fault Refusal :=
  settle ruleMacPeerRem s

/-- `MAC_CAN_SEND` (rule R300). -/
def ruleMacCanSend : Rule := fun s => do
  requireMac s
  .ok (s.setRes { r0 := flagBit 0 (canSend s.mac (tickOf s.arg.r0)) })

/-- `MAC_CAN_SEND` (rule R300). -/
def execMacCanSend (s : State) : Host.Outcome State Fault Refusal :=
  settle ruleMacCanSend s

/-- The MAC state after `MAC_UPDATE` (rule R303): adopt the window w, then the epoch under the new cycle. -/
def macUpdateState (s : State) : MacState :=
  let now := tickOf s.arg.r0
  let w := lowHalf s.arg.r1
  let r := highHalf s.arg.r1
  let c := s.mac.own.toNat + s.mac.gap.toNat + w.toNat + s.mac.tail.toNat
  { s.mac with
    peer := w, epoch := BitVec.ofNat 24 ((now.toNat + r.toNat + s.mac.tail.toNat) % c)
    last := now, lastValid := true }

/-- `MAC_UPDATE` (rule R303). -/
def ruleMacUpdate : Rule := fun s => do
  requireMac s
  let m := macUpdateState s
  require (decide (m.cycle ≠ 0)) .macConfig
  .ok ((s.setMac m).setRes { r0 := m.epoch.setWidth 32 })

/-- `MAC_UPDATE` (rule R303). -/
def execMacUpdate (s : State) : Host.Outcome State Fault Refusal :=
  settle ruleMacUpdate s

/-- The MAC state after `MAC_SET_OWN` (rule R305): the new own length, `EPOCH` reduced modulo the new cycle. -/
def macSetOwnState (s : State) : MacState :=
  let o := lowHalf s.arg.r1
  let c := o.toNat + s.mac.gap.toNat + s.mac.peer.toNat + s.mac.tail.toNat
  { s.mac with own := o, epoch := BitVec.ofNat 24 (s.mac.epoch.toNat % c) }

/-- `MAC_SET_OWN` (rule R305). -/
def ruleMacSetOwn : Rule := fun s => do
  requireMac s
  let m := macSetOwnState s
  require (decide (m.cycle ≠ 0)) .macConfig
  .ok ((s.setMac m).setRes { r0 := countWord m.cycle })

/-- `MAC_SET_OWN` (rule R305). -/
def execMacSetOwn (s : State) : Host.Outcome State Fault Refusal :=
  settle ruleMacSetOwn s

end Sys2Proof.Machine
end

