-- ==== Sys2Proof/Machine/Dispatch.lean ====
section
/-! DEFINITION. The meaning of each command (46_control.md rule R330: "run the command's rule"), one arm per
row of spec/opcode_table.json. -/

namespace Sys2Proof.Machine

-- One arm per constructor of Instr, in the table's order.
def exec (i : Instr) (s : State) : Host.Outcome State Fault Refusal :=
  match i with
  | .nop => Sys2Proof.Machine.execNop s
  | .frameBuild auth outerFec => Sys2Proof.Machine.execFrameBuild auth outerFec s
  | .frameParse decodeExt verify => Sys2Proof.Machine.execFrameParse decodeExt verify s
  | .extEncArqSequence => Sys2Proof.Machine.execExtEncArqSequence s
  | .extEncArqRequest => Sys2Proof.Machine.execExtEncArqRequest s
  | .extEncArqControl => Sys2Proof.Machine.execExtEncArqControl s
  | .extEncArqHandshake => Sys2Proof.Machine.execExtEncArqHandshake s
  | .extEncTddControl => Sys2Proof.Machine.execExtEncTddControl s
  | .extEncHmacSequenceReset => Sys2Proof.Machine.execExtEncHmacSequenceReset s
  | .extEncRaw type => Sys2Proof.Machine.execExtEncRaw type s
  | .extDec => Sys2Proof.Machine.execExtDec s
  | .extDecAll => Sys2Proof.Machine.execExtDecAll s
  | .golayEnc => Sys2Proof.Machine.execGolayEnc s
  | .golayDec => Sys2Proof.Machine.execGolayDec s
  | .golayEncBytes => Sys2Proof.Machine.execGolayEncBytes s
  | .golayDecBytes => Sys2Proof.Machine.execGolayDecBytes s
  | .prefixEnc => Sys2Proof.Machine.execPrefixEnc s
  | .prefixDec => Sys2Proof.Machine.execPrefixDec s
  | .keyLoad => Sys2Proof.Machine.execKeyLoad s
  | .keyClear => Sys2Proof.Machine.execKeyClear s
  | .authAppend => Sys2Proof.Machine.execAuthAppend s
  | .authVerify => Sys2Proof.Machine.execAuthVerify s
  | .macInit => Sys2Proof.Machine.execMacInit s
  | .macOwnRem => Sys2Proof.Machine.execMacOwnRem s
  | .macPeerRem => Sys2Proof.Machine.execMacPeerRem s
  | .macCanSend => Sys2Proof.Machine.execMacCanSend s
  | .macUpdate => Sys2Proof.Machine.execMacUpdate s
  | .macSetOwn => Sys2Proof.Machine.execMacSetOwn s

end Sys2Proof.Machine
end

