-- ==== Sys2Proof/Decode.lean ====
section
/-! DEFINITION. The command decoder of 30_encoding.md rules R110..R112, total on every 32-bit word, and the
encoder. An illegal word is rejected by name, with the detail rule R112 gives it. -/

namespace Sys2Proof

open Machine (CmdError)

/-- A command with no `MOD` bits: any set bit is reserved (rules R111, R112(3)). -/
def decodePlain (mod : BitVec 8) (i : Instr) : Except CmdError Instr :=
  if mod = 0#8 then .ok i else .error .reservedBits

/-- `EXT_ENC`: `TYPE` = `MOD[3:0]`, `MOD[7:4]` reserved, types 6..15 illegal (rules R111, R112(3), R112(4)). -/
def decodeExtEnc (mod : BitVec 8) : Except CmdError Instr :=
  if mod.extractLsb' 4 4 ≠ 0#4 then .error .reservedBits
  else match (mod.extractLsb' 0 4).toNat with
    | 0 => .ok .extEncArqSequence
    | 1 => .ok .extEncArqRequest
    | 2 => .ok .extEncArqControl
    | 3 => .ok .extEncArqHandshake
    | 4 => .ok .extEncTddControl
    | 5 => .ok .extEncHmacSequenceReset
    | _ => .error .extTypeIllegal

/-- Command decode (rule R112), in the order of its four checks. -/
def decode (w : Word) : Except CmdError Instr :=
  let opcode : BitVec 8 := w.extractLsb' 0 8
  let mod : BitVec 8 := w.extractLsb' 8 8
  if w.extractLsb' 16 16 ≠ 0#16 then .error .reservedBits
  else match opcode.toNat with
    | 0x00 => decodePlain mod .nop
    | 0x01 =>
      if mod.extractLsb' 2 6 ≠ 0#6 then .error .reservedBits
      else .ok (.frameBuild (mod.getLsbD 0) (mod.getLsbD 1))
    | 0x02 =>
      if mod.extractLsb' 2 6 ≠ 0#6 then .error .reservedBits
      else .ok (.frameParse (mod.getLsbD 0) (mod.getLsbD 1))
    | 0x10 => decodeExtEnc mod
    | 0x11 =>
      if mod.extractLsb' 4 4 ≠ 0#4 then .error .reservedBits
      else .ok (.extEncRaw (mod.extractLsb' 0 4))
    | 0x12 => decodePlain mod .extDec
    | 0x13 => decodePlain mod .extDecAll
    | 0x20 => decodePlain mod .golayEnc
    | 0x21 => decodePlain mod .golayDec
    | 0x22 => decodePlain mod .golayEncBytes
    | 0x23 => decodePlain mod .golayDecBytes
    | 0x24 => decodePlain mod .prefixEnc
    | 0x25 => decodePlain mod .prefixDec
    | 0x30 => decodePlain mod .keyLoad
    | 0x31 => decodePlain mod .keyClear
    | 0x32 => decodePlain mod .authAppend
    | 0x33 => decodePlain mod .authVerify
    | 0x40 => decodePlain mod .macInit
    | 0x41 => decodePlain mod .macOwnRem
    | 0x42 => decodePlain mod .macPeerRem
    | 0x43 => decodePlain mod .macCanSend
    | 0x44 => decodePlain mod .macUpdate
    | 0x45 => decodePlain mod .macSetOwn
    | _ => .error .opcodeUnassigned

/-- The word with the given `MOD` and `OPCODE` (rule R127: `w = (mod << 8) | opcode`). -/
def commandWord (mod opcode : BitVec 8) : Word :=
  0#16 ++ mod ++ opcode

/-- Two flags as `MOD[1:0]`. -/
def modFlags (bit0 bit1 : Bool) : BitVec 8 :=
  0#6 ++ BitVec.ofBool bit1 ++ BitVec.ofBool bit0

/-- The encoder: the command word of each command (rule R111). -/
def encode : Instr → Word
  | .nop => commandWord 0x00 0x00
  | .frameBuild auth outerFec => commandWord (modFlags auth outerFec) 0x01
  | .frameParse decodeExt verify => commandWord (modFlags decodeExt verify) 0x02
  | .extEncArqSequence => commandWord 0x00 0x10
  | .extEncArqRequest => commandWord 0x01 0x10
  | .extEncArqControl => commandWord 0x02 0x10
  | .extEncArqHandshake => commandWord 0x03 0x10
  | .extEncTddControl => commandWord 0x04 0x10
  | .extEncHmacSequenceReset => commandWord 0x05 0x10
  | .extEncRaw type => commandWord (0#4 ++ type) 0x11
  | .extDec => commandWord 0x00 0x12
  | .extDecAll => commandWord 0x00 0x13
  | .golayEnc => commandWord 0x00 0x20
  | .golayDec => commandWord 0x00 0x21
  | .golayEncBytes => commandWord 0x00 0x22
  | .golayDecBytes => commandWord 0x00 0x23
  | .prefixEnc => commandWord 0x00 0x24
  | .prefixDec => commandWord 0x00 0x25
  | .keyLoad => commandWord 0x00 0x30
  | .keyClear => commandWord 0x00 0x31
  | .authAppend => commandWord 0x00 0x32
  | .authVerify => commandWord 0x00 0x33
  | .macInit => commandWord 0x00 0x40
  | .macOwnRem => commandWord 0x00 0x41
  | .macPeerRem => commandWord 0x00 0x42
  | .macCanSend => commandWord 0x00 0x43
  | .macUpdate => commandWord 0x00 0x44
  | .macSetOwn => commandWord 0x00 0x45

/-- The word a numbered bit string stands for: bits at and above `nbits` are 0. A command word is one 32-bit
unit, written to `CMD` whole, so there is no byte order to apply (rules R40, R110). -/
def tableWord (nbits w : Nat) : Word :=
  BitVec.ofNat 32 (w % 2 ^ nbits)

/-- The command the decoder reads from the table's bits, `none` where it refuses the word. -/
def decodeTableWord (nbits w : Nat) : Option Instr :=
  match decode (tableWord nbits w) with
  | .ok i => some i
  | .error _ => none

end Sys2Proof
end

