-- ==== Sys2Proof/Machine/Timing.lean ====
section
/-! DEFINITION. How long a command takes: `CMD_LATENCY` (70_reset_and_hazards.md rules R383..R385) and what it
may depend on for the commands that compute a digest (rules R264, R384). -/

namespace Sys2Proof.Machine

open Config (TimingClass)

/-- The error of a check, if it fails. -/
def errorOf {α : Type} : Except CmdError α → Option CmdError
  | .ok _ => none
  | .error e => some e

/-- What the latency of the command word `w` may depend on, issued in state `s`. For the four digest commands:
the word, the region lengths and the outcome of the checks before the digest (rule R384). For every other
word: the word and its operands (rule R383). -/
def timingClass (w : Word) (s : State) : TimingClass :=
  match decode w with
  | .ok (.frameBuild true outerFec) =>
    .digest w [(regionOf s.arg.r0).n, (regionOf s.arg.r1).n, (regionOf s.arg.r2).n]
      (errorOf (frameBuildChecks true outerFec s))
  | .ok (.frameParse _ true) =>
    .digest w [(regionOf s.arg.r0).n] (errorOf (frameHeader true s))
  | .ok .authAppend => .digest w [(regionOf s.arg.r0).n] (errorOf (authAppendChecks s))
  | .ok .authVerify => .digest w [(regionOf s.arg.r0).n] (errorOf (authVerifyChecks s))
  | _ => .plain w s.arg.toList s.buf

/-- `CMD_LATENCY` in cycles (rules R7, R383). -/
def commandLatency (w : Word) (s : State) : Nat :=
  match s.env.latency with
  | .fixed cycles => cycles
  | .openParameter => Config.cmdLatency (timingClass w s)

end Sys2Proof.Machine
end

