-- ==== Sys2Proof/Machine/Bus.lean ====
section
/-! DEFINITION. The host port and the command engine's cycle: the address map (10_state.md rule R35, 20_memory.md
rule R81), host reads and writes (rules R85..R88, R39..R48), the `BUSY` hazard (70_reset_and_hazards.md rules
R378, R379), command issue and completion (46_control.md rule R330), and reset (rules R370..R373). -/

namespace Sys2Proof.Machine

/-! ### The address map -/

/-- The control/status registers of rule R35. -/
inductive Csr where
  | id
  | caps
  | status
  | sticky
  | cmd
  | arg (i : Fin 8)
  | res (i : Fin 8)
  | extCount
  | macEpoch
  | macLen
  | macGt
  | macCycle
  | macLast
  deriving DecidableEq, Repr

/-- What an accepted host access reaches: a CSR, word `k` of `EXT_TAB[i]`, or `BUF` from an offset on. -/
inductive Target where
  | csr (c : Csr)
  | extTab (i k : Nat)
  | buf (off : Nat)
  deriving DecidableEq, Repr

/-- The register at a CSR address, `none` where the address is unassigned (rule R35). -/
def csrAt (a : Nat) : Option Csr :=
  match a with
  | 0x000 => some .id
  | 0x004 => some .caps
  | 0x008 => some .status
  | 0x00C => some .sticky
  | 0x010 => some .cmd
  | 0x060 => some .extCount
  | 0x070 => some .macEpoch
  | 0x074 => some .macLen
  | 0x078 => some .macGt
  | 0x07C => some .macCycle
  | 0x080 => some .macLast
  | _ =>
    if 0x020 ≤ a ∧ a < 0x040 ∧ a % 4 = 0 then some (.arg (Fin.ofNat 8 ((a - 0x020) / 4)))
    else if 0x040 ≤ a ∧ a < 0x060 ∧ a % 4 = 0 then some (.res (Fin.ofNat 8 ((a - 0x040) / 4)))
    else none

/-- The bytes an access covers (rule R85). -/
def widthBytes : Width → Nat
  | .w8 => 1
  | .w16 => 2
  | .w32 => 4

/-- What a host access reaches, `none` where it is refused for its address, width or alignment
(rules R81, R85, R86). -/
def accessTarget (b : Build) (width : Width) (addr : BitVec 17) : Option Target :=
  let a := addr.toNat
  if a < 0x1000 then
    if width = .w32 ∧ a % 4 = 0 then (csrAt a).map .csr else none
  else if a < 0x1BF4 then
    if width = .w32 ∧ a % 4 = 0 then some (.extTab ((a - 0x1000) / 12) ((a - 0x1000) % 12 / 4)) else none
  else if 0x10000 ≤ a ∧ a % widthBytes width = 0 ∧ a - 0x10000 + widthBytes width ≤ b.bufBytes then
    some (.buf (a - 0x10000))
  else none

/-! ### Reads -/

/-- The value of a CSR (rules R36..R48). A read of `STICKY` shows only the bits that exist (rule R55). -/
def csrValue (s : State) : Csr → Word
  | .id => idWord s.env.build
  | .caps => capsWord s.env.build
  | .status => statusWord s
  | .sticky => s.sticky &&& stickyMask
  | .cmd => s.cmdReg
  | .arg i => s.arg.get i
  | .res i => s.res.get i
  | .extCount => extCountWord s
  | .macEpoch => macEpochWord s.mac
  | .macLen => macLenWord s.mac
  | .macGt => macGtWord s.mac
  | .macCycle => macCycleWord s.mac
  | .macLast => macLastWord s.mac

/-- Word `k` of `EXT_TAB[i]`; an entry that is not filled is all zero (rules R51, R116). -/
def extTabWord (s : State) (i k : Nat) : Word :=
  let e := s.extTab.getD i { w0 := 0, w1 := 0, w2 := 0 }
  match k with
  | 0 => e.w0
  | 1 => e.w1
  | _ => e.w2

/-- What an accepted read returns while no command is in flight (rules R35, R51, R87). A narrow read is
zero-extended (log 10). -/
def targetValue (s : State) (width : Width) : Target → Word
  | .csr c => csrValue s c
  | .extTab i k => extTabWord s i k
  | .buf off => wordOfBytes (memRead s off (widthBytes width))

/-- The state a command may write, whose reads while `BUSY` = 1 are unspecified (rules R378, R379). -/
def commandWritten : Target → Bool
  | .csr .id | .csr .caps | .csr .sticky | .csr .cmd | .csr (.arg _) => false
  | .csr .status | .csr (.res _) | .csr .extCount | .csr .macEpoch | .csr .macLen | .csr .macGt
  | .csr .macCycle | .csr .macLast => true
  | .extTab _ _ => true
  | .buf _ => true

/-- The bits of a word of command-written state that are not "reads 0" (rules R38, R43..R48, R55), and the
bytes a narrow `BUF` read returns (rule R85). -/
def implementedBits (width : Width) : Target → Word
  | .csr .status => 0x0006FF0F
  | .csr .extCount => 0x000001FF
  | .csr .macEpoch => 0x00FFFFFF
  | .csr .macCycle => 0x0003FFFF
  | .csr .macLast => 0x80FFFFFF
  | .csr _ => 0xFFFFFFFF
  | .extTab _ _ => 0xFFFFFFFF
  | .buf _ =>
    match width with
    | .w8 => 0x000000FF
    | .w16 => 0x0000FFFF
    | .w32 => 0xFFFFFFFF

/-- `STATUS.BUSY` is the one defined bit of such a read (rules R53, R378). -/
def busyBits : Target → Word
  | .csr .status => 0x00010000
  | _ => 0

/-- What a read of command-written state returns while `BUSY` = 1: a free value in the bits that exist, 0 in
the reserved ones, and `BUSY` itself (rule R379, log 7). -/
def busyValue (s : State) (width : Width) (t : Target) : Word :=
  (Config.busyRead s.env.draws &&& implementedBits width t) ||| busyBits t

/-- An access the block takes: the bus signals no error. -/
def accepted (s : State) : State :=
  s.setEnv { s.env with errResponse := false }

/-- A refused access (rule R86): `STICKY.BUS_ERR`, the bus's own response if the build has one, and nothing
else. -/
def refuseAccess (s : State) : State :=
  (s.setSticky (s.sticky ||| busErrBit)).setEnv { s.env with errResponse := s.env.build.busErrResponse }

/-- A read's answer on the host port. -/
def deliver (s : State) (v : Word) : State :=
  s.setEnv { s.env with readData := v }

/-- One host read (rules R85..R88, R379): no side effect on the block but `BUS_ERR` where it is refused. -/
def hostRead (width : Width) (addr : BitVec 17) (s : State) : State :=
  match accessTarget s.env.build width addr with
  | none => deliver (refuseAccess s) 0
  | some t =>
    if s.busy && commandWritten t then
      s.setEnv { s.env with
        errResponse := false, readData := busyValue s width t, draws := s.env.draws + 1 }
    else deliver (accepted s) (targetValue s width t)

/-! ### Writes -/

/-- A `CMD`, `ARGi` or `BUF` write while `BUSY` = 1: dropped, with `STICKY.HAZARD` (rules R40, R41, R378); a write
that is refused anyway is not one of these (log 8). DESIGN CHOICE, log 19: the spec does not say whether the bus
signals an error response to a dropped write; in the model it signals none. -/
def hazard (s : State) : State :=
  s.setSticky (s.sticky ||| hazardBit)

/-- One host write, but for a `CMD` write that is accepted (rules R39..R41, R84..R88). A `CMD`, `ARGi` or `BUF`
write dropped with `HAZARD` gets no error response of the bus: the spec ties `BUS_ERR_RESPONSE` to refused accesses
(rule R86) and is silent on dropped ones (rules R333, R378). DESIGN CHOICE, log 19. -/
def hostWrite (width : Width) (addr : BitVec 17) (data : Word) (s : State) : State :=
  match accessTarget s.env.build width addr with
  | some (.csr (.arg i)) =>
    if s.busy then hazard (accepted s) else (accepted s).setArg (s.arg.set i data)
  | some (.buf off) =>
    if s.busy then hazard (accepted s) else memWrite (accepted s) off (bytesOfWord (widthBytes width) data)
  | some (.csr .sticky) => (accepted s).setSticky (stickyAfterWrite s.sticky data)
  | some (.csr .cmd) => hazard (accepted s)
  | some (.csr .id) | some (.csr .caps) | some (.csr .status) | some (.csr (.res _))
  | some (.csr .extCount) | some (.csr .macEpoch) | some (.csr .macLen) | some (.csr .macGt)
  | some (.csr .macCycle) | some (.csr .macLast) | some (.extTab _ _) | none => refuseAccess s

/-! ### Commands -/

/-- Decode and run a command word (rules R112, R330): an illegal word aborts with its own error. -/
def runCommand (w : Word) (s : State) : Host.Outcome State Fault Refusal :=
  match decode w with
  | .ok i => exec i s
  | .error e => .next (abort s e)

/-- An accepted `CMD` write (rules R40, R330): the word goes to `CMDREG`; the command runs at once, or keeps the
block busy for its latency first (rules R53, R383). -/
def issue (w : Word) (s : State) : Host.Outcome State Fault Refusal :=
  match commandLatency w (s.setCmdReg w) with
  | 0 => runCommand w (s.setCmdReg w)
  | n + 1 => .next (((s.setCmdReg w).setBusy true).setEnv { s.env with cyclesLeft := n + 1 })

/-- The end of a cycle (rules R53, R330, R332): with a command in flight its latency runs down, and at its end
the command's effects land together and `BUSY` clears. -/
def endCycle (s : State) : Host.Outcome State Fault Refusal :=
  if s.busy then
    if s.env.cyclesLeft ≤ 1 then
      runCommand s.cmdReg ((s.setBusy false).setEnv { s.env with cyclesLeft := 0 })
    else .next (s.setEnv { s.env with cyclesLeft := s.env.cyclesLeft - 1 })
  else .next s

/-! ### Reset and the cycle -/

/-- Reset (rules R370..R373): every component takes its reset value and a command in flight is abandoned. The
build, the latency and what the outside world still has to do stay (log 11); `BUF` is unspecified anew. -/
def resetPulse (s : State) : State :=
  State.reset.setEnv { s.env with
    cyclesLeft := 0, readData := 0, errResponse := false, resets := s.env.resets + 1 }

/-- The address of `STATUS` (rule R35). -/
def statusAddr : BitVec 17 := 0x00008

/-- The address of `CMD` (rule R35). -/
def cmdAddr : BitVec 17 := 0x00010

/-- The write is an accepted `CMD` write (rule R40). -/
def issuesCommand (width : Width) (addr : BitVec 17) (s : State) : Bool :=
  !s.busy && decide (accessTarget s.env.build width addr = some (.csr .cmd))

/-- The state with one event of the outside world taken off the front. -/
def takeEvent (s : State) (rest : List HostEvent) : State :=
  s.setEnv { s.env with bus := rest }

/-- One cycle of the block: at most one event of the outside world, then the end of the cycle (rules R17, R90,
log 5, log 6). A `poll` stays until it has read `BUSY` = 0 (rule R126). -/
def cycle (s : State) : Host.Outcome State Fault Refusal :=
  match s.env.bus with
  | [] => endCycle s
  | .idle :: rest => endCycle (takeEvent s rest)
  | .reset :: rest => .next (resetPulse (takeEvent s rest))
  | .poll :: rest =>
    endCycle (hostRead .w32 statusAddr (if s.busy then s else takeEvent s rest))
  | .access (.read width addr) :: rest => endCycle (hostRead width addr (takeEvent s rest))
  | .access (.write width addr data) :: rest =>
    if issuesCommand width addr s then issue data (accepted (takeEvent s rest))
    else endCycle (hostWrite width addr data (takeEvent s rest))

/-- The state whose next cycle issues the command word `w` and runs it in that cycle: a `CMD` write in front of
whatever the outside world still has to do, no command in flight, latency 0 (log 5). -/
def withCommand (s : State) (w : Word) : State :=
  (s.setBusy false).setEnv { s.env with
    bus := .access (.write .w32 cmdAddr w) :: s.env.bus, cyclesLeft := 0, latency := .fixed 0 }

end Sys2Proof.Machine
end

