-- ==== Sys2Proof/Machine/Step.lean ====
section
/-! DEFINITION. The step: one cycle of the block (Machine/Bus.lean). -/

namespace Sys2Proof.Machine

/-- One step: one cycle of the block, with at most one event of the outside world (rules R17, R90). -/
def step (s : State) : Host.Outcome State Fault Refusal :=
  cycle s

/-- `s` with a `CMD` write of the numbered word as the next event, so that the very next step runs it. -/
def State.withFetchWord (s : State) (nbits w : Nat) : State :=
  withCommand s (tableWord nbits w)

end Sys2Proof.Machine
end

