-- ==== Sys2Proof/Machine/HostProgram.lean ====
section
/-! DEFINITION. The host-program notation of 30_encoding.md rules R126 and R127, as the events it stands for. -/

namespace Sys2Proof.Machine

/-- The address of `ARGk` (rule R35). -/
def argAddr (k : Fin 8) : BitVec 17 :=
  BitVec.ofNat 17 (0x020 + 4 * k.val)

/-- The host address of `BUF[i]` (rule R81). -/
def bufAddr (i : Nat) : BitVec 17 :=
  BitVec.ofNat 17 (0x10000 + i)

/-- `wr NAME, v`: a 32-bit write to a CSR (rule R126). -/
def wr (addr : BitVec 17) (v : Word) : HostEvent :=
  .access (.write .w32 addr v)

/-- `wrb BUF+i, b` (rule R126). -/
def wrb (i : Nat) (b : Byte) : HostEvent :=
  .access (.write .w8 (bufAddr i) (b.setWidth 32))

/-- `ww BUF+i, v` (rule R126). -/
def ww (i : Nat) (v : Word) : HostEvent :=
  .access (.write .w32 (bufAddr i) v)

/-- `wbytes BUF+i, bytes`: a run of 8-bit writes (rule R126). -/
def wbytes (i : Nat) : List Byte → List HostEvent
  | [] => []
  | b :: bs => wrb i b :: wbytes (i + 1) bs

/-- `rd NAME` (rule R126). -/
def rd (addr : BitVec 17) : HostEvent :=
  .access (.read .w32 addr)

/-- `rdb BUF+i` (rule R126). -/
def rdb (i : Nat) : HostEvent :=
  .access (.read .w8 (bufAddr i))

/-- `rw BUF+i` (rule R126). -/
def rw32 (i : Nat) : HostEvent :=
  .access (.read .w32 (bufAddr i))

/-- `MNEMONIC[.flag]* [ARGk=expr]*` (rule R127): the argument writes in the order written, the `CMD` write,
the poll. -/
def command (args : List (Fin 8 × Word)) (i : Instr) : List HostEvent :=
  args.map (fun p => wr (argAddr p.1) p.2) ++ [wr cmdAddr (encode i), .poll]

end Sys2Proof.Machine
end

