-- ==== Sys2Proof/Safety.lean ====
section
/-! DEFINITION. What a good state is: the facts 10_state.md states about every state a run reaches, as one
invariant, and what it means for a step to be safe. -/

namespace Sys2Proof.Machine

/-- (`CODE`, `DETAIL`) is 0.00 or a row of rule R343; no other pair is produced. -/
def outcomeListed (code : BitVec 4) (detail : BitVec 8) : Prop :=
  (code = 0 ∧ detail = 0) ∨ ∃ e : CmdError, code = e.code ∧ detail = e.detail

/-- The shape rule R116 gives every record word triple: bits [15:9] of `W0` are 0, bit 8 says whether the type
is known, and an unknown type has zero fields. -/
def extWordsShaped (e : ExtWords) : Prop :=
  e.w0.extractLsb' 9 7 = 0
    ∧ e.w0.getLsbD 8 = typeKnown (e.w0.extractLsb' 0 4)
    ∧ (typeKnown (e.w0.extractLsb' 0 4) = false → e.w1 = 0 ∧ e.w2 = 0)

/-- The MAC state invariant (rule R49): while `MAC_VALID` = 1 the cycle is at least 1 and `EPOCH` lies in it;
before any `MAC_INIT` the state is the reset state, and `LAST` is 0 until an update is recorded. -/
def macGood (m : MacState) : Prop :=
  (m.valid = true → 1 ≤ m.cycle ∧ m.epoch.toNat < m.cycle)
    ∧ (m.valid = false → m = MacState.reset)
    ∧ (m.lastValid = false → m.last = 0)

/-- The facts that hold in every state a run reaches. -/
structure State.Inv (s : State) : Prop where
  /-- The frame buffer is in its canonical form (log 4). -/
  buf_wf : s.buf.wf = true
  /-- Nothing was ever written outside `BUF` (rules R82, R85). -/
  buf_range : ∀ c ∈ s.buf, c.1 < s.env.build.bufBytes
  /-- `EXT_COUNT` counts the table's entries, at most 255 (rules R43, R51). -/
  ext_count : s.extTab.length ≤ Config.extTabEntries ∧ s.extCount = BitVec.ofNat 9 s.extTab.length
  /-- Every entry has rule R116's shape. -/
  ext_shape : ∀ e ∈ s.extTab, extWordsShaped e
  /-- Reserved bits of `STICKY` are 0 (rules R39, R55). -/
  sticky_reserved : s.sticky &&& ~~~stickyMask = 0
  /-- `CODE` and `DETAIL` are a pair of rule R343 (rules R38, R343). -/
  outcome_listed : outcomeListed s.code s.detail
  /-- After a failed command every `RES` register is 0 (rules R32, R345). -/
  failed_res : s.code ≠ 0 → s.res = {}
  /-- `RES7` is 0 (rule R115). -/
  res7_zero : s.res.r7 = 0
  /-- No key, no key bytes (rules R50, R267, R370). -/
  key_cleared : s.keyValid = false → s.key = Key.zero
  /-- Rule R49. -/
  mac_good : macGood s.mac
  /-- A command is in flight exactly while it has cycles left (rule R53). -/
  busy_cycles : s.busy = true ↔ 1 ≤ s.env.cyclesLeft

/-- A state from which the machine goes on: the step answers a next state. The spec gives the block no way to
stop (rules R340, R347, R350). -/
def goesOn (s : State) : Prop :=
  ∃ t, step s = .next t

/-! ### What a command did, in the terms statements use -/

/-- The command succeeded with these result registers (rules R32, R115, R344). -/
def completed (s t : State) (res : RegFile) : Prop :=
  t.code = 0 ∧ t.detail = 0 ∧ t.sticky = s.sticky ∧ t.res = res

/-- The command failed with this error (rule R345 (a), (b), (c)). -/
def failed (s t : State) (e : CmdError) : Prop :=
  t.code = e.code ∧ t.detail = e.detail ∧ t.sticky = s.sticky ||| stickyErrBit e ∧ t.res = {}

/-- What no command writes: the argument registers, `BUSY`, `CMDREG` and the model's own fields. -/
def keptPorts (s t : State) : Prop :=
  t.arg = s.arg ∧ t.busy = s.busy ∧ t.cmdReg = s.cmdReg ∧ t.env = s.env

/-- The key store is unchanged. -/
def keptKey (s t : State) : Prop :=
  t.key = s.key ∧ t.keyValid = s.keyValid

/-- The extension table is unchanged. -/
def keptTable (s t : State) : Prop :=
  t.extTab = s.extTab ∧ t.extCount = s.extCount

/-- The MAC state is unchanged. -/
def keptMac (s t : State) : Prop :=
  t.mac = s.mac

/-- Every byte of `BUF` reads as before. -/
def keptBuf (s t : State) : Prop :=
  ∀ a, bufByte t a = bufByte s a

/-- The stored bytes, at the offset they were stored to, and every other byte of `BUF` as before. -/
def storedAt (s t : State) (dst : Nat) (bytes : List Byte) : Prop :=
  memRead t dst bytes.length = bytes
    ∧ ∀ a, a < dst ∨ dst + bytes.length ≤ a → bufByte t a = bufByte s a

/-- Running the command reports this error. -/
def raises (i : Instr) (s : State) (e : CmdError) : Prop :=
  ∃ t, exec i s = .next t ∧ failed s t e

/-- Of a list of conditions, each with the error it reports, the first that holds (rules R340, R346). -/
def firstFailure : List (Bool × CmdError) → Option CmdError
  | [] => none
  | (c, e) :: rest => if c then some e else firstFailure rest

/-! ### The failing checks of each command, in the order its rule checks them (rule R346) -/

/-- `GOLAY_DEC` (rule R231). -/
def golayDecFailures (s : State) : List (Bool × CmdError) :=
  [((golayErrorPattern s.env.build.golayB (s.arg.r0.extractLsb' 0 24)).isNone, .uncorrectable)]

/-- `GOLAY_ENC_BYTES` (rule R232). -/
def golayEncBytesFailures (s : State) : List (Bool × CmdError) :=
  [(decide (s.env.build.bufBytes < (s.arg.r1.extractLsb' 0 16).toNat + 3), .destinationRange)]

/-- The word of the triple at an offset of `BUF` (rule R227). -/
def tripleAt (s : State) (src : Nat) : BitVec 24 :=
  bufByte s src ++ bufByte s (src + 1) ++ bufByte s (src + 2)

/-- `GOLAY_DEC_BYTES` (rule R233). -/
def golayDecBytesFailures (s : State) : List (Bool × CmdError) :=
  let src := (s.arg.r0.extractLsb' 0 16).toNat
  [(decide (s.env.build.bufBytes < src + 3), .sourceRange),
   ((golayErrorPattern s.env.build.golayB (tripleAt s src)).isNone, .uncorrectable)]

/-- `PREFIX_ENC` (rule R235). -/
def prefixEncFailures (s : State) : List (Bool × CmdError) :=
  [(decide (s.env.build.bufBytes < (s.arg.r1.extractLsb' 0 16).toNat + 3), .destinationRange),
   (s.arg.r0.getLsbD 11, .viterbiRequested), (!s.arg.r0.getLsbD 8, .prefixWithoutFec)]

/-- `PREFIX_DEC` (rule R236): the Viterbi bit of the corrected word. -/
def prefixDecFailures (s : State) : List (Bool × CmdError) :=
  let src := (s.arg.r0.extractLsb' 0 16).toNat
  let r := tripleAt s src
  [(decide (s.env.build.bufBytes < src + 3), .sourceRange),
   ((golayErrorPattern s.env.build.golayB r).isNone, .uncorrectable),
   ((golayErrorPattern s.env.build.golayB r).any fun p => (r ^^^ p.1).getLsbD 11, .viterbiDecoded)]

/-- The data length of a known record type (rule R120). -/
def knownDataLen (type : Nat) : Nat :=
  [1, 3, 2, 5, 4, 2].getD type 0

/-- A record with this header byte and this many bytes after it (rule R191). -/
def recordFailures (h : Byte) (after : Nat) : List (Bool × CmdError) :=
  let len := (h.extractLsb' 4 4).toNat
  let type := (h.extractLsb' 0 4).toNat
  [(decide (after < len), .recordTruncated), (decide (type ≤ 5) && len != knownDataLen type, .recordLengthWrong)]

/-- `EXT_ENC_RAW` (rule R190). -/
def extEncRawFailures (s : State) : List (Bool × CmdError) :=
  let so := (s.arg.r3.extractLsb' 0 16).toNat
  let sl := (s.arg.r3.extractLsb' 16 16).toNat
  let size := s.env.build.bufBytes
  [(decide (size < so + sl), .sourceRange), (decide (15 < sl), .rawDataTooLong),
   (decide (size < (s.arg.r2.extractLsb' 0 16).toNat + 1 + sl), .destinationRange)]

/-- `EXT_DEC` (rules R191, R193). -/
def extDecFailures (s : State) : List (Bool × CmdError) :=
  let bo := (s.arg.r0.extractLsb' 0 16).toNat
  let bn := (s.arg.r0.extractLsb' 16 16).toNat
  [(decide (s.env.build.bufBytes < bo + bn), .sourceRange), (decide (bn < 1), .recordTruncated)]
    ++ recordFailures (bufByte s bo) (bn - 1)

/-- `EXT_DEC_ALL` before the first record (rule R195). -/
def extDecAllFailures (s : State) : List (Bool × CmdError) :=
  let bn := (s.arg.r0.extractLsb' 16 16).toNat
  [(decide (s.env.build.bufBytes < (s.arg.r0.extractLsb' 0 16).toNat + bn), .sourceRange),
   (decide (255 < bn), .blobTooLong)]

/-- `FRAME_BUILD` (rule R145). -/
def frameBuildFailures (auth outerFec : Bool) (s : State) : List (Bool × CmdError) :=
  let io := (s.arg.r0.extractLsb' 0 16).toNat
  let il := (s.arg.r0.extractLsb' 16 16).toNat
  let po := (s.arg.r1.extractLsb' 0 16).toNat
  let pl := (s.arg.r1.extractLsb' 16 16).toNat
  let eo := (s.arg.r2.extractLsb' 0 16).toNat
  let el := (s.arg.r2.extractLsb' 16 16).toNat
  let dst := (s.arg.r4.extractLsb' 0 16).toNat
  let size := s.env.build.bufBytes
  let total := 5 + il + el + pl + (if auth then s.env.build.T else 0)
  [(decide (size < io + il), .sourceRange), (decide (size < po + pl), .sourceRange),
   (decide (size < eo + el), .sourceRange), (auth && !s.keyValid, .keyMissing),
   (decide (il = 0), .identEmpty), (decide (7 < il), .identTooLong),
   (decide (255 < el), .extensionsTooLong), (s.arg.r3.getLsbD 18, .vcOutOfRange),
   (outerFec && decide (255 < total), .overFecBudget), (decide (size < dst + total), .destinationRange)]

/-- `FRAME_PARSE` up to and with the trailer (rules R150, R151(a)). -/
def frameParseFailures (verify : Bool) (s : State) : List (Bool × CmdError) :=
  let fo := (s.arg.r0.extractLsb' 0 16).toNat
  let n := (s.arg.r0.extractLsb' 16 16).toNat
  let b : Nat → Byte := fun i => bufByte s (fo + i)
  let il := ((b 0).extractLsb' 0 3).toNat
  let f := b (1 + il)
  let el := (b (2 + il)).toNat
  let ta := if f.getLsbD 3 then s.env.build.T else 0
  [(decide (s.env.build.bufBytes < fo + n), .sourceRange), (verify && !s.keyValid, .keyMissing),
   (decide (n < 1), .frameTooShort), (decide ((b 0).extractLsb' 3 5 ≠ 12), .wrongVersion),
   (decide (il = 0), .identEmpty), (decide (n < 5 + il), .frameTooShort),
   (decide (n < 5 + il + el + ta), .frameTooShort),
   (f.getLsbD 5 != decide (5 + il + el + ta < n), .payloadFlagWrong),
   (f.getLsbD 3 && verify && decide (digest s.env.build s.key (memRead s fo (n - ta))
      ≠ memRead s (fo + n - ta) ta), .trailerMismatch)]

/-- `AUTH_APPEND` (rule R268). -/
def authAppendFailures (s : State) : List (Bool × CmdError) :=
  let off := (s.arg.r0.extractLsb' 0 16).toNat
  let n := (s.arg.r0.extractLsb' 16 16).toNat
  let size := s.env.build.bufBytes
  [(decide (size < off + n), .sourceRange), (!s.keyValid, .keyMissing),
   (decide (size < off + n + s.env.build.T), .destinationRange)]

/-- `AUTH_VERIFY` (rule R269). -/
def authVerifyFailures (s : State) : List (Bool × CmdError) :=
  let off := (s.arg.r0.extractLsb' 0 16).toNat
  let n := (s.arg.r0.extractLsb' 16 16).toNat
  let T := s.env.build.T
  [(decide (s.env.build.bufBytes < off + n), .sourceRange), (!s.keyValid, .keyMissing),
   (decide (n < T), .inputTooShort),
   (decide (digest s.env.build s.key (memRead s off (n - T)) ≠ memRead s (off + n - T) T), .trailerMismatch)]

/-! ### More terms of the statements -/

/-- The step of the decoder that finds an error pattern of weight at most 3 (rule R225). -/
def stepOfPattern (e : BitVec 24) : BitVec 8 :=
  if e.extractLsb' 0 12 = 0 then 2
  else if popcount (e.extractLsb' 0 12) = 1 then 3
  else if e.extractLsb' 12 12 = 0 then 5
  else 6

/-- A record some command can encode and a decoder can give back: an opaque record has an unknown type and at
most 15 data bytes (rules R120, R190, R192). -/
def ExtRecord.wireLegal : ExtRecord → Bool
  | .opaqueRecord t d => !typeKnown t && decide (d.length ≤ 15)
  | _ => true

/-- The bytes of a chain of records, packed back to back (rule R119). -/
def chainBytes (rs : List ExtRecord) : List Byte :=
  rs.flatMap ExtRecord.encode

/-- The words of a chain of records whose first header byte stands at `off` (rules R116, R194). -/
def chainWords : Nat → List ExtRecord → List ExtWords
  | _, [] => []
  | off, r :: rs => r.words off :: chainWords (off + 1 + r.data.length) rs

/-- The command computes with the key: the four digest commands (rules R264, R375). -/
def usesKey : Instr → Bool
  | .frameBuild auth _ => auth
  | .frameParse _ verify => verify
  | .authAppend | .authVerify => true
  | _ => false

/-- A whole, aligned access inside `BUF` (rules R81, R85). -/
abbrev insideBuf (b : Build) (width : Width) (a : Nat) : Prop :=
  0x10000 ≤ a ∧ a % widthBytes width = 0 ∧ a + widthBytes width ≤ 0x10000 + b.bufBytes

/-- The host may read there: an aligned 32-bit read of a register of rule R35 or of `EXT_TAB`, or an access
inside `BUF` (rules R35, R81, R85). -/
abbrev hostReadable (b : Build) (width : Width) (a : Nat) : Prop :=
  (width = .w32 ∧ a % 4 = 0
    ∧ (a ≤ 0x010 ∨ (0x020 ≤ a ∧ a ≤ 0x060) ∨ (0x070 ≤ a ∧ a ≤ 0x080) ∨ (0x1000 ≤ a ∧ a < 0x1BF4)))
  ∨ insideBuf b width a

/-- The host may write there: `STICKY`, `CMD`, an `ARGi`, or inside `BUF` (rules R35, R81, R85, R86). -/
abbrev hostWritable (b : Build) (width : Width) (a : Nat) : Prop :=
  (width = .w32 ∧ a % 4 = 0 ∧ (a = 0x00C ∨ a = 0x010 ∨ (0x020 ≤ a ∧ a < 0x040)))
  ∨ insideBuf b width a

end Sys2Proof.Machine
end

