-- ==== Sys2Proof/WellFormed.lean ====
section
/-! DEFINITION. Which command words are commands. Every operand of `Instr` has exactly its field's type, so
there is no ill-formed term of `Instr`; what can be ill formed is the 32-bit word a host writes to `CMD`.
This file says which words are well formed twice: by the four checks of rules R112 and R123, and by the
match/mask rows of spec/opcode_table.json. Neither uses the decoder; the two are compared with it under Laws/
and in the obligations. -/

namespace Sys2Proof

/-- A row of spec/opcode_table.json: a word belongs to it when its masked bits are the pattern. -/
structure OpcodeRow where
  mnemonic : String
  pattern : Word
  mask : Word
  deriving DecidableEq, Repr

/-- The 28 rows of spec/opcode_table.json, in the table's order. -/
def opcodeRows : List OpcodeRow := [
  ⟨"NOP", 0x00000000, 0xFFFFFFFF⟩,
  ⟨"FRAME_BUILD", 0x00000001, 0xFFFFFCFF⟩,
  ⟨"FRAME_PARSE", 0x00000002, 0xFFFFFCFF⟩,
  ⟨"EXT_ENC.ARQSequence", 0x00000010, 0xFFFFFFFF⟩,
  ⟨"EXT_ENC.ARQRequest", 0x00000110, 0xFFFFFFFF⟩,
  ⟨"EXT_ENC.ARQControl", 0x00000210, 0xFFFFFFFF⟩,
  ⟨"EXT_ENC.ARQHandshake", 0x00000310, 0xFFFFFFFF⟩,
  ⟨"EXT_ENC.TDDControl", 0x00000410, 0xFFFFFFFF⟩,
  ⟨"EXT_ENC.HMACSequenceReset", 0x00000510, 0xFFFFFFFF⟩,
  ⟨"EXT_ENC_RAW", 0x00000011, 0xFFFFF0FF⟩,
  ⟨"EXT_DEC", 0x00000012, 0xFFFFFFFF⟩,
  ⟨"EXT_DEC_ALL", 0x00000013, 0xFFFFFFFF⟩,
  ⟨"GOLAY_ENC", 0x00000020, 0xFFFFFFFF⟩,
  ⟨"GOLAY_DEC", 0x00000021, 0xFFFFFFFF⟩,
  ⟨"GOLAY_ENC_BYTES", 0x00000022, 0xFFFFFFFF⟩,
  ⟨"GOLAY_DEC_BYTES", 0x00000023, 0xFFFFFFFF⟩,
  ⟨"PREFIX_ENC", 0x00000024, 0xFFFFFFFF⟩,
  ⟨"PREFIX_DEC", 0x00000025, 0xFFFFFFFF⟩,
  ⟨"KEY_LOAD", 0x00000030, 0xFFFFFFFF⟩,
  ⟨"KEY_CLEAR", 0x00000031, 0xFFFFFFFF⟩,
  ⟨"AUTH_APPEND", 0x00000032, 0xFFFFFFFF⟩,
  ⟨"AUTH_VERIFY", 0x00000033, 0xFFFFFFFF⟩,
  ⟨"MAC_INIT", 0x00000040, 0xFFFFFFFF⟩,
  ⟨"MAC_OWN_REM", 0x00000041, 0xFFFFFFFF⟩,
  ⟨"MAC_PEER_REM", 0x00000042, 0xFFFFFFFF⟩,
  ⟨"MAC_CAN_SEND", 0x00000043, 0xFFFFFFFF⟩,
  ⟨"MAC_UPDATE", 0x00000044, 0xFFFFFFFF⟩,
  ⟨"MAC_SET_OWN", 0x00000045, 0xFFFFFFFF⟩]

/-- A word belongs to a row. -/
def OpcodeRow.holds (r : OpcodeRow) (w : Word) : Bool :=
  w &&& r.mask == r.pattern

/-- A word of spec/opcode_table.json: some row holds it. -/
def wordInTable (w : Word) : Bool :=
  opcodeRows.any fun r => r.holds w

/-- `OPCODE`, bits [7:0] of a command word (rule R110). -/
def opcodeField (w : Word) : BitVec 8 :=
  w.extractLsb' 0 8

/-- `MOD`, bits [15:8] of a command word (rule R110). -/
def modField (w : Word) : BitVec 8 :=
  w.extractLsb' 8 8

/-- The opcodes rule R111 assigns, each with the mask of the `MOD` bits it lists. -/
def assignedOpcodes : List (BitVec 8 × BitVec 8) := [
  (0x00, 0x00), (0x01, 0x03), (0x02, 0x03),
  (0x10, 0x0F), (0x11, 0x0F), (0x12, 0x00), (0x13, 0x00),
  (0x20, 0x00), (0x21, 0x00), (0x22, 0x00), (0x23, 0x00), (0x24, 0x00), (0x25, 0x00),
  (0x30, 0x00), (0x31, 0x00), (0x32, 0x00), (0x33, 0x00),
  (0x40, 0x00), (0x41, 0x00), (0x42, 0x00), (0x43, 0x00), (0x44, 0x00), (0x45, 0x00)]

/-- Check (1) of rule R112: bits [31:16] are 0. -/
def highHalfZero (w : Word) : Bool :=
  w.extractLsb' 16 16 == 0#16

/-- Check (2) of rule R112: the opcode is assigned. -/
def opcodeAssigned (w : Word) : Bool :=
  assignedOpcodes.any fun p => p.1 == opcodeField w

/-- Check (3) of rule R112: no `MOD` bit is set that the word's opcode does not list. -/
def modBitsListed (w : Word) : Bool :=
  assignedOpcodes.all fun p => p.1 != opcodeField w || modField w &&& ~~~p.2 == 0#8

/-- Check (4) of rule R112: an `EXT_ENC` has `TYPE` below 6. -/
def extTypeKnown (w : Word) : Bool :=
  opcodeField w != 0x10#8 || (modField w).extractLsb' 0 4 < 6#4

/-- A well-formed command word: all four checks of rule R112 pass. -/
def wellFormedWord (w : Word) : Bool :=
  highHalfZero w && opcodeAssigned w && modBitsListed w && extTypeKnown w

end Sys2Proof
end

