-- ==== Sys2Proof/Certificates/Slice0/Obligations.lean ====
section
/-! DEFINITION. The statements for the provers, from the numbered rules of spec/. -/

open Sys2Proof Sys2Proof.Machine

/-! ### Encodings -/

/-- Rules R110..R112: a word decodes to a command exactly when it is that command's word. -/
def Obligations.DecodeInvertsEncode : Prop :=
  ∀ (w : Word) (i : Instr), decode w = .ok i ↔ w = encode i

/-- Rule R112: the four checks, in order, each with the error it reports; only when all pass does the command's
own rule run, and a word that passes is a command. -/
def Obligations.DecodeChecksInOrder : Prop :=
  ∀ (w : Word) (s : State),
    if highHalfZero w = false then
      ∃ t, runCommand w s = .next t ∧ t.code = 7 ∧ t.detail = 0x02
    else if opcodeAssigned w = false then
      ∃ t, runCommand w s = .next t ∧ t.code = 7 ∧ t.detail = 0x01
    else if modBitsListed w = false then
      ∃ t, runCommand w s = .next t ∧ t.code = 7 ∧ t.detail = 0x02
    else if extTypeKnown w = false then
      ∃ t, runCommand w s = .next t ∧ t.code = 7 ∧ t.detail = 0x03
    else ∃ i, decode w = .ok i ∧ runCommand w s = exec i s

/-- Rules R111, R112: the decoder accepts exactly the words of spec/opcode_table.json, and the row of a command
accepts its own word. -/
def Obligations.DecoderAcceptsTheTable : Prop :=
  ∀ w : Word, (∃ i, decode w = .ok i) ↔ wordInTable w = true

/-- Rule R128: its example words decode to the commands it names, and its illegal examples are refused. -/
def Obligations.ExampleWordsDecode : Prop :=
  decode 0x00000000 = .ok .nop
  ∧ decode 0x00000101 = .ok (.frameBuild true false)
  ∧ decode 0x00000301 = .ok (.frameBuild true true)
  ∧ decode 0x00000002 = .ok (.frameParse false false)
  ∧ decode 0x00000102 = .ok (.frameParse true false)
  ∧ decode 0x00000302 = .ok (.frameParse true true)
  ∧ decode 0x00000010 = .ok .extEncArqSequence
  ∧ decode 0x00000410 = .ok .extEncTddControl
  ∧ decode 0x00000911 = .ok (.extEncRaw 9)
  ∧ decode 0x00000021 = .ok .golayDec
  ∧ decode 0x00000044 = .ok .macUpdate
  ∧ decode 0x00010020 = .error .reservedBits
  ∧ decode 0x00000003 = .error .opcodeUnassigned
  ∧ decode 0x00000121 = .error .reservedBits
  ∧ decode 0x00000610 = .error .extTypeIllegal
  ∧ decode 0x00000402 = .error .reservedBits

/-- Rule R123: a word with a high bit, an unassigned opcode, a reserved `MOD` bit or an `EXT_ENC` type of 6 or
more is an `IllegalCommand`, and changes only `STATUS`, `STICKY` and `RES`. -/
def Obligations.IllegalWordChangesOnlyOutcome : Prop :=
  ∀ (w : Word) (s : State),
    (w.extractLsb' 16 16 ≠ 0 ∨ opcodeAssigned w = false ∨ modBitsListed w = false
      ∨ (opcodeField w = 0x10 ∧ 6 ≤ (w.extractLsb' 8 4).toNat)) →
    ∃ t, runCommand w s = .next t ∧ t.code = 7
      ∧ t.sticky = s.sticky ||| 0x80 ∧ t.res = {}
      ∧ keptPorts s t ∧ keptKey s t ∧ keptTable s t ∧ keptMac s t ∧ t.buf = s.buf

/-! ### The step -/

/-- Rules R90, R330 (log 5, log 6): where the next host access is a `CMD` write of a command's word and the
command's latency is 0, the step is the command, with the word in `CMDREG` and the access taken. So it is at a
state made by `withFetchWord`. -/
def Obligations.StepRunsIssuedCommand : Prop :=
  (∀ (s : State) (w : Word) (i : Instr) (rest : List HostEvent),
    s.busy = false → s.env.bus = .access (.write .w32 0x00010 w) :: rest → commandLatency w s = 0 →
    decode w = .ok i → step s = exec i ((accepted (takeEvent s rest)).setCmdReg w))
  ∧ ∀ (s : State) (nbits n : Nat) (i : Instr), decode (tableWord nbits n) = .ok i →
    step (s.withFetchWord nbits n)
      = exec i ((accepted (takeEvent (s.withFetchWord nbits n) s.env.bus)).setCmdReg (tableWord nbits n))

/-- Rules R85, R90, R126, R330 (log 5, log 6): with no command in flight a step performs the next host access and
nothing else, and a cycle without one changes nothing. With a command in flight the access is performed (log 6:
before the completion), and then the latency runs down, and at its end the command runs. A `poll` that reads
`BUSY` = 1 stays the next event. -/
def Obligations.StepPerformsHostAccess : Prop :=
  ∀ (s : State) (rest : List HostEvent),
    let performs : State → Prop := fun u =>
      (s.busy = false → step s = .next u)
      ∧ (s.busy = true → 2 ≤ s.env.cyclesLeft →
        step s = .next { u with env := { u.env with cyclesLeft := s.env.cyclesLeft - 1 } })
      ∧ (s.busy = true → s.env.cyclesLeft ≤ 1 →
        step s = runCommand s.cmdReg { u with busy := false, env := { u.env with cyclesLeft := 0 } })
    (s.env.bus = [] → performs s)
    ∧ (s.env.bus = .idle :: rest → performs (takeEvent s rest))
    ∧ (s.env.bus = .poll :: rest →
      (s.busy = false → performs (hostRead .w32 0x00008 (takeEvent s rest)))
      ∧ (s.busy = true → performs (hostRead .w32 0x00008 s)
        ∧ (hostRead .w32 0x00008 s).env.bus = .poll :: rest
        ∧ (hostRead .w32 0x00008 s).env.readData.getLsbD 16 = true))
    ∧ (∀ width addr, s.env.bus = .access (.read width addr) :: rest →
        performs (hostRead width addr (takeEvent s rest)))
    ∧ ∀ width addr data, s.env.bus = .access (.write width addr data) :: rest →
        ¬ (s.busy = false ∧ width = .w32 ∧ addr = 0x00010) →
        performs (hostWrite width addr data (takeEvent s rest))

/-- Rules R53, R383: with `n` cycles of latency the command's result lands `n` steps after the step that issues
it, and is the result it has with latency 0. A step as a cycle is the model's choice (log 6). -/
def Obligations.LatencyDoesNotChangeTheResult : Prop :=
  ∀ (s : State) (w : Word) (n : Nat) (rest : List HostEvent),
    s.busy = false → s.env.cyclesLeft = 0 →
    s.env.bus = .access (.write .w32 0x00010 w) :: (List.replicate n .idle ++ rest) →
    commandLatency w s = n →
    Host.Core.run Sys2Proof.core (n + 1) s = runCommand w ((accepted (takeEvent s rest)).setCmdReg w)

/-- Rules R378, R93: whatever the host reads or writes while a command is in flight, the command runs on the
arguments, the `BUF`, the key, the table and the MAC state it was issued with. THE MODEL'S CHOICE (log 6): a step
is a cycle, and in the last one the host's access comes before the completion, so that an `ARG` or `BUF` write
there is still dropped. -/
def Obligations.HostCannotDisturbCommandInFlight : Prop :=
  ∀ (s : State) (m : Nat), s.busy = true → s.env.cyclesLeft = m + 1 → HostEvent.reset ∉ s.env.bus →
    ∃ u t, Host.Core.run Sys2Proof.core (m + 1) s = .next t ∧ runCommand s.cmdReg u = .next t
      ∧ u.arg = s.arg ∧ u.res = s.res ∧ u.code = s.code ∧ u.detail = s.detail ∧ u.busy = false
      ∧ u.cmdReg = s.cmdReg ∧ u.buf = s.buf ∧ keptKey s u ∧ keptTable s u ∧ keptMac s u
      ∧ u.env.build = s.env.build ∧ u.env.resets = s.env.resets

/-- Rules R340, R347, R350: the machine has no fault and no refusal: from every state the step goes on. -/
def Obligations.EveryStepGoesOn : Prop :=
  ∀ s : State, goesOn s

/-- Rules R38, R39, R43, R44, R49, R50, R52, R116, R343, R345 as one invariant: every step keeps it, from every
state that has it. -/
def Obligations.StepKeepsInv : Prop :=
  ∀ s t : State, s.Inv → step s = .next t → t.Inv

/-- The state after reset has the invariant. -/
def Obligations.ResetHasInv : Prop :=
  State.reset.Inv

/-! ### Reset -/

/-- Rule R370: the state after reset, component by component. THE MODEL'S CHOICE (log 3): every byte of `BUF` is
the free value that the model names for no reset before, where the rule says "unspecified". -/
def Obligations.ResetState : Prop :=
  State.reset.arg = {} ∧ State.reset.res = {} ∧ State.reset.code = 0 ∧ State.reset.detail = 0
  ∧ State.reset.busy = false ∧ State.reset.sticky = 0 ∧ State.reset.cmdReg = 0
  ∧ (∀ a, bufByte State.reset a = Config.bufAfterReset 0 a)
  ∧ State.reset.key.val = List.replicate 32 0 ∧ State.reset.keyValid = false
  ∧ State.reset.extTab = [] ∧ (∀ i k, extTabWord State.reset i k = 0) ∧ State.reset.extCount = 0
  ∧ State.reset.mac = ⟨false, 0, 0, 0, 0, 0, 0, false⟩

/-- Rules R370, R372: reset, also while a command is in flight, abandons the command and leaves rule R370's state.
THE MODEL'S CHOICES: the contents of `BUF` are the free value of the next reset count (log 3); reset is one event,
and keeps the build and the events still to come (log 11). -/
def Obligations.ResetAbandonsCommand : Prop :=
  ∀ (s : State) (rest : List HostEvent), s.env.bus = .reset :: rest →
    ∃ t, step s = .next t
      ∧ t.arg = {} ∧ t.res = {} ∧ t.code = 0 ∧ t.detail = 0 ∧ t.busy = false ∧ t.sticky = 0 ∧ t.cmdReg = 0
      ∧ (∀ a, bufByte t a = Config.bufAfterReset (s.env.resets + 1) a)
      ∧ t.key.val = List.replicate 32 0 ∧ t.keyValid = false
      ∧ t.extTab = [] ∧ t.extCount = 0 ∧ t.mac = ⟨false, 0, 0, 0, 0, 0, 0, false⟩
      ∧ t.env.build = s.env.build ∧ t.env.bus = rest

/-! ### The host port -/

/-- Rules R36, R37: what `ID` and `CAPS` read as, busy or not, and that a write there only sets `BUS_ERR`. -/
def Obligations.IdAndCapsRead : Prop :=
  ∀ (s : State) (v : Word),
    (hostRead .w32 0x00000 s).env.readData
      = (match s.env.build.variant with | .keyedHash4 => 0x534B000C | .hmacSha256x8 => 0x534B010C)
    ∧ (hostRead .w32 0x00004 s).env.readData.toNat
      = s.env.build.bufBytes + 24 * 2 ^ 16
        + (match s.env.build.variant with | .keyedHash4 => 4 | .hmacSha256x8 => 8) * 2 ^ 24
    ∧ ∀ addr, addr = 0x00000 ∨ addr = 0x00004 → hostWrite .w32 addr v s
      = { s with sticky := s.sticky ||| 0x100
                 env := { s.env with errResponse := s.env.build.busErrResponse } }

/-- Rule R41: an `ARGi` write stores all 32 bits, or is dropped with `HAZARD` while `BUSY` = 1; a read returns
the stored value. THE MODEL'S CHOICE (log 19): the bus signals no error response to the dropped write. -/
def Obligations.ArgPort : Prop :=
  ∀ (s : State) (i : Fin 8) (v : Word),
    (s.busy = false →
      ∃ a, hostWrite .w32 (argAddr i) v s
          = { s with arg := a, env := { s.env with errResponse := false } }
        ∧ a.get i = v ∧ ∀ j, j ≠ i → a.get j = s.arg.get j)
    ∧ (s.busy = true → hostWrite .w32 (argAddr i) v s
      = { s with sticky := s.sticky ||| 0x200, env := { s.env with errResponse := false } })
    ∧ (hostRead .w32 (argAddr i) s).env.readData = s.arg.get i

/-- Rule R40: a `CMD` write with `BUSY` = 0 stores the word and issues the command; with `BUSY` = 1 the write is
dropped with `HAZARD`; a read returns `CMDREG` and changes no component of the block. THE MODEL'S CHOICES: the
command runs in the same step where its latency is 0, and else is in flight with that count of cycles (log 6);
the bus signals no error response to the dropped write (log 19). -/
def Obligations.CmdPort : Prop :=
  ∀ (s : State) (w : Word),
    (∀ rest, s.busy = false → s.env.bus = .access (.write .w32 0x00010 w) :: rest → commandLatency w s = 0 →
      step s = runCommand w ((accepted (takeEvent s rest)).setCmdReg w))
    ∧ (∀ rest n, s.busy = false → s.env.bus = .access (.write .w32 0x00010 w) :: rest →
      commandLatency w s = n + 1 →
      step s = .next { s with cmdReg := w, busy := true
                              env := { s.env with bus := rest, errResponse := false, cyclesLeft := n + 1 } })
    ∧ (s.busy = true → hostWrite .w32 0x00010 w s
      = { s with sticky := s.sticky ||| 0x200, env := { s.env with errResponse := false } })
    ∧ hostRead .w32 0x00010 s
      = { s with env := { s.env with readData := s.cmdReg, errResponse := false } }

/-- Rules R39, R55: a `STICKY` write clears exactly the bits written as 1, busy or not; a read shows bits 9..1;
where the write lands in the cycle in which a command fails, the set wins (log 6: the access comes before the
completion). -/
def Obligations.StickyPort : Prop :=
  ∀ (s : State) (w : Word),
    hostWrite .w32 0x0000C w s
      = { s with sticky := s.sticky &&& ~~~w, env := { s.env with errResponse := false } }
    ∧ (hostRead .w32 0x0000C s).env.readData = s.sticky &&& 0x3FE
    ∧ ∀ (rest : List HostEvent) (t : State), s.busy = true → s.env.cyclesLeft = 1 →
        s.env.bus = .access (.write .w32 0x0000C w) :: rest → step s = .next t → t.code ≠ 0 →
        t.sticky = (s.sticky &&& ~~~w) ||| 1#32 <<< t.code.toNat

/-- Rules R85, R86: which accesses are refused, and that a refused one sets `BUS_ERR` and does nothing else: a
read returns 0. An access that is not refused does not set `BUS_ERR`. THE MODEL'S CHOICE (log 8): so it is also
while `BUSY` = 1, where a misaligned `BUF` write or a narrow `CMD` or `ARGi` write sets `BUS_ERR` and not
`HAZARD`. -/
def Obligations.RefusedAccess : Prop :=
  ∀ (s : State) (width : Width) (addr : BitVec 17) (v : Word),
    (¬ hostReadable s.env.build width addr.toNat → hostRead width addr s
      = { s with sticky := s.sticky ||| 0x100
                 env := { s.env with readData := 0, errResponse := s.env.build.busErrResponse } })
    ∧ (¬ hostWritable s.env.build width addr.toNat → hostWrite width addr v s
      = { s with sticky := s.sticky ||| 0x100
                 env := { s.env with errResponse := s.env.build.busErrResponse } })
    ∧ (hostReadable s.env.build width addr.toNat → (hostRead width addr s).sticky = s.sticky)
    ∧ (hostWritable s.env.build width addr.toNat →
        (hostWrite width addr v s).sticky.getLsbD 8 = true → s.sticky.getLsbD 8 = true)

/-- Rules R39, R85, R87, R88, R378: an access inside `BUF` reads and writes its 4, 2 or 1 bytes big-endian, and a
write changes no other byte and no other component; while `BUSY` = 1 a write is dropped with `HAZARD`. THE
MODEL'S CHOICES: a narrow read is zero-extended and a narrow write takes the low bits (log 10); the bus signals no
error response to the dropped write (log 19). -/
def Obligations.BufPortIsBigEndian : Prop :=
  ∀ (s : State) (i : Nat) (v : Word),
    let stores : State → List Byte → Prop := fun t bytes =>
      storedAt s t i bytes ∧ t = { s with buf := t.buf, env := { s.env with errResponse := false } }
    (s.busy = false → i % 4 = 0 → i + 4 ≤ s.env.build.bufBytes →
      (hostRead .w32 (bufAddr i) s).env.readData
        = bufByte s i ++ bufByte s (i + 1) ++ bufByte s (i + 2) ++ bufByte s (i + 3)
      ∧ stores (hostWrite .w32 (bufAddr i) v s)
          [v.extractLsb' 24 8, v.extractLsb' 16 8, v.extractLsb' 8 8, v.extractLsb' 0 8])
    ∧ (s.busy = false → i % 2 = 0 → i + 2 ≤ s.env.build.bufBytes →
      (hostRead .w16 (bufAddr i) s).env.readData = 0#16 ++ bufByte s i ++ bufByte s (i + 1)
      ∧ stores (hostWrite .w16 (bufAddr i) v s) [v.extractLsb' 8 8, v.extractLsb' 0 8])
    ∧ (s.busy = false → i < s.env.build.bufBytes →
      (hostRead .w8 (bufAddr i) s).env.readData = 0#24 ++ bufByte s i
      ∧ stores (hostWrite .w8 (bufAddr i) v s) [v.extractLsb' 0 8])
    ∧ ∀ width : Width, s.busy = true → i % widthBytes width = 0 →
      i + widthBytes width ≤ s.env.build.bufBytes →
      hostWrite width (bufAddr i) v s
        = { s with sticky := s.sticky ||| 0x200, env := { s.env with errResponse := false } }

/-- Rules R38, R40, R42..R48: what the other registers read as with no command in flight; `STATUS.BUSY` at any
time. -/
def Obligations.RegistersRead : Prop :=
  ∀ s : State,
    (hostRead .w32 0x00008 s).env.readData.getLsbD 16 = s.busy
    ∧ (s.busy = false →
      (hostRead .w32 0x00008 s).env.readData.toNat
          = s.code.toNat + 2 ^ 8 * s.detail.toNat + 2 ^ 17 * s.keyValid.toNat + 2 ^ 18 * s.mac.valid.toNat
      ∧ (∀ i : Fin 8, (hostRead .w32 (BitVec.ofNat 17 (0x040 + 4 * i.val)) s).env.readData = s.res.get i)
      ∧ (hostRead .w32 0x00060 s).env.readData.toNat = s.extCount.toNat
      ∧ (hostRead .w32 0x00070 s).env.readData.toNat = s.mac.epoch.toNat
      ∧ (hostRead .w32 0x00074 s).env.readData.toNat = s.mac.own.toNat + 2 ^ 16 * s.mac.peer.toNat
      ∧ (hostRead .w32 0x00078 s).env.readData.toNat = s.mac.gap.toNat + 2 ^ 16 * s.mac.tail.toNat
      ∧ (hostRead .w32 0x0007C s).env.readData.toNat
          = s.mac.own.toNat + s.mac.gap.toNat + s.mac.peer.toNat + s.mac.tail.toNat
      ∧ (hostRead .w32 0x00080 s).env.readData.toNat = s.mac.last.toNat + 2 ^ 31 * s.mac.lastValid.toNat)

/-- Rule R51: word `k` of `EXT_TAB[i]` at 0x1000 + 12 i + 4 k; entries from `EXT_COUNT` on read 0, and so does
the whole table after reset; a write is refused. The premise that `EXT_COUNT` counts the table is part of the
invariant. -/
def Obligations.ExtTabPort : Prop :=
  ∀ (s : State) (i k : Nat) (v : Word), i < 255 → k < 3 →
    (s.busy = false → s.extCount.toNat = s.extTab.length →
      (∀ e, s.extTab[i]? = some e → (hostRead .w32 (BitVec.ofNat 17 (0x1000 + 12 * i + 4 * k)) s).env.readData
        = [e.w0, e.w1, e.w2].getD k 0)
      ∧ (s.extCount.toNat ≤ i →
        (hostRead .w32 (BitVec.ofNat 17 (0x1000 + 12 * i + 4 * k)) s).env.readData = 0))
    ∧ hostWrite .w32 (BitVec.ofNat 17 (0x1000 + 12 * i + 4 * k)) v s
      = { s with sticky := s.sticky ||| 0x100
                 env := { s.env with errResponse := s.env.build.busErrResponse } }
    ∧ (hostRead .w32 (BitVec.ofNat 17 (0x1000 + 12 * i + 4 * k)) State.reset).env.readData = 0

/-- Rules R86, R88, R379: a read changes no component of the block, busy or not, but for `BUS_ERR` where, and only
where, it is refused. -/
def Obligations.ReadsHaveNoSideEffect : Prop :=
  ∀ (s : State) (width : Width) (addr : BitVec 17),
    ∃ sticky data err draws,
      hostRead width addr s
        = { s with sticky := sticky
                   env := { s.env with readData := data, errResponse := err, draws := draws } }
      ∧ (hostReadable s.env.build width addr.toNat → sticky = s.sticky)
      ∧ (¬ hostReadable s.env.build width addr.toNat → sticky = s.sticky ||| 0x100)
      ∧ (s.busy = false → (hostRead width addr (hostRead width addr s)).env.readData = data)

/-! ### How every command ends -/

/-- Rule R345: a command word that fails with (k, d) writes `STATUS`, sets `STICKY.ERR[k]` and clears `RES`; the
two table commands empty the table, unless k = 7; nothing else changes. -/
def Obligations.FailedCommandChangesNothingElse : Prop :=
  ∀ (w : Word) (s t : State), runCommand w s = .next t → t.code ≠ 0 →
    (∃ e : CmdError, t.code = e.code ∧ t.detail = e.detail)
    ∧ t.sticky = s.sticky ||| 1#32 <<< t.code.toNat ∧ t.res = {}
    ∧ (if (opcodeField w = 0x02 ∨ opcodeField w = 0x13) ∧ t.code ≠ 7 then t.extTab = [] ∧ t.extCount = 0
        else keptTable s t)
    ∧ t.buf = s.buf ∧ keptKey s t ∧ keptMac s t ∧ keptPorts s t

/-- Rules R32, R34, R39, R115, R344: a command that succeeds leaves `DETAIL` 0 and `STICKY` as it was, and
`RES7` 0. -/
def Obligations.SuccessKeepsSticky : Prop :=
  ∀ (w : Word) (s t : State), runCommand w s = .next t → t.code = 0 →
    t.detail = 0 ∧ t.sticky = s.sticky ∧ t.res.r7 = 0 ∧ ∃ i, decode w = .ok i

/-- Rules R18, R31, R43, R50, R54, R84, R92, R309: no command writes `ARG`, `BUSY` or `CMDREG`; only the key
commands write the key, only the two table commands the table, only `MAC_INIT`, `MAC_UPDATE` and
`MAC_SET_OWN` the MAC state, and only the storing commands `BUF`. -/
def Obligations.WhichCommandWritesWhat : Prop :=
  ∀ (i : Instr) (s t : State), exec i s = .next t →
    keptPorts s t
    ∧ (i ≠ .keyLoad → i ≠ .keyClear → keptKey s t)
    ∧ ((∀ dx vf, i ≠ .frameParse dx vf) → i ≠ .extDecAll → keptTable s t)
    ∧ (i ≠ .macInit → i ≠ .macUpdate → i ≠ .macSetOwn → keptMac s t)
    ∧ ((∀ au fec, i ≠ .frameBuild au fec) → (∀ ty, i ≠ .extEncRaw ty) → i ≠ .extEncArqSequence →
        i ≠ .extEncArqRequest → i ≠ .extEncArqControl → i ≠ .extEncArqHandshake → i ≠ .extEncTddControl →
        i ≠ .extEncHmacSequenceReset → i ≠ .golayEncBytes → i ≠ .prefixEnc → i ≠ .authAppend → keptBuf s t)

/-- Rules R50, R354: of two states that differ in the key bytes alone, every command word but those of the four
digest commands, every host read, every host write and every step that runs no digest command lead to states that
differ in the key bytes alone; and a key that was replaced is replaced by the same bytes in both. -/
def Obligations.KeyIsConfidential : Prop :=
  ∀ (s : State) (k : Key),
    (∀ (w : Word) (t t' : State), (∀ i, decode w = .ok i → usesKey i = false) →
      runCommand w s = .next t → runCommand w { s with key := k } = .next t' →
      t' = { t with key := t'.key } ∧ (t'.key = t.key ∨ (t.key = s.key ∧ t'.key = k)))
    ∧ (∀ (width : Width) (addr : BitVec 17),
      hostRead width addr { s with key := k } = { hostRead width addr s with key := k })
    ∧ (∀ (width : Width) (addr : BitVec 17) (v : Word),
      hostWrite width addr v { s with key := k } = { hostWrite width addr v s with key := k })
    ∧ ∀ t t' : State,
      (∀ i, s.busy = true → decode s.cmdReg = .ok i → usesKey i = false) →
      (∀ w rest i, s.env.bus = .access (.write .w32 0x00010 w) :: rest → decode w = .ok i →
        usesKey i = false) →
      step s = .next t → step { s with key := k } = .next t' →
      t' = { t with key := t'.key } ∧ (t'.key = t.key ∨ (t.key = s.key ∧ t'.key = k))

/-- Rules R264, R384 (log 16): no command's latency depends on the key bytes; that of the digest commands depends
on nothing in `BUF` beyond the checks made before the digest. -/
def Obligations.LatencyDoesNotDependOnKey : Prop :=
  (∀ (w : Word) (s : State) (k : Key), commandLatency w (s.setKey k s.keyValid) = commandLatency w s)
  ∧ (∀ (i : Instr) (s t : State), i = .authAppend ∨ i = .authVerify ∨ (∃ fec, i = .frameBuild true fec) →
      t.arg = s.arg → t.keyValid = s.keyValid → t.env.build = s.env.build → t.env.latency = s.env.latency →
      commandLatency (encode i) t = commandLatency (encode i) s)
  ∧ ∀ (dx : Bool) (s t : State),
      t.arg = s.arg → t.env.latency = s.env.latency →
      errorOf (frameHeader true t) = errorOf (frameHeader true s) →
      commandLatency (encode (.frameParse dx true)) t = commandLatency (encode (.frameParse dx true)) s

/-- Rule R331: `NOP` clears `RES`, `CODE` and `DETAIL` and does nothing else, `STICKY` included; any other word
with opcode 0 is an `IllegalCommand` 0x02. -/
def Obligations.NopCompletes : Prop :=
  (∀ s : State, ∃ t, exec .nop s = .next t ∧ completed s t {}
    ∧ keptPorts s t ∧ keptKey s t ∧ keptTable s t ∧ keptMac s t ∧ keptBuf s t)
  ∧ ∀ (w : Word) (s : State), opcodeField w = 0 → w ≠ 0 →
    ∃ t, runCommand w s = .next t ∧ failed s t .reservedBits

/-! ### Golay and the length prefix -/

/-- Rules R222, R230: `GOLAY_ENC` puts the data in bits 11..0 of `RES0` and parity bit i, the parity of row i of
`GOLAY_B` and the data, in bit 23 - i; nothing else is written. -/
def Obligations.GolayEncCompletes : Prop :=
  ∀ s : State, ∃ t, exec .golayEnc s = .next t ∧ completed s t { r0 := t.res.r0 }
    ∧ t.res.r0.extractLsb' 0 12 = s.arg.r0.extractLsb' 0 12
    ∧ (∀ i < 12, t.res.r0.getLsbD (23 - i)
        = parity (golayRow s.env.build.golayB i &&& s.arg.r0.extractLsb' 0 12))
    ∧ t.res.r0.toNat < 2 ^ 24
    ∧ keptPorts s t ∧ keptKey s t ∧ keptTable s t ∧ keptMac s t ∧ keptBuf s t

/-- Rules R232, R235: `GOLAY_ENC_BYTES`, and `PREFIX_ENC` of a value with the Viterbi bit clear and the outer-FEC
bit set, write the three bytes of the codeword, high byte first, and report it. -/
def Obligations.GolayStoresTriple : Prop :=
  ∀ (s : State) (i : Instr),
    (i = .golayEncBytes ∨ (i = .prefixEnc ∧ s.arg.r0.getLsbD 11 = false ∧ s.arg.r0.getLsbD 8 = true)) →
    (s.arg.r1.extractLsb' 0 16).toNat + 3 ≤ s.env.build.bufBytes →
    let c := golayEncode s.env.build.golayB (s.arg.r0.extractLsb' 0 12)
    ∃ t, exec i s = .next t ∧ completed s t { r0 := c.setWidth 32 }
      ∧ storedAt s t (s.arg.r1.extractLsb' 0 16).toNat
          [c.extractLsb' 16 8, c.extractLsb' 8 8, c.extractLsb' 0 8]
      ∧ keptPorts s t ∧ keptKey s t ∧ keptTable s t ∧ keptMac s t

/-- Rules R225, R231, R233, R236, over the default `GOLAY_B` (log 12): the three decode commands correct every pattern of
at most three errors, report it, its weight and the step that found it, and write nothing else. -/
def Obligations.GolayCorrectsThreeErrors : Prop :=
  ∀ (s : State) (v : BitVec 12) (e : BitVec 24),
    s.env.build.golayB = defaultGolayB → popcount e ≤ 3 →
    let r := golayEncode defaultGolayB v ^^^ e
    let src := (s.arg.r0.extractLsb' 0 16).toNat
    let inBuf := src + 3 ≤ s.env.build.bufBytes
      ∧ tripleAt s src = r
    ∀ i : Instr,
      (i = .golayDec ∧ s.arg.r0.extractLsb' 0 24 = r) ∨ (i = .golayDecBytes ∧ inBuf)
        ∨ (i = .prefixDec ∧ inBuf ∧ v.getLsbD 11 = false) →
      ∃ t, exec i s = .next t
        ∧ completed s t { r0 := v.setWidth 32, r1 := e.setWidth 32
                          r2 := 0#16 ++ stepOfPattern e ++ BitVec.ofNat 8 (popcount e) }
        ∧ keptPorts s t ∧ keptKey s t ∧ keptTable s t ∧ keptMac s t ∧ keptBuf s t

/-- Rules R223, R224, R226, over every legal `GOLAY_B`: a received word has one outcome for the three decode
commands, whatever else the state holds. It is `GolayUncorrectable`, or a codeword at distance at most 3, with its
data half, the pattern and a step of 2, 3, 5 or 6, which all three report and write nothing else, but that
`PREFIX_DEC` reports a Viterbi bit in the corrected word (rule R236). -/
def Obligations.GolayNeverMiscomputes : Prop :=
  ∀ (build : Build) (r : BitVec 24),
    let receives : State → Instr → Prop := fun s i =>
      let src := (s.arg.r0.extractLsb' 0 16).toNat
      s.env.build = build
        ∧ ((i = .golayDec ∧ s.arg.r0.extractLsb' 0 24 = r)
          ∨ ((i = .golayDecBytes ∨ i = .prefixDec) ∧ src + 3 ≤ build.bufBytes ∧ tripleAt s src = r))
    (∀ s i, receives s i → raises i s .uncorrectable)
    ∨ ∃ (d : BitVec 12) (e : BitVec 24) (step : BitVec 8),
      popcount e ≤ 3 ∧ r ^^^ e = golayEncode build.golayB d ∧ (step = 2 ∨ step = 3 ∨ step = 5 ∨ step = 6)
      ∧ ∀ s i, receives s i →
        if i = .prefixDec ∧ d.getLsbD 11 = true then raises i s .viterbiDecoded
        else ∃ t, exec i s = .next t
          ∧ completed s t { r0 := d.setWidth 32, r1 := e.setWidth 32
                            r2 := 0#16 ++ step ++ BitVec.ofNat 8 (popcount e) }
          ∧ keptPorts s t ∧ keptKey s t ∧ keptTable s t ∧ keptMac s t ∧ keptBuf s t

/-- Rule R226(a), over the default `GOLAY_B` (log 12): every pattern of exactly four errors is reported as
`GolayUncorrectable`. -/
def Obligations.GolayDetectsFourErrors : Prop :=
  ∀ (s : State) (v : BitVec 12) (e : BitVec 24),
    s.env.build.golayB = defaultGolayB → popcount e = 4 →
    s.arg.r0.extractLsb' 0 24 = golayEncode defaultGolayB v ^^^ e → raises .golayDec s .uncorrectable

/-- Rules R232, R233, R235, R236, R346: the errors of the Golay commands, in the order they are checked. -/
def Obligations.GolayErrorsInOrder : Prop :=
  ∀ (s : State) (err : CmdError),
    (firstFailure (golayDecFailures s) = some err → raises .golayDec s err)
    ∧ (firstFailure (golayEncBytesFailures s) = some err → raises .golayEncBytes s err)
    ∧ (firstFailure (golayDecBytesFailures s) = some err → raises .golayDecBytes s err)
    ∧ (firstFailure (prefixEncFailures s) = some err → raises .prefixEnc s err)
    ∧ (firstFailure (prefixDecFailures s) = some err → raises .prefixDec s err)

/-! ### Extension records -/

/-- Rules R182, R184..R189: each `EXT_ENC` writes its record at the destination, reports its length, and writes
nothing else. -/
def Obligations.ExtEncWritesItsRecord : Prop :=
  ∀ s : State,
    let a := s.arg.r0
    let b := s.arg.r1
    let dst := (s.arg.r2.extractLsb' 0 16).toNat
    let writes : Instr → List Byte → Prop := fun i bytes =>
      dst + bytes.length ≤ s.env.build.bufBytes →
      ∃ t, exec i s = .next t ∧ completed s t { r0 := BitVec.ofNat 32 bytes.length }
        ∧ storedAt s t dst bytes ∧ keptPorts s t ∧ keptKey s t ∧ keptTable s t ∧ keptMac s t
    writes .extEncArqSequence [0x10, a.extractLsb' 0 8]
    ∧ writes .extEncArqRequest [0x31, a.extractLsb' 0 8, b.extractLsb' 8 8, b.extractLsb' 0 8]
    ∧ writes .extEncArqControl [0x22, a.extractLsb' 0 8, b.extractLsb' 0 8]
    ∧ writes .extEncArqHandshake [0x53, a.extractLsb' 0 8, b.extractLsb' 24 8, b.extractLsb' 16 8,
        b.extractLsb' 8 8, b.extractLsb' 0 8]
    ∧ writes .extEncTddControl [0x44, a.extractLsb' 8 8, a.extractLsb' 0 8, b.extractLsb' 8 8,
        b.extractLsb' 0 8]
    ∧ writes .extEncHmacSequenceReset [0x25, a.extractLsb' 8 8, a.extractLsb' 0 8]

/-- Rule R190: `EXT_ENC_RAW` writes the header byte `len << 4 | type` and the region's bytes as they were before
the command. -/
def Obligations.ExtEncRawWritesItsRecord : Prop :=
  ∀ (s : State) (type : BitVec 4),
    let so := (s.arg.r3.extractLsb' 0 16).toNat
    let sl := (s.arg.r3.extractLsb' 16 16).toNat
    let dst := (s.arg.r2.extractLsb' 0 16).toNat
    so + sl ≤ s.env.build.bufBytes → sl ≤ 15 → dst + 1 + sl ≤ s.env.build.bufBytes →
    ∃ t, exec (.extEncRaw type) s = .next t ∧ completed s t { r0 := BitVec.ofNat 32 (1 + sl) }
      ∧ storedAt s t dst ((BitVec.ofNat 4 sl ++ type) :: memRead s so sl)
      ∧ keptPorts s t ∧ keptKey s t ∧ keptTable s t ∧ keptMac s t

/-- Rules R116, R191, R192, R193: `EXT_DEC` of a blob that starts with a whole record reports its header, its two
fields, assembled big-endian as its type says, and the bytes it takes; a type above 5 is never an error and has
zero fields. -/
def Obligations.ExtDecReportsTheRecord : Prop :=
  ∀ s : State,
    let bo := (s.arg.r0.extractLsb' 0 16).toNat
    let bn := (s.arg.r0.extractLsb' 16 16).toNat
    let h := bufByte s bo
    let len := (h.extractLsb' 4 4).toNat
    let type := (h.extractLsb' 0 4).toNat
    let d : Nat → Byte := fun i => bufByte s (bo + 1 + i)
    let fields : Word × Word :=
      match type with
      | 0 => ((d 0).setWidth 32, 0)
      | 1 => ((d 0).setWidth 32, 0#16 ++ d 1 ++ d 2)
      | 2 => ((d 0).setWidth 32, (d 1).setWidth 32)
      | 3 => ((d 0).setWidth 32, d 1 ++ d 2 ++ d 3 ++ d 4)
      | 4 => (0#16 ++ d 0 ++ d 1, 0#16 ++ d 2 ++ d 3)
      | 5 => (0#16 ++ d 0 ++ d 1, 0)
      | _ => (0, 0)
    bo + bn ≤ s.env.build.bufBytes → 1 + len ≤ bn → (type ≤ 5 → len = knownDataLen type) →
    ∃ t, exec .extDec s = .next t
      ∧ completed s t
          { r0 := BitVec.ofNat 16 (bo + 1) ++ 0#7 ++ BitVec.ofBool (decide (type ≤ 5)) ++ h
            r1 := fields.1, r2 := fields.2, r3 := BitVec.ofNat 32 (1 + len) }
      ∧ keptPorts s t ∧ keptKey s t ∧ keptTable s t ∧ keptMac s t ∧ keptBuf s t

/-- Rules R194, R195, R196: `EXT_DEC_ALL` of a blob that is a chain of encoded records gives back the same records
in the same order, each with its fields and the offset of its data. -/
def Obligations.ExtDecAllInvertsTheChain : Prop :=
  ∀ (s : State) (rs : List ExtRecord),
    let bo := (s.arg.r0.extractLsb' 0 16).toNat
    let bn := (s.arg.r0.extractLsb' 16 16).toNat
    (∀ r ∈ rs, r.wireLegal = true) → bo + bn ≤ s.env.build.bufBytes → bn ≤ 255 →
    memRead s bo bn = chainBytes rs →
    ∃ t, exec .extDecAll s = .next t ∧ completed s t { r0 := BitVec.ofNat 32 rs.length }
      ∧ t.extTab = chainWords bo rs ∧ t.extCount.toNat = rs.length
      ∧ keptPorts s t ∧ keptKey s t ∧ keptMac s t ∧ keptBuf s t

/-- Rules R191, R194, R195, R150: a blob whose chain of records ends in a truncated record, or holds a known type
with a wrong length, fails as a whole: `EXT_DEC_ALL` of the blob, and `FRAME_PARSE` of a frame that passes every
other check and carries it, keep no earlier record. -/
def Obligations.BadRecordFailsTheChain : Prop :=
  ∀ (s : State) (rs : List ExtRecord) (h : Byte) (tail : List Byte) (err : CmdError),
    let off := (s.arg.r0.extractLsb' 0 16).toNat
    let n := (s.arg.r0.extractLsb' 16 16).toNat
    let il := ((bufByte s off).extractLsb' 0 3).toNat
    let el := (bufByte s (off + 2 + il)).toNat
    (∀ r ∈ rs, r.wireLegal = true) → firstFailure (recordFailures h tail.length) = some err →
    (off + n ≤ s.env.build.bufBytes → n ≤ 255 → memRead s off n = chainBytes rs ++ h :: tail →
      ∃ t, exec .extDecAll s = .next t ∧ failed s t err ∧ t.extTab = [] ∧ t.extCount = 0)
    ∧ ∀ vf, firstFailure (frameParseFailures vf s) = none →
      memRead s (off + 5 + il) el = chainBytes rs ++ h :: tail →
      ∃ t, exec (.frameParse true vf) s = .next t ∧ failed s t err ∧ t.extTab = [] ∧ t.extCount = 0

/-- Rules R182, R190, R193, R195, R346: the errors of the extension commands, in the order they are checked. -/
def Obligations.ExtErrorsInOrder : Prop :=
  ∀ (s : State) (err : CmdError),
    (∀ p ∈ [(Instr.extEncArqSequence, 2), (.extEncArqRequest, 4), (.extEncArqControl, 3),
          (.extEncArqHandshake, 6), (.extEncTddControl, 5), (.extEncHmacSequenceReset, 3)],
        s.env.build.bufBytes < (s.arg.r2.extractLsb' 0 16).toNat + p.2 → raises p.1 s .destinationRange)
    ∧ (∀ ty, firstFailure (extEncRawFailures s) = some err → raises (.extEncRaw ty) s err)
    ∧ (firstFailure (extDecFailures s) = some err → raises .extDec s err)
    ∧ (firstFailure (extDecAllFailures s) = some err → raises .extDecAll s err)

/-! ### Frames -/

/-- Rules R117, R142, R143, R145, R146, R147: where every check passes, `FRAME_BUILD` writes the frame byte by
byte in the canonical layout, from the bytes as they were before the command, with the digest of everything
before it as the trailer of an authenticated frame; it reports the total length and writes nothing else. -/
def Obligations.FrameBuildWritesTheFrame : Prop :=
  ∀ (s : State) (auth outerFec : Bool),
    let io := (s.arg.r0.extractLsb' 0 16).toNat
    let il := (s.arg.r0.extractLsb' 16 16).toNat
    let po := (s.arg.r1.extractLsb' 0 16).toNat
    let pl := (s.arg.r1.extractLsb' 16 16).toNat
    let eo := (s.arg.r2.extractLsb' 0 16).toNat
    let el := (s.arg.r2.extractLsb' 16 16).toNat
    let dst := (s.arg.r4.extractLsb' 0 16).toNat
    let size := s.env.build.bufBytes
    let body := 5 + il + el + pl
    let total := body + (if auth then s.env.build.T else 0)
    io + il ≤ size → po + pl ≤ size → eo + el ≤ size → (auth = true → s.keyValid = true) →
    1 ≤ il → il ≤ 7 → el ≤ 255 → (s.arg.r3.extractLsb' 16 3).toNat ≤ 3 →
    (outerFec = true → total ≤ 255) → dst + total ≤ size →
    ∃ t, exec (.frameBuild auth outerFec) s = .next t ∧ completed s t { r0 := BitVec.ofNat 32 total }
      ∧ bufByte t dst = 12#5 ++ BitVec.ofNat 3 il
      ∧ memRead t (dst + 1) il = memRead s io il
      ∧ bufByte t (dst + 1 + il)
          = s.arg.r3.extractLsb' 20 2 ++ BitVec.ofBool (decide (0 < pl)) ++ s.arg.r3.extractLsb' 24 1
            ++ BitVec.ofBool auth ++ s.arg.r3.extractLsb' 16 3
      ∧ bufByte t (dst + 2 + il) = BitVec.ofNat 8 el
      ∧ bufByte t (dst + 3 + il) = s.arg.r3.extractLsb' 8 8
      ∧ bufByte t (dst + 4 + il) = s.arg.r3.extractLsb' 0 8
      ∧ memRead t (dst + 5 + il) el = memRead s eo el
      ∧ memRead t (dst + 5 + il + el) pl = memRead s po pl
      ∧ (auth = true → memRead t (dst + body) s.env.build.T = digest s.env.build s.key (memRead t dst body))
      ∧ (∀ a, a < dst ∨ dst + total ≤ a → bufByte t a = bufByte s a)
      ∧ keptPorts s t ∧ keptKey s t ∧ keptTable s t ∧ keptMac s t

/-- Rules R115, R117, R142, R150, R151, R152, R153: where every check passes, `FRAME_PARSE` reports every field of
the frame, whether its trailer was verified, and the regions of its parts; with `DECODE_EXT` it fills the table
with the records of the extensions; it writes nothing else. -/
def Obligations.FrameParseReportsTheFrame : Prop :=
  ∀ (s : State) (dx vf : Bool) (rs : List ExtRecord),
    let fo := (s.arg.r0.extractLsb' 0 16).toNat
    let n := (s.arg.r0.extractLsb' 16 16).toNat
    let b : Nat → Byte := fun i => bufByte s (fo + i)
    let il := ((b 0).extractLsb' 0 3).toNat
    let f := b (1 + il)
    let el := (b (2 + il)).toNat
    let au := f.getLsbD 3
    let ta := if au then s.env.build.T else 0
    let pl := n - (5 + il + el + ta)
    fo + n ≤ s.env.build.bufBytes → (vf = true → s.keyValid = true) →
    1 ≤ n → (b 0).extractLsb' 3 5 = 12 → il ≠ 0 → 5 + il + el + ta ≤ n →
    f.getLsbD 5 = decide (0 < pl) →
    (au = true → vf = true → digest s.env.build s.key (memRead s fo (n - ta)) = memRead s (fo + n - ta) ta) →
    (if dx then (∀ r ∈ rs, r.wireLegal = true) ∧ memRead s (fo + 5 + il) el = chainBytes rs else rs = []) →
    ∃ t, exec (.frameParse dx vf) s = .next t
      ∧ completed s t
          { r0 := 0#2 ++ BitVec.ofBool dx ++ BitVec.ofBool (au && vf) ++ 0#1 ++ f.extractLsb' 0 3 ++ 0#3
              ++ BitVec.ofBool au ++ f.extractLsb' 4 1 ++ f.extractLsb' 5 1 ++ f.extractLsb' 6 2 ++ 0#5
              ++ (b 0).extractLsb' 0 3 ++ 0#3 ++ 12#5
            r1 := 0#8 ++ b (2 + il) ++ b (3 + il) ++ b (4 + il)
            r2 := BitVec.ofNat 16 il ++ BitVec.ofNat 16 (fo + 1)
            r3 := BitVec.ofNat 16 el ++ BitVec.ofNat 16 (fo + 5 + il)
            r4 := BitVec.ofNat 16 pl ++ BitVec.ofNat 16 (fo + 5 + il + el)
            r5 := BitVec.ofNat 16 ta ++ BitVec.ofNat 16 (fo + n - ta)
            r6 := BitVec.ofNat 32 rs.length }
      ∧ t.extTab = chainWords (fo + 5 + il) rs ∧ t.extCount.toNat = rs.length
      ∧ keptPorts s t ∧ keptKey s t ∧ keptMac s t ∧ keptBuf s t

/-- Rule R154: the frame a successful `FRAME_BUILD` writes parses, with `VERIFY` = `AUTH`, to the fields it was
built from; with `DECODE_EXT` where the extensions blob is a chain of records. -/
def Obligations.FrameRoundTrip : Prop :=
  ∀ (s t : State) (auth outerFec dx : Bool) (rs : List ExtRecord),
    let r := s.arg
    let il := (r.r0.extractLsb' 16 16).toNat
    let pl := (r.r1.extractLsb' 16 16).toNat
    let el := (r.r2.extractLsb' 16 16).toNat
    let region : Word → List Byte := fun w => memRead t (w.extractLsb' 0 16).toNat (w.extractLsb' 16 16).toNat
    exec (.frameBuild auth outerFec) s = .next t → t.code = 0 →
    (dx = true → (∀ e ∈ rs, e.wireLegal = true)
      ∧ memRead s (r.r2.extractLsb' 0 16).toNat el = chainBytes rs) →
    ∃ u, exec (.frameParse dx auth)
        (t.setArg { t.arg with r0 := (t.res.r0.extractLsb' 0 16 ++ r.r4.extractLsb' 0 16) }) = .next u
      ∧ u.code = 0
      ∧ region u.res.r2 = memRead s (r.r0.extractLsb' 0 16).toNat il
      ∧ region u.res.r3 = memRead s (r.r2.extractLsb' 0 16).toNat el
      ∧ region u.res.r4 = memRead s (r.r1.extractLsb' 0 16).toNat pl
      ∧ u.res.r1.extractLsb' 0 16 = r.r3.extractLsb' 0 16
      ∧ u.res.r0.extractLsb' 24 3 = r.r3.extractLsb' 16 3
      ∧ u.res.r0.extractLsb' 16 2 = r.r3.extractLsb' 20 2
      ∧ u.res.r0.getLsbD 19 = r.r3.getLsbD 24
      ∧ u.res.r0.getLsbD 18 = decide (0 < pl)
      ∧ u.res.r0.getLsbD 20 = auth ∧ u.res.r0.getLsbD 28 = auth
      ∧ keptBuf t u

/-- Rules R145, R346: the errors of `FRAME_BUILD`, in the order they are checked. -/
def Obligations.FrameBuildErrorsInOrder : Prop :=
  ∀ (s : State) (auth outerFec : Bool) (err : CmdError),
    firstFailure (frameBuildFailures auth outerFec s) = some err → raises (.frameBuild auth outerFec) s err

/-- Rules R150, R151(a), R155, R156, R346: the errors of `FRAME_PARSE` up to the trailer, in the order they are
checked. -/
def Obligations.FrameParseErrorsInOrder : Prop :=
  ∀ (s : State) (dx vf : Bool) (err : CmdError),
    firstFailure (frameParseFailures vf s) = some err → raises (.frameParse dx vf) s err

/-- Rule R152: every `FRAME_PARSE` empties the table before any other check, and only a successful one with
`DECODE_EXT` fills it, with the records of its frame in wire order; a word with opcode 0x02 that decode refuses
leaves it unchanged. -/
def Obligations.FrameParseEmptiesTheTable : Prop :=
  (∀ (s t : State) (dx vf : Bool), exec (.frameParse dx vf) s = .next t →
    (t.code ≠ 0 ∨ dx = false → t.extTab = [] ∧ t.extCount = 0)
    ∧ exec (.frameParse dx vf) (s.setExtTab []) = .next t
    ∧ ∀ rs : List ExtRecord,
      let fo := (s.arg.r0.extractLsb' 0 16).toNat
      let il := ((bufByte s fo).extractLsb' 0 3).toNat
      t.code = 0 → dx = true → (∀ r ∈ rs, r.wireLegal = true) →
      memRead s (fo + 5 + il) (bufByte s (fo + 2 + il)).toNat = chainBytes rs →
      t.extTab = chainWords (fo + 5 + il) rs ∧ t.extCount.toNat = rs.length)
  ∧ ∀ (w : Word) (s : State), opcodeField w = 0x02 → (∀ i, decode w ≠ .ok i) →
    ∃ t, runCommand w s = .next t ∧ t.code = 7 ∧ keptTable s t

/-! ### The key and the trailer -/

/-- Rules R50, R266, R267: `KEY_LOAD` copies 32 bytes of `BUF` into the key and marks it valid; `KEY_CLEAR` zeroes
it; neither writes anything else. -/
def Obligations.KeyCommandsComplete : Prop :=
  ∀ s : State,
    ((s.arg.r0.extractLsb' 0 16).toNat + 32 ≤ s.env.build.bufBytes →
      ∃ t, exec .keyLoad s = .next t ∧ completed s t {}
        ∧ t.key.val = memRead s (s.arg.r0.extractLsb' 0 16).toNat 32 ∧ t.keyValid = true
        ∧ keptPorts s t ∧ keptTable s t ∧ keptMac s t ∧ keptBuf s t)
    ∧ ∃ t, exec .keyClear s = .next t ∧ completed s t {}
        ∧ t.key.val = List.replicate 32 0 ∧ t.keyValid = false
        ∧ keptPorts s t ∧ keptTable s t ∧ keptMac s t ∧ keptBuf s t

/-- Rules R263, R268, R269: `AUTH_APPEND` writes the digest of the region right after it; `AUTH_VERIFY` of a region
that ends in the digest of what comes before succeeds; each reports the length and writes nothing else. -/
def Obligations.AuthCommandsComplete : Prop :=
  ∀ s : State,
    let off := (s.arg.r0.extractLsb' 0 16).toNat
    let n := (s.arg.r0.extractLsb' 16 16).toNat
    let T := s.env.build.T
    (s.keyValid = true → off + n + T ≤ s.env.build.bufBytes →
      ∃ t, exec .authAppend s = .next t ∧ completed s t { r0 := BitVec.ofNat 32 (n + T) }
        ∧ storedAt s t (off + n) (digest s.env.build s.key (memRead s off n))
        ∧ keptPorts s t ∧ keptKey s t ∧ keptTable s t ∧ keptMac s t)
    ∧ (s.keyValid = true → off + n ≤ s.env.build.bufBytes → T ≤ n →
      digest s.env.build s.key (memRead s off (n - T)) = memRead s (off + n - T) T →
      ∃ t, exec .authVerify s = .next t ∧ completed s t { r0 := BitVec.ofNat 32 (n - T) }
        ∧ keptPorts s t ∧ keptKey s t ∧ keptTable s t ∧ keptMac s t ∧ keptBuf s t)

/-- Rules R266, R268, R269, R271, R346: the errors of the key and trailer commands, in the order they are checked;
a region that does not end in its own digest is an `AuthenticationError` 0x01. -/
def Obligations.AuthErrorsInOrder : Prop :=
  ∀ (s : State) (err : CmdError),
    (s.env.build.bufBytes < (s.arg.r0.extractLsb' 0 16).toNat + 32 → raises .keyLoad s .sourceRange)
    ∧ (firstFailure (authAppendFailures s) = some err → raises .authAppend s err)
    ∧ (firstFailure (authVerifyFailures s) = some err → raises .authVerify s err)

/-- Rule R270: `AUTH_APPEND`, then `AUTH_VERIFY` of the data with its trailer, succeeds with the data's length,
and the data bytes are unchanged. -/
def Obligations.AuthRoundTrip : Prop :=
  ∀ s t : State,
    let off := (s.arg.r0.extractLsb' 0 16).toNat
    let n := (s.arg.r0.extractLsb' 16 16).toNat
    exec .authAppend s = .next t → t.code = 0 →
    memRead t off n = memRead s off n
    ∧ ∃ u, exec .authVerify
        (t.setArg { t.arg with r0 := (t.res.r0.extractLsb' 0 16 ++ s.arg.r0.extractLsb' 0 16) }) = .next u
      ∧ completed t u { r0 := BitVec.ofNat 32 n } ∧ keptBuf t u

/-- Rule R271: after `AUTH_APPEND`, any change of the trailer bytes alone makes `AUTH_VERIFY` raise
`AuthenticationError` 0x01. -/
def Obligations.TrailerChangeIsDetected : Prop :=
  ∀ (s t : State) (bytes : List Byte),
    let off := (s.arg.r0.extractLsb' 0 16).toNat
    let n := (s.arg.r0.extractLsb' 16 16).toNat
    let T := s.env.build.T
    exec .authAppend s = .next t → t.code = 0 →
    bytes.length = T → bytes ≠ memRead t (off + n) T →
    raises .authVerify
      (memWrite (t.setArg { t.arg with r0 := (t.res.r0.extractLsb' 0 16 ++ s.arg.r0.extractLsb' 0 16) })
        (off + n) bytes) .trailerMismatch

/-- Rules R260, R261, R265: under `HMAC_SHA256_8` the digest is the first 8 bytes of HMAC-SHA256 (the hash itself
is log 13's); under `KEYED_HASH_4` it has 4 bytes and takes the value P-KH4 fixes. -/
def Obligations.DigestOfEachVariant : Prop :=
  ∀ (b : Build) (k : Key) (m : List Byte),
    (b.variant = .hmacSha256x8 →
      let k0 := k.val ++ List.replicate 32 0
      digest b k m
        = (sha256 (k0.map (· ^^^ 0x5C) ++ sha256 (k0.map (· ^^^ 0x36) ++ m))).take 8)
    ∧ (digest b k m).length = b.T
    ∧ (b.variant = .keyedHash4 → k.val = (List.range 32).map (BitVec.ofNat 8) →
      digest b k [0x66, 0x41, 0x42, 0x43, 0x44, 0x45, 0x46, 0x2B, 0x00, 0x00, 0x00,
        0x48, 0x65, 0x6C, 0x6C, 0x6F, 0x20, 0x57, 0x6F, 0x72, 0x6C, 0x64] = [0xC5, 0x5B, 0x10, 0xE9])

/-! ### The MAC scheduler -/

/-- Rule R296: with a cycle that is not 0, `MAC_INIT` takes the four lengths, reduces the epoch modulo the cycle,
forgets `LAST`, reports the cycle, and writes nothing else. -/
def Obligations.MacInitCompletes : Prop :=
  ∀ s : State,
    let own := s.arg.r1.extractLsb' 0 16
    let peer := s.arg.r1.extractLsb' 16 16
    let gap := s.arg.r2.extractLsb' 0 16
    let tail := s.arg.r2.extractLsb' 16 16
    let c := own.toNat + gap.toNat + peer.toNat + tail.toNat
    c ≠ 0 →
    ∃ t, exec .macInit s = .next t ∧ completed s t { r0 := BitVec.ofNat 32 c }
      ∧ t.mac = ⟨true, t.mac.epoch, own, peer, gap, tail, 0, false⟩
      ∧ t.mac.epoch.toNat = (s.arg.r0.extractLsb' 0 24).toNat % c
      ∧ keptPorts s t ∧ keptKey s t ∧ keptTable s t ∧ keptBuf s t

/-- Rules R290, R292, R298, R299, R300, R301: with the MAC state valid and its cycle not 0, the three queries
report, for the position p of `now` in the cycle, the remaining own window (signed), the remaining peer window
(signed: positive exactly in the peer phase) and whether p is in the own phase; they write nothing else. -/
def Obligations.MacQueriesFollowThePhases : Prop :=
  ∀ s : State,
    let own : Int := s.mac.own.toNat
    let peer : Int := s.mac.peer.toNat
    let gap : Int := s.mac.gap.toNat
    let c : Int := own + gap + peer + s.mac.tail.toNat
    let now : Int := (s.arg.r0.extractLsb' 0 24).toNat
    let p := (now - s.mac.epoch.toNat) % c
    s.mac.valid = true → 1 ≤ c →
    (∃ t, exec .macOwnRem s = .next t ∧ completed s t { r0 := t.res.r0 } ∧ t.res.r0.toInt = own - p
      ∧ keptPorts s t ∧ keptKey s t ∧ keptTable s t ∧ keptMac s t ∧ keptBuf s t)
    ∧ (∃ t, exec .macPeerRem s = .next t ∧ completed s t { r0 := t.res.r0 }
      ∧ t.res.r0.toInt = peer - (now - (s.mac.epoch.toNat + own + gap)) % c
      ∧ (if own + gap ≤ p ∧ p < own + gap + peer then t.res.r0.toInt = own + gap + peer - p
          else t.res.r0.toInt ≤ 0)
      ∧ keptPorts s t ∧ keptKey s t ∧ keptTable s t ∧ keptMac s t ∧ keptBuf s t)
    ∧ ∃ t, exec .macCanSend s = .next t ∧ completed s t { r0 := if p < own then 1 else 0 }
      ∧ keptPorts s t ∧ keptKey s t ∧ keptTable s t ∧ keptMac s t ∧ keptBuf s t

/-- Rules R303, R305: with the MAC state valid and the new cycle not 0, `MAC_UPDATE` adopts the peer's window,
recomputes the epoch under the new cycle and records `now`; `MAC_SET_OWN` takes the new own length and reduces
the epoch, which changes no query's result; neither writes anything else. -/
def Obligations.MacUpdatesComplete : Prop :=
  ∀ s : State,
    let now := s.arg.r0.extractLsb' 0 24
    let low := s.arg.r1.extractLsb' 0 16
    let r := s.arg.r1.extractLsb' 16 16
    let m := s.mac
    let c := m.own.toNat + m.gap.toNat + low.toNat + m.tail.toNat
    let c' := low.toNat + m.gap.toNat + m.peer.toNat + m.tail.toNat
    m.valid = true →
    (c ≠ 0 → ∃ t, exec .macUpdate s = .next t ∧ completed s t { r0 := t.mac.epoch.setWidth 32 }
      ∧ t.mac = { m with peer := low, epoch := t.mac.epoch, last := now, lastValid := true }
      ∧ t.mac.epoch.toNat = (now.toNat + r.toNat + m.tail.toNat) % c
      ∧ keptPorts s t ∧ keptKey s t ∧ keptTable s t ∧ keptBuf s t)
    ∧ (c' ≠ 0 → ∃ t, exec .macSetOwn s = .next t ∧ completed s t { r0 := BitVec.ofNat 32 c' }
      ∧ t.mac = { m with own := low, epoch := t.mac.epoch }
      ∧ t.mac.epoch.toNat = m.epoch.toNat % c'
      ∧ (∀ tick, ownRem t.mac tick = ownRem { m with own := low } tick
          ∧ peerRem t.mac tick = peerRem { m with own := low } tick)
      ∧ keptPorts s t ∧ keptKey s t ∧ keptTable s t ∧ keptBuf s t)

/-- Rule R297: with `MAC_VALID` = 0 every MAC command but `MAC_INIT` raises `ConfigError` 0x02, whatever its
operands; a word that decode refuses still reports its own error first. -/
def Obligations.MacNeedsInit : Prop :=
  ∀ s : State, s.mac.valid = false →
    (∀ i ∈ [Instr.macOwnRem, .macPeerRem, .macCanSend, .macUpdate, .macSetOwn], raises i s .macConfig)
    ∧ ∀ w, 0x41 ≤ (opcodeField w).toNat → (opcodeField w).toNat ≤ 0x45 → wellFormedWord w = false →
      ∃ t, runCommand w s = .next t ∧ t.code = 7

/-- Rules R49, R291, R296, R303, R305: a MAC command that would make the cycle 0 raises `ConfigError` 0x02 and
leaves the MAC state as it was. -/
def Obligations.MacRefusesZeroCycle : Prop :=
  ∀ s : State,
    let low := s.arg.r1.extractLsb' 0 16
    let m := s.mac
    (s.arg.r1 = 0 → s.arg.r2 = 0 →
      ∃ t, exec .macInit s = .next t ∧ failed s t .macConfig ∧ keptMac s t)
    ∧ (m.valid = true → m.own = 0 → m.gap = 0 → low = 0 → m.tail = 0 →
      ∃ t, exec .macUpdate s = .next t ∧ failed s t .macConfig ∧ keptMac s t)
    ∧ (m.valid = true → low = 0 → m.gap = 0 → m.peer = 0 → m.tail = 0 →
      ∃ t, exec .macSetOwn s = .next t ∧ failed s t .macConfig ∧ keptMac s t)

/-- Rules R290, R303, R307: two instances A and B, where A has heard B announce its own window and then B hears A
announce its own window and remaining time at `T2`. The peers then match the own windows; with equal guard sums
the cycles are equal, and B's own window is where A believes it exactly when A's gap is B's tail modulo the cycle.
The last clause, that A's own window is always where B believes it, DEPARTS FROM RULE R307 as worded, whose second
bullet makes it depend on A's tail and B's gap: it is the model's, from rules R290 and R303 (log 20). -/
def Obligations.MacBeliefsConverge : Prop :=
  ∀ a a' b b' : State,
    a.mac.valid = true → b.mac.valid = true → macGood a.mac →
    exec .macUpdate a = .next a' → a'.code = 0 → a.arg.r1.extractLsb' 0 16 = b.mac.own →
    exec .macUpdate b = .next b' → b'.code = 0 → b.arg.r1.extractLsb' 0 16 = a'.mac.own →
    ((b.arg.r1.extractLsb' 16 16).toNat : Int) = ownRem a'.mac (b.arg.r0.extractLsb' 0 24) →
    a'.mac.peer = b'.mac.own ∧ b'.mac.peer = a'.mac.own
    ∧ (a'.mac.gap.toNat + a'.mac.tail.toNat = b'.mac.gap.toNat + b'.mac.tail.toNat →
      a'.mac.cycle = b'.mac.cycle
      ∧ ∀ t, (peerRem a'.mac t = ownRem b'.mac t
            ↔ (a'.mac.gap.toNat : Int) % a'.mac.cycle = b'.mac.tail.toNat % a'.mac.cycle)
          ∧ ownRem a'.mac t = peerRem b'.mac t)

/-- Rule R307's second equivalence as it is worded: A's own window is where B believes it exactly when A's tail is
B's gap modulo the cycle. Expected to FAIL: with equal guard sums the left side always holds, by rules R290 and
R303 (log 20). -/
def Obligations.MacSecondEquivalenceAsWorded : Prop :=
  ∀ a a' b b' : State,
    a.mac.valid = true → b.mac.valid = true → macGood a.mac →
    exec .macUpdate a = .next a' → a'.code = 0 → a.arg.r1.extractLsb' 0 16 = b.mac.own →
    exec .macUpdate b = .next b' → b'.code = 0 → b.arg.r1.extractLsb' 0 16 = a'.mac.own →
    ((b.arg.r1.extractLsb' 16 16).toNat : Int) = ownRem a'.mac (b.arg.r0.extractLsb' 0 24) →
    a'.mac.gap.toNat + a'.mac.tail.toNat = b'.mac.gap.toNat + b'.mac.tail.toNat →
    ∀ t, ownRem a'.mac t = peerRem b'.mac t
      ↔ (a'.mac.tail.toNat : Int) % a'.mac.cycle = b'.mac.gap.toNat % a'.mac.cycle
end

