-- ==== Sys2Proof/Laws/State.lean ====
section
/-! SUPPORT. One lemma per component and update: what each named update of the state leaves in each
component. All true by unfolding one record update, so that no later proof unfolds one. -/

namespace Sys2Proof.Machine

@[simp] theorem State.setArg_arg (s : State) (v : RegFile) : (s.setArg v).arg = v := rfl
@[simp] theorem State.setArg_res (s : State) (v : RegFile) : (s.setArg v).res = s.res := rfl
@[simp] theorem State.setArg_code (s : State) (v : RegFile) : (s.setArg v).code = s.code := rfl
@[simp] theorem State.setArg_detail (s : State) (v : RegFile) : (s.setArg v).detail = s.detail := rfl
@[simp] theorem State.setArg_busy (s : State) (v : RegFile) : (s.setArg v).busy = s.busy := rfl
@[simp] theorem State.setArg_sticky (s : State) (v : RegFile) : (s.setArg v).sticky = s.sticky := rfl
@[simp] theorem State.setArg_cmdReg (s : State) (v : RegFile) : (s.setArg v).cmdReg = s.cmdReg := rfl
@[simp] theorem State.setArg_buf (s : State) (v : RegFile) : (s.setArg v).buf = s.buf := rfl
@[simp] theorem State.setArg_key (s : State) (v : RegFile) : (s.setArg v).key = s.key := rfl
@[simp] theorem State.setArg_keyValid (s : State) (v : RegFile) : (s.setArg v).keyValid = s.keyValid := rfl
@[simp] theorem State.setArg_extTab (s : State) (v : RegFile) : (s.setArg v).extTab = s.extTab := rfl
@[simp] theorem State.setArg_extCount (s : State) (v : RegFile) : (s.setArg v).extCount = s.extCount := rfl
@[simp] theorem State.setArg_mac (s : State) (v : RegFile) : (s.setArg v).mac = s.mac := rfl
@[simp] theorem State.setArg_env (s : State) (v : RegFile) : (s.setArg v).env = s.env := rfl

@[simp] theorem State.setRes_arg (s : State) (v : RegFile) : (s.setRes v).arg = s.arg := rfl
@[simp] theorem State.setRes_res (s : State) (v : RegFile) : (s.setRes v).res = v := rfl
@[simp] theorem State.setRes_code (s : State) (v : RegFile) : (s.setRes v).code = s.code := rfl
@[simp] theorem State.setRes_detail (s : State) (v : RegFile) : (s.setRes v).detail = s.detail := rfl
@[simp] theorem State.setRes_busy (s : State) (v : RegFile) : (s.setRes v).busy = s.busy := rfl
@[simp] theorem State.setRes_sticky (s : State) (v : RegFile) : (s.setRes v).sticky = s.sticky := rfl
@[simp] theorem State.setRes_cmdReg (s : State) (v : RegFile) : (s.setRes v).cmdReg = s.cmdReg := rfl
@[simp] theorem State.setRes_buf (s : State) (v : RegFile) : (s.setRes v).buf = s.buf := rfl
@[simp] theorem State.setRes_key (s : State) (v : RegFile) : (s.setRes v).key = s.key := rfl
@[simp] theorem State.setRes_keyValid (s : State) (v : RegFile) : (s.setRes v).keyValid = s.keyValid := rfl
@[simp] theorem State.setRes_extTab (s : State) (v : RegFile) : (s.setRes v).extTab = s.extTab := rfl
@[simp] theorem State.setRes_extCount (s : State) (v : RegFile) : (s.setRes v).extCount = s.extCount := rfl
@[simp] theorem State.setRes_mac (s : State) (v : RegFile) : (s.setRes v).mac = s.mac := rfl
@[simp] theorem State.setRes_env (s : State) (v : RegFile) : (s.setRes v).env = s.env := rfl

@[simp] theorem State.setOutcome_arg (s : State) (c : BitVec 4) (d : BitVec 8) : (s.setOutcome c d).arg = s.arg := rfl
@[simp] theorem State.setOutcome_res (s : State) (c : BitVec 4) (d : BitVec 8) : (s.setOutcome c d).res = s.res := rfl
@[simp] theorem State.setOutcome_code (s : State) (c : BitVec 4) (d : BitVec 8) : (s.setOutcome c d).code = c := rfl
@[simp] theorem State.setOutcome_detail (s : State) (c : BitVec 4) (d : BitVec 8) : (s.setOutcome c d).detail = d := rfl
@[simp] theorem State.setOutcome_busy (s : State) (c : BitVec 4) (d : BitVec 8) : (s.setOutcome c d).busy = s.busy := rfl
@[simp] theorem State.setOutcome_sticky (s : State) (c : BitVec 4) (d : BitVec 8) : (s.setOutcome c d).sticky = s.sticky := rfl
@[simp] theorem State.setOutcome_cmdReg (s : State) (c : BitVec 4) (d : BitVec 8) : (s.setOutcome c d).cmdReg = s.cmdReg := rfl
@[simp] theorem State.setOutcome_buf (s : State) (c : BitVec 4) (d : BitVec 8) : (s.setOutcome c d).buf = s.buf := rfl
@[simp] theorem State.setOutcome_key (s : State) (c : BitVec 4) (d : BitVec 8) : (s.setOutcome c d).key = s.key := rfl
@[simp] theorem State.setOutcome_keyValid (s : State) (c : BitVec 4) (d : BitVec 8) : (s.setOutcome c d).keyValid = s.keyValid := rfl
@[simp] theorem State.setOutcome_extTab (s : State) (c : BitVec 4) (d : BitVec 8) : (s.setOutcome c d).extTab = s.extTab := rfl
@[simp] theorem State.setOutcome_extCount (s : State) (c : BitVec 4) (d : BitVec 8) : (s.setOutcome c d).extCount = s.extCount := rfl
@[simp] theorem State.setOutcome_mac (s : State) (c : BitVec 4) (d : BitVec 8) : (s.setOutcome c d).mac = s.mac := rfl
@[simp] theorem State.setOutcome_env (s : State) (c : BitVec 4) (d : BitVec 8) : (s.setOutcome c d).env = s.env := rfl

@[simp] theorem State.setBusy_arg (s : State) (v : Bool) : (s.setBusy v).arg = s.arg := rfl
@[simp] theorem State.setBusy_res (s : State) (v : Bool) : (s.setBusy v).res = s.res := rfl
@[simp] theorem State.setBusy_code (s : State) (v : Bool) : (s.setBusy v).code = s.code := rfl
@[simp] theorem State.setBusy_detail (s : State) (v : Bool) : (s.setBusy v).detail = s.detail := rfl
@[simp] theorem State.setBusy_busy (s : State) (v : Bool) : (s.setBusy v).busy = v := rfl
@[simp] theorem State.setBusy_sticky (s : State) (v : Bool) : (s.setBusy v).sticky = s.sticky := rfl
@[simp] theorem State.setBusy_cmdReg (s : State) (v : Bool) : (s.setBusy v).cmdReg = s.cmdReg := rfl
@[simp] theorem State.setBusy_buf (s : State) (v : Bool) : (s.setBusy v).buf = s.buf := rfl
@[simp] theorem State.setBusy_key (s : State) (v : Bool) : (s.setBusy v).key = s.key := rfl
@[simp] theorem State.setBusy_keyValid (s : State) (v : Bool) : (s.setBusy v).keyValid = s.keyValid := rfl
@[simp] theorem State.setBusy_extTab (s : State) (v : Bool) : (s.setBusy v).extTab = s.extTab := rfl
@[simp] theorem State.setBusy_extCount (s : State) (v : Bool) : (s.setBusy v).extCount = s.extCount := rfl
@[simp] theorem State.setBusy_mac (s : State) (v : Bool) : (s.setBusy v).mac = s.mac := rfl
@[simp] theorem State.setBusy_env (s : State) (v : Bool) : (s.setBusy v).env = s.env := rfl

@[simp] theorem State.setSticky_arg (s : State) (v : Word) : (s.setSticky v).arg = s.arg := rfl
@[simp] theorem State.setSticky_res (s : State) (v : Word) : (s.setSticky v).res = s.res := rfl
@[simp] theorem State.setSticky_code (s : State) (v : Word) : (s.setSticky v).code = s.code := rfl
@[simp] theorem State.setSticky_detail (s : State) (v : Word) : (s.setSticky v).detail = s.detail := rfl
@[simp] theorem State.setSticky_busy (s : State) (v : Word) : (s.setSticky v).busy = s.busy := rfl
@[simp] theorem State.setSticky_sticky (s : State) (v : Word) : (s.setSticky v).sticky = v := rfl
@[simp] theorem State.setSticky_cmdReg (s : State) (v : Word) : (s.setSticky v).cmdReg = s.cmdReg := rfl
@[simp] theorem State.setSticky_buf (s : State) (v : Word) : (s.setSticky v).buf = s.buf := rfl
@[simp] theorem State.setSticky_key (s : State) (v : Word) : (s.setSticky v).key = s.key := rfl
@[simp] theorem State.setSticky_keyValid (s : State) (v : Word) : (s.setSticky v).keyValid = s.keyValid := rfl
@[simp] theorem State.setSticky_extTab (s : State) (v : Word) : (s.setSticky v).extTab = s.extTab := rfl
@[simp] theorem State.setSticky_extCount (s : State) (v : Word) : (s.setSticky v).extCount = s.extCount := rfl
@[simp] theorem State.setSticky_mac (s : State) (v : Word) : (s.setSticky v).mac = s.mac := rfl
@[simp] theorem State.setSticky_env (s : State) (v : Word) : (s.setSticky v).env = s.env := rfl

@[simp] theorem State.setCmdReg_arg (s : State) (v : Word) : (s.setCmdReg v).arg = s.arg := rfl
@[simp] theorem State.setCmdReg_res (s : State) (v : Word) : (s.setCmdReg v).res = s.res := rfl
@[simp] theorem State.setCmdReg_code (s : State) (v : Word) : (s.setCmdReg v).code = s.code := rfl
@[simp] theorem State.setCmdReg_detail (s : State) (v : Word) : (s.setCmdReg v).detail = s.detail := rfl
@[simp] theorem State.setCmdReg_busy (s : State) (v : Word) : (s.setCmdReg v).busy = s.busy := rfl
@[simp] theorem State.setCmdReg_sticky (s : State) (v : Word) : (s.setCmdReg v).sticky = s.sticky := rfl
@[simp] theorem State.setCmdReg_cmdReg (s : State) (v : Word) : (s.setCmdReg v).cmdReg = v := rfl
@[simp] theorem State.setCmdReg_buf (s : State) (v : Word) : (s.setCmdReg v).buf = s.buf := rfl
@[simp] theorem State.setCmdReg_key (s : State) (v : Word) : (s.setCmdReg v).key = s.key := rfl
@[simp] theorem State.setCmdReg_keyValid (s : State) (v : Word) : (s.setCmdReg v).keyValid = s.keyValid := rfl
@[simp] theorem State.setCmdReg_extTab (s : State) (v : Word) : (s.setCmdReg v).extTab = s.extTab := rfl
@[simp] theorem State.setCmdReg_extCount (s : State) (v : Word) : (s.setCmdReg v).extCount = s.extCount := rfl
@[simp] theorem State.setCmdReg_mac (s : State) (v : Word) : (s.setCmdReg v).mac = s.mac := rfl
@[simp] theorem State.setCmdReg_env (s : State) (v : Word) : (s.setCmdReg v).env = s.env := rfl

@[simp] theorem State.setBuf_arg (s : State) (v : Memory) : (s.setBuf v).arg = s.arg := rfl
@[simp] theorem State.setBuf_res (s : State) (v : Memory) : (s.setBuf v).res = s.res := rfl
@[simp] theorem State.setBuf_code (s : State) (v : Memory) : (s.setBuf v).code = s.code := rfl
@[simp] theorem State.setBuf_detail (s : State) (v : Memory) : (s.setBuf v).detail = s.detail := rfl
@[simp] theorem State.setBuf_busy (s : State) (v : Memory) : (s.setBuf v).busy = s.busy := rfl
@[simp] theorem State.setBuf_sticky (s : State) (v : Memory) : (s.setBuf v).sticky = s.sticky := rfl
@[simp] theorem State.setBuf_cmdReg (s : State) (v : Memory) : (s.setBuf v).cmdReg = s.cmdReg := rfl
@[simp] theorem State.setBuf_buf (s : State) (v : Memory) : (s.setBuf v).buf = v := rfl
@[simp] theorem State.setBuf_key (s : State) (v : Memory) : (s.setBuf v).key = s.key := rfl
@[simp] theorem State.setBuf_keyValid (s : State) (v : Memory) : (s.setBuf v).keyValid = s.keyValid := rfl
@[simp] theorem State.setBuf_extTab (s : State) (v : Memory) : (s.setBuf v).extTab = s.extTab := rfl
@[simp] theorem State.setBuf_extCount (s : State) (v : Memory) : (s.setBuf v).extCount = s.extCount := rfl
@[simp] theorem State.setBuf_mac (s : State) (v : Memory) : (s.setBuf v).mac = s.mac := rfl
@[simp] theorem State.setBuf_env (s : State) (v : Memory) : (s.setBuf v).env = s.env := rfl

@[simp] theorem State.setKey_arg (s : State) (k : Key) (v : Bool) : (s.setKey k v).arg = s.arg := rfl
@[simp] theorem State.setKey_res (s : State) (k : Key) (v : Bool) : (s.setKey k v).res = s.res := rfl
@[simp] theorem State.setKey_code (s : State) (k : Key) (v : Bool) : (s.setKey k v).code = s.code := rfl
@[simp] theorem State.setKey_detail (s : State) (k : Key) (v : Bool) : (s.setKey k v).detail = s.detail := rfl
@[simp] theorem State.setKey_busy (s : State) (k : Key) (v : Bool) : (s.setKey k v).busy = s.busy := rfl
@[simp] theorem State.setKey_sticky (s : State) (k : Key) (v : Bool) : (s.setKey k v).sticky = s.sticky := rfl
@[simp] theorem State.setKey_cmdReg (s : State) (k : Key) (v : Bool) : (s.setKey k v).cmdReg = s.cmdReg := rfl
@[simp] theorem State.setKey_buf (s : State) (k : Key) (v : Bool) : (s.setKey k v).buf = s.buf := rfl
@[simp] theorem State.setKey_key (s : State) (k : Key) (v : Bool) : (s.setKey k v).key = k := rfl
@[simp] theorem State.setKey_keyValid (s : State) (k : Key) (v : Bool) : (s.setKey k v).keyValid = v := rfl
@[simp] theorem State.setKey_extTab (s : State) (k : Key) (v : Bool) : (s.setKey k v).extTab = s.extTab := rfl
@[simp] theorem State.setKey_extCount (s : State) (k : Key) (v : Bool) : (s.setKey k v).extCount = s.extCount := rfl
@[simp] theorem State.setKey_mac (s : State) (k : Key) (v : Bool) : (s.setKey k v).mac = s.mac := rfl
@[simp] theorem State.setKey_env (s : State) (k : Key) (v : Bool) : (s.setKey k v).env = s.env := rfl

@[simp] theorem State.setExtTab_arg (s : State) (v : List ExtWords) : (s.setExtTab v).arg = s.arg := rfl
@[simp] theorem State.setExtTab_res (s : State) (v : List ExtWords) : (s.setExtTab v).res = s.res := rfl
@[simp] theorem State.setExtTab_code (s : State) (v : List ExtWords) : (s.setExtTab v).code = s.code := rfl
@[simp] theorem State.setExtTab_detail (s : State) (v : List ExtWords) : (s.setExtTab v).detail = s.detail := rfl
@[simp] theorem State.setExtTab_busy (s : State) (v : List ExtWords) : (s.setExtTab v).busy = s.busy := rfl
@[simp] theorem State.setExtTab_sticky (s : State) (v : List ExtWords) : (s.setExtTab v).sticky = s.sticky := rfl
@[simp] theorem State.setExtTab_cmdReg (s : State) (v : List ExtWords) : (s.setExtTab v).cmdReg = s.cmdReg := rfl
@[simp] theorem State.setExtTab_buf (s : State) (v : List ExtWords) : (s.setExtTab v).buf = s.buf := rfl
@[simp] theorem State.setExtTab_key (s : State) (v : List ExtWords) : (s.setExtTab v).key = s.key := rfl
@[simp] theorem State.setExtTab_keyValid (s : State) (v : List ExtWords) : (s.setExtTab v).keyValid = s.keyValid := rfl
@[simp] theorem State.setExtTab_extTab (s : State) (v : List ExtWords) : (s.setExtTab v).extTab = v := rfl
@[simp] theorem State.setExtTab_extCount (s : State) (v : List ExtWords) : (s.setExtTab v).extCount = BitVec.ofNat 9 v.length := rfl
@[simp] theorem State.setExtTab_mac (s : State) (v : List ExtWords) : (s.setExtTab v).mac = s.mac := rfl
@[simp] theorem State.setExtTab_env (s : State) (v : List ExtWords) : (s.setExtTab v).env = s.env := rfl

@[simp] theorem State.setMac_arg (s : State) (v : MacState) : (s.setMac v).arg = s.arg := rfl
@[simp] theorem State.setMac_res (s : State) (v : MacState) : (s.setMac v).res = s.res := rfl
@[simp] theorem State.setMac_code (s : State) (v : MacState) : (s.setMac v).code = s.code := rfl
@[simp] theorem State.setMac_detail (s : State) (v : MacState) : (s.setMac v).detail = s.detail := rfl
@[simp] theorem State.setMac_busy (s : State) (v : MacState) : (s.setMac v).busy = s.busy := rfl
@[simp] theorem State.setMac_sticky (s : State) (v : MacState) : (s.setMac v).sticky = s.sticky := rfl
@[simp] theorem State.setMac_cmdReg (s : State) (v : MacState) : (s.setMac v).cmdReg = s.cmdReg := rfl
@[simp] theorem State.setMac_buf (s : State) (v : MacState) : (s.setMac v).buf = s.buf := rfl
@[simp] theorem State.setMac_key (s : State) (v : MacState) : (s.setMac v).key = s.key := rfl
@[simp] theorem State.setMac_keyValid (s : State) (v : MacState) : (s.setMac v).keyValid = s.keyValid := rfl
@[simp] theorem State.setMac_extTab (s : State) (v : MacState) : (s.setMac v).extTab = s.extTab := rfl
@[simp] theorem State.setMac_extCount (s : State) (v : MacState) : (s.setMac v).extCount = s.extCount := rfl
@[simp] theorem State.setMac_mac (s : State) (v : MacState) : (s.setMac v).mac = v := rfl
@[simp] theorem State.setMac_env (s : State) (v : MacState) : (s.setMac v).env = s.env := rfl

@[simp] theorem State.setEnv_arg (s : State) (v : Env) : (s.setEnv v).arg = s.arg := rfl
@[simp] theorem State.setEnv_res (s : State) (v : Env) : (s.setEnv v).res = s.res := rfl
@[simp] theorem State.setEnv_code (s : State) (v : Env) : (s.setEnv v).code = s.code := rfl
@[simp] theorem State.setEnv_detail (s : State) (v : Env) : (s.setEnv v).detail = s.detail := rfl
@[simp] theorem State.setEnv_busy (s : State) (v : Env) : (s.setEnv v).busy = s.busy := rfl
@[simp] theorem State.setEnv_sticky (s : State) (v : Env) : (s.setEnv v).sticky = s.sticky := rfl
@[simp] theorem State.setEnv_cmdReg (s : State) (v : Env) : (s.setEnv v).cmdReg = s.cmdReg := rfl
@[simp] theorem State.setEnv_buf (s : State) (v : Env) : (s.setEnv v).buf = s.buf := rfl
@[simp] theorem State.setEnv_key (s : State) (v : Env) : (s.setEnv v).key = s.key := rfl
@[simp] theorem State.setEnv_keyValid (s : State) (v : Env) : (s.setEnv v).keyValid = s.keyValid := rfl
@[simp] theorem State.setEnv_extTab (s : State) (v : Env) : (s.setEnv v).extTab = s.extTab := rfl
@[simp] theorem State.setEnv_extCount (s : State) (v : Env) : (s.setEnv v).extCount = s.extCount := rfl
@[simp] theorem State.setEnv_mac (s : State) (v : Env) : (s.setEnv v).mac = s.mac := rfl
@[simp] theorem State.setEnv_env (s : State) (v : Env) : (s.setEnv v).env = v := rfl

@[simp] theorem succeed_arg (s : State) : (succeed s).arg = s.arg := rfl
@[simp] theorem succeed_res (s : State) : (succeed s).res = s.res := rfl
@[simp] theorem succeed_code (s : State) : (succeed s).code = 0 := rfl
@[simp] theorem succeed_detail (s : State) : (succeed s).detail = 0 := rfl
@[simp] theorem succeed_busy (s : State) : (succeed s).busy = s.busy := rfl
@[simp] theorem succeed_sticky (s : State) : (succeed s).sticky = s.sticky := rfl
@[simp] theorem succeed_cmdReg (s : State) : (succeed s).cmdReg = s.cmdReg := rfl
@[simp] theorem succeed_buf (s : State) : (succeed s).buf = s.buf := rfl
@[simp] theorem succeed_key (s : State) : (succeed s).key = s.key := rfl
@[simp] theorem succeed_keyValid (s : State) : (succeed s).keyValid = s.keyValid := rfl
@[simp] theorem succeed_extTab (s : State) : (succeed s).extTab = s.extTab := rfl
@[simp] theorem succeed_extCount (s : State) : (succeed s).extCount = s.extCount := rfl
@[simp] theorem succeed_mac (s : State) : (succeed s).mac = s.mac := rfl
@[simp] theorem succeed_env (s : State) : (succeed s).env = s.env := rfl

@[simp] theorem abort_arg (s : State) (e : CmdError) : (abort s e).arg = s.arg := rfl
@[simp] theorem abort_res (s : State) (e : CmdError) : (abort s e).res = {} := rfl
@[simp] theorem abort_code (s : State) (e : CmdError) : (abort s e).code = e.code := rfl
@[simp] theorem abort_detail (s : State) (e : CmdError) : (abort s e).detail = e.detail := rfl
@[simp] theorem abort_busy (s : State) (e : CmdError) : (abort s e).busy = s.busy := rfl
@[simp] theorem abort_sticky (s : State) (e : CmdError) : (abort s e).sticky = s.sticky ||| stickyErrBit e := rfl
@[simp] theorem abort_cmdReg (s : State) (e : CmdError) : (abort s e).cmdReg = s.cmdReg := rfl
@[simp] theorem abort_buf (s : State) (e : CmdError) : (abort s e).buf = s.buf := rfl
@[simp] theorem abort_key (s : State) (e : CmdError) : (abort s e).key = s.key := rfl
@[simp] theorem abort_keyValid (s : State) (e : CmdError) : (abort s e).keyValid = s.keyValid := rfl
@[simp] theorem abort_extTab (s : State) (e : CmdError) : (abort s e).extTab = s.extTab := rfl
@[simp] theorem abort_extCount (s : State) (e : CmdError) : (abort s e).extCount = s.extCount := rfl
@[simp] theorem abort_mac (s : State) (e : CmdError) : (abort s e).mac = s.mac := rfl
@[simp] theorem abort_env (s : State) (e : CmdError) : (abort s e).env = s.env := rfl

@[simp] theorem clearExtTab_arg (s : State) : (clearExtTab s).arg = s.arg := rfl
@[simp] theorem clearExtTab_res (s : State) : (clearExtTab s).res = s.res := rfl
@[simp] theorem clearExtTab_code (s : State) : (clearExtTab s).code = s.code := rfl
@[simp] theorem clearExtTab_detail (s : State) : (clearExtTab s).detail = s.detail := rfl
@[simp] theorem clearExtTab_busy (s : State) : (clearExtTab s).busy = s.busy := rfl
@[simp] theorem clearExtTab_sticky (s : State) : (clearExtTab s).sticky = s.sticky := rfl
@[simp] theorem clearExtTab_cmdReg (s : State) : (clearExtTab s).cmdReg = s.cmdReg := rfl
@[simp] theorem clearExtTab_buf (s : State) : (clearExtTab s).buf = s.buf := rfl
@[simp] theorem clearExtTab_key (s : State) : (clearExtTab s).key = s.key := rfl
@[simp] theorem clearExtTab_keyValid (s : State) : (clearExtTab s).keyValid = s.keyValid := rfl
@[simp] theorem clearExtTab_extTab (s : State) : (clearExtTab s).extTab = [] := rfl
@[simp] theorem clearExtTab_extCount (s : State) : (clearExtTab s).extCount = 0 := rfl
@[simp] theorem clearExtTab_mac (s : State) : (clearExtTab s).mac = s.mac := rfl
@[simp] theorem clearExtTab_env (s : State) : (clearExtTab s).env = s.env := rfl

@[simp] theorem memWrite_arg (s : State) (off : Nat) (b : List Byte) : (memWrite s off b).arg = s.arg := rfl
@[simp] theorem memWrite_res (s : State) (off : Nat) (b : List Byte) : (memWrite s off b).res = s.res := rfl
@[simp] theorem memWrite_code (s : State) (off : Nat) (b : List Byte) : (memWrite s off b).code = s.code := rfl
@[simp] theorem memWrite_detail (s : State) (off : Nat) (b : List Byte) : (memWrite s off b).detail = s.detail := rfl
@[simp] theorem memWrite_busy (s : State) (off : Nat) (b : List Byte) : (memWrite s off b).busy = s.busy := rfl
@[simp] theorem memWrite_sticky (s : State) (off : Nat) (b : List Byte) : (memWrite s off b).sticky = s.sticky := rfl
@[simp] theorem memWrite_cmdReg (s : State) (off : Nat) (b : List Byte) : (memWrite s off b).cmdReg = s.cmdReg := rfl
@[simp] theorem memWrite_buf (s : State) (off : Nat) (b : List Byte) : (memWrite s off b).buf = s.buf.storeBytes off b := rfl
@[simp] theorem memWrite_key (s : State) (off : Nat) (b : List Byte) : (memWrite s off b).key = s.key := rfl
@[simp] theorem memWrite_keyValid (s : State) (off : Nat) (b : List Byte) : (memWrite s off b).keyValid = s.keyValid := rfl
@[simp] theorem memWrite_extTab (s : State) (off : Nat) (b : List Byte) : (memWrite s off b).extTab = s.extTab := rfl
@[simp] theorem memWrite_extCount (s : State) (off : Nat) (b : List Byte) : (memWrite s off b).extCount = s.extCount := rfl
@[simp] theorem memWrite_mac (s : State) (off : Nat) (b : List Byte) : (memWrite s off b).mac = s.mac := rfl
@[simp] theorem memWrite_env (s : State) (off : Nat) (b : List Byte) : (memWrite s off b).env = s.env := rfl

theorem State.ext_fields {s t : State} (h1 : s.arg = t.arg) (h2 : s.res = t.res) (h3 : s.code = t.code)
    (h4 : s.detail = t.detail) (h5 : s.busy = t.busy) (h6 : s.sticky = t.sticky)
    (h7 : s.cmdReg = t.cmdReg) (h8 : s.buf = t.buf) (h9 : s.key = t.key)
    (h10 : s.keyValid = t.keyValid) (h11 : s.extTab = t.extTab) (h12 : s.extCount = t.extCount)
    (h13 : s.mac = t.mac) (h14 : s.env = t.env) : s = t := by
  cases s; cases t; simp_all

end Sys2Proof.Machine
end

