-- ==== Sys2Proof/Laws/Memory.lean ====
section
/-! SUPPORT. The frame buffer: reading after writing, what a write leaves alone, and the canonical form. -/

namespace Sys2Proof.Machine

/-! ### Reading after writing -/

theorem Memory.lookup_store (m : Memory) (off : Nat) (v : Byte) (a : Nat) :
    (m.store off v).lookup a = if a = off then some v else m.lookup a := by
  induction m with
  | nil => by_cases h : off = a <;> simp [Memory.store, Memory.lookup, h, eq_comm]
  | cons c rest ih =>
    obtain ⟨x, b⟩ := c
    simp only [Memory.store]
    split
    · by_cases h : off = a <;> simp [Memory.lookup, h, eq_comm]
    · split
      · rename_i h1 h2
        subst h2
        by_cases h : off = a <;> simp [Memory.lookup, h, eq_comm]
      · simp only [Memory.lookup, ih]
        by_cases h : x = a
        · subst h
          have : ¬ x = off := by omega
          simp [this]
        · simp [h]

/-- Everything a string write does to a lookup: inside, the string's byte; outside, the old byte. -/
theorem Memory.lookup_storeBytes (bs : List Byte) : ∀ (m : Memory) (off a : Nat),
    (m.storeBytes off bs).lookup a
      = if off ≤ a ∧ a < off + bs.length then bs[a - off]? else m.lookup a := by
  induction bs with
  | nil => intro m off a; have : ¬ (off ≤ a ∧ a < off) := by omega
           simp [Memory.storeBytes, this]
  | cons b bs ih =>
    intro m off a
    simp only [Memory.storeBytes, ih, Memory.lookup_store, List.length_cons]
    by_cases h : a = off
    · subst h
      have h1 : ¬ (a + 1 ≤ a ∧ a < a + 1 + bs.length) := by omega
      have h2 : a ≤ a ∧ a < a + (bs.length + 1) := by omega
      rw [if_neg h1, if_pos h2]
      simp
    · by_cases h3 : off + 1 ≤ a ∧ a < off + 1 + bs.length
      · have h4 : off ≤ a ∧ a < off + (bs.length + 1) := by omega
        have h5 : a - off = (a - (off + 1)) + 1 := by omega
        rw [if_pos h3, if_pos h4, h5]
        simp
      · have h4 : ¬ (off ≤ a ∧ a < off + (bs.length + 1)) := by omega
        rw [if_neg h3, if_neg h4, if_neg h]

/-- Read after write, byte by byte. -/
theorem bufByte_memWrite (s : State) (off : Nat) (bs : List Byte) (a : Nat) :
    bufByte (memWrite s off bs) a
      = if off ≤ a ∧ a < off + bs.length then bs.getD (a - off) 0 else bufByte s a := by
  simp only [bufByte, unwrittenByte, memWrite_buf, memWrite_env, Memory.lookup_storeBytes]
  split
  · rename_i h
    have : a - off < bs.length := by omega
    simp [this]
  · rfl

/-- A write leaves every byte outside it alone (rule R84). -/
theorem bufByte_memWrite_outside (s : State) {off : Nat} {bs : List Byte} {a : Nat}
    (h : a < off ∨ off + bs.length ≤ a) : bufByte (memWrite s off bs) a = bufByte s a := by
  rw [bufByte_memWrite, if_neg (by omega)]

/-! ### Byte strings -/

@[simp] theorem memRead_length (s : State) (off n : Nat) : (memRead s off n).length = n := by
  simp [memRead]

theorem memRead_getD (s : State) (off n i : Nat) (h : i < n) :
    (memRead s off n).getD i 0 = bufByte s (off + i) := by
  simp [memRead, h]

/-- Two states with the same bytes in a region read the same string there. -/
theorem memRead_congr {s t : State} {off n : Nat} (h : ∀ i < n, bufByte s (off + i) = bufByte t (off + i)) :
    memRead s off n = memRead t off n := by
  simp only [memRead]
  exact List.map_congr_left fun i hi => h i (List.mem_range.mp hi)

/-- Reading back exactly what was written. -/
theorem memRead_memWrite (s : State) (off : Nat) (bs : List Byte) :
    memRead (memWrite s off bs) off bs.length = bs := by
  apply List.ext_getElem (by simp)
  intro i h1 h2
  have h3 : off ≤ off + i ∧ off + i < off + bs.length := by omega
  simp [memRead, bufByte_memWrite, h2]

/-- A region apart from a write reads as before. -/
theorem memRead_memWrite_outside (s : State) {off n dst : Nat} {bs : List Byte}
    (h : off + n ≤ dst ∨ dst + bs.length ≤ off) : memRead (memWrite s dst bs) off n = memRead s off n :=
  memRead_congr fun i hi => bufByte_memWrite_outside s (by omega)

/-- A region is its first part followed by its second part. -/
theorem memRead_append (s : State) (off n m : Nat) :
    memRead s off (n + m) = memRead s off n ++ memRead s (off + n) m := by
  apply List.ext_getElem (by simp)
  intro i h1 h2
  simp only [memRead_length, List.length_append] at h1 h2
  by_cases h : i < n
  · simp [memRead, h]
  · have h3 : off + n + (i - n) = off + i := by omega
    simp [memRead, List.getElem_append, h, h3]

/-! ### The canonical form -/

/-- A memory is canonical exactly when its offsets are strictly rising. -/
theorem Memory.wf_iff (m : Memory) : m.wf = true ↔ (m.map Prod.fst).Pairwise (· < ·) := by
  induction m with
  | nil => simp [Memory.wf]
  | cons c rest ih =>
    cases rest with
    | nil => simp [Memory.wf]
    | cons d rest =>
      simp only [Memory.wf, Bool.and_eq_true, decide_eq_true_eq, ih, List.map_cons,
        List.pairwise_cons, List.mem_cons, forall_eq_or_imp]
      constructor
      · rintro ⟨h, h1, h2⟩
        exact ⟨⟨h, fun a ha => Nat.lt_trans h (h1 a ha)⟩, h1, h2⟩
      · rintro ⟨⟨h, -⟩, h1, h2⟩
        exact ⟨h, h1, h2⟩

/-- The offsets a one-byte write lists. -/
theorem Memory.mem_store {m : Memory} {off : Nat} {v : Byte} {c : Host.Cell} (h : c ∈ m.store off v) :
    c.1 = off ∨ c ∈ m := by
  induction m with
  | nil => simp [Memory.store] at h; simp [h]
  | cons d rest ih =>
    obtain ⟨x, b⟩ := d
    simp only [Memory.store] at h
    split at h
    · rcases List.mem_cons.mp h with rfl | h
      · exact .inl rfl
      · exact .inr h
    · split at h
      · rcases List.mem_cons.mp h with rfl | h
        · exact .inl rfl
        · exact .inr (List.mem_cons_of_mem _ h)
      · rcases List.mem_cons.mp h with rfl | h
        · exact .inr (List.mem_cons_self ..)
        · exact (ih h).imp_right (List.mem_cons_of_mem _)

theorem Memory.wf_store {m : Memory} (hm : m.wf = true) (off : Nat) (v : Byte) : (m.store off v).wf = true := by
  rw [Memory.wf_iff] at hm ⊢
  induction m with
  | nil => simp [Memory.store]
  | cons d rest ih =>
    obtain ⟨x, b⟩ := d
    simp only [List.map_cons, List.pairwise_cons] at hm
    simp only [Memory.store]
    split
    · rename_i h
      simp only [List.map_cons, List.pairwise_cons, List.mem_cons, forall_eq_or_imp]
      exact ⟨⟨h, fun a ha => Nat.lt_trans h (hm.1 a ha)⟩, hm⟩
    · split
      · rename_i h1 h2
        subst h2
        simpa using hm
      · rename_i h1 h2
        simp only [List.map_cons, List.pairwise_cons]
        refine ⟨fun a ha => ?_, ih hm.2⟩
        obtain ⟨c, hc, rfl⟩ := List.mem_map.mp ha
        rcases Memory.mem_store hc with h | h
        · simp only [h]; omega
        · exact hm.1 _ (List.mem_map_of_mem h)

/-- Every memory operation keeps the canonical form. -/
theorem Memory.wf_storeBytes (bs : List Byte) : ∀ {m : Memory}, m.wf = true → ∀ off,
    (m.storeBytes off bs).wf = true := by
  induction bs with
  | nil => intro m hm off; exact hm
  | cons b bs ih => intro m hm off; exact ih (Memory.wf_store hm off b) (off + 1)

/-- The offsets a string write lists: its own and the ones listed before. -/
theorem Memory.mem_storeBytes (bs : List Byte) : ∀ {m : Memory} {off : Nat} {c : Host.Cell},
    c ∈ m.storeBytes off bs → (off ≤ c.1 ∧ c.1 < off + bs.length) ∨ c ∈ m := by
  induction bs with
  | nil => intro m off c h; exact .inr h
  | cons b bs ih =>
    intro m off c h
    simp only [List.length_cons]
    rcases ih h with h | h
    · exact .inl (by omega)
    · rcases Memory.mem_store h with h | h
      · exact .inl (by omega)
      · exact .inr h

/-- The memory reset leaves is canonical. -/
theorem Memory.wf_reset : State.reset.buf.wf = true := rfl

end Sys2Proof.Machine
end

