-- ==== Sys2Proof/Laws/Ops.lean ====
section
/-! SUPPORT. What each shared operation can do: the checks, the two ways a command ends, and that every command is
one rule run to its end. -/

namespace Sys2Proof.Machine

/-! ### Checks -/

theorem require_ok_iff {c : Bool} {e : CmdError} {u : Unit} : require c e = .ok u ↔ c = true := by
  cases c <;> simp [require]

theorem require_error_iff {c : Bool} {e e' : CmdError} : require c e = .error e' ↔ c = false ∧ e = e' := by
  cases c <;> simp [require]

@[simp] theorem require_true (e : CmdError) : require true e = .ok () := rfl
@[simp] theorem require_false (e : CmdError) : require false e = .error e := rfl

theorem inBounds_iff (s : State) (off n : Nat) : inBounds s off n = true ↔ off + n ≤ s.env.build.bufBytes := by
  simp [inBounds]

/-- A check that holds lets the rest run. -/
theorem require_bind_of_true {α : Type} {c : Bool} {e : CmdError} {k : Unit → Except CmdError α} (h : c = true) :
    (require c e >>= k) = k () := by
  subst h; rfl

/-- A check that fails reports its own error. -/
theorem require_bind_of_false {α : Type} {c : Bool} {e : CmdError} {k : Unit → Except CmdError α} (h : c = false) :
    (require c e >>= k) = .error e := by
  subst h; rfl

/-- Two checks and what follows: the answer is a value only when the check holds. -/
theorem require_bind_ok {α : Type} {c : Bool} {e : CmdError} {k : Unit → Except CmdError α} {a : α} :
    (require c e >>= k) = .ok a ↔ c = true ∧ k () = .ok a := by
  cases c <;> simp [require, bind, Except.bind]

/-- The error of a check and what follows: its own where it fails, else what follows reports. -/
theorem require_bind_error {α : Type} {c : Bool} {e e' : CmdError} {k : Unit → Except CmdError α} :
    (require c e >>= k) = .error e' ↔ (c = false ∧ e = e') ∨ (c = true ∧ k () = .error e') := by
  cases c <;> simp [require, bind, Except.bind]

/-- Peeling one computation off a rule: it answers a value exactly when both parts do. -/
theorem bind_ok {α β : Type} {x : Except CmdError α} {k : α → Except CmdError β} {b : β} :
    (x >>= k) = .ok b ↔ ∃ a, x = .ok a ∧ k a = .ok b := by
  cases x <;> simp [bind, Except.bind]

/-- Peeling one computation off a rule that fails. -/
theorem bind_error {α β : Type} {x : Except CmdError α} {k : α → Except CmdError β} {e : CmdError} :
    (x >>= k) = .error e ↔ x = .error e ∨ ∃ a, x = .ok a ∧ k a = .error e := by
  cases x <;> simp [bind, Except.bind]

/-- A rule that answers a value answers that value. -/
theorem ok_eq_ok {α : Type} {a b : α} : (Except.ok a : Except CmdError α) = .ok b ↔ b = a := by
  rw [Except.ok.injEq]; exact eq_comm

/-! ### How a command ends -/

theorem finish_of_ok {rule : Rule} {s t : State} (h : rule s = .ok t) : finish rule s = succeed t := by
  simp [finish, h]

theorem finish_of_error {rule : Rule} {s : State} {e : CmdError} (h : rule s = .error e) :
    finish rule s = abort s e := by
  simp [finish, h]

/-- Everything a command's end can be: success of its rule, or the abort with the rule's first error. -/
theorem finish_cases (rule : Rule) (s : State) :
    (∃ t, rule s = .ok t ∧ finish rule s = succeed t) ∨ ∃ e, rule s = .error e ∧ finish rule s = abort s e := by
  cases h : rule s with
  | ok t => exact .inl ⟨t, rfl, finish_of_ok h⟩
  | error e => exact .inr ⟨e, rfl, finish_of_error h⟩

@[simp] theorem settle_eq_next (rule : Rule) (s t : State) : settle rule s = .next t ↔ finish rule s = t := by
  simp [settle]

/-! ### Every command is one rule -/

/-- The rule of each command (rules R145..R305, R331). -/
def ruleOf : Instr → Rule
  | .nop => ruleNop
  | .frameBuild auth outerFec => ruleFrameBuild auth outerFec
  | .frameParse decodeExt verify => ruleFrameParse decodeExt verify
  | .extEncArqSequence => ruleExtEnc arqSequenceArgs
  | .extEncArqRequest => ruleExtEnc arqRequestArgs
  | .extEncArqControl => ruleExtEnc arqControlArgs
  | .extEncArqHandshake => ruleExtEnc arqHandshakeArgs
  | .extEncTddControl => ruleExtEnc tddControlArgs
  | .extEncHmacSequenceReset => ruleExtEnc hmacSequenceResetArgs
  | .extEncRaw type => ruleExtEncRaw type
  | .extDec => ruleExtDec
  | .extDecAll => ruleExtDecAll
  | .golayEnc => ruleGolayEnc
  | .golayDec => ruleGolayDec
  | .golayEncBytes => ruleGolayEncBytes
  | .golayDecBytes => ruleGolayDecBytes
  | .prefixEnc => rulePrefixEnc
  | .prefixDec => rulePrefixDec
  | .keyLoad => ruleKeyLoad
  | .keyClear => ruleKeyClear
  | .authAppend => ruleAuthAppend
  | .authVerify => ruleAuthVerify
  | .macInit => ruleMacInit
  | .macOwnRem => ruleMacOwnRem
  | .macPeerRem => ruleMacPeerRem
  | .macCanSend => ruleMacCanSend
  | .macUpdate => ruleMacUpdate
  | .macSetOwn => ruleMacSetOwn

/-- The state a command's rule starts from: the two table commands empty the table first (rules R152, R195). -/
def startOf (i : Instr) (s : State) : State :=
  match i with
  | .frameParse _ _ | .extDecAll => clearExtTab s
  | _ => s

/-- Everything a command can do: run its rule to its end. -/
theorem exec_eq (i : Instr) (s : State) : exec i s = .next (finish (ruleOf i) (startOf i s)) := by
  cases i <;> rfl

/-- A command that goes on to `t` ended in `t`. -/
theorem exec_eq_next {i : Instr} {s t : State} : exec i s = .next t ↔ finish (ruleOf i) (startOf i s) = t := by
  rw [exec_eq]; exact ⟨fun h => by injection h, fun h => by rw [h]⟩

/-- The start of a command differs from the state only in the table. -/
theorem startOf_cases (i : Instr) (s : State) : startOf i s = s ∨ startOf i s = clearExtTab s := by
  cases i <;> simp [startOf]


/-- A byte of `BUF` depends only on `BUF` and on which reset it was. -/
theorem bufByte_congr {s t : State} (hb : t.buf = s.buf) (hr : t.env.resets = s.env.resets) (a : Nat) :
    bufByte t a = bufByte s a := by
  simp [bufByte, unwrittenByte, hb, hr]

end Sys2Proof.Machine
end

