-- ==== Sys2Proof/Laws/Bus.lean ====
section
/-! SUPPORT. The host port and the cycle: where each address leads, and everything one operation of them can do. -/

namespace Sys2Proof.Machine

/-! ### Addresses

`simp` writes a literal address as `0x00008#17` before it looks for a lemma; in `rw` and `simp only` use
`show accessTarget b .w32 0x00008 = some (.csr .status) from rfl`. -/

@[simp] theorem accessTarget_id (b : Build) : accessTarget b .w32 0x00000#17 = some (.csr .id) := rfl
@[simp] theorem accessTarget_caps (b : Build) : accessTarget b .w32 0x00004#17 = some (.csr .caps) := rfl
@[simp] theorem accessTarget_status (b : Build) : accessTarget b .w32 0x00008#17 = some (.csr .status) := rfl
@[simp] theorem accessTarget_sticky (b : Build) : accessTarget b .w32 0x0000C#17 = some (.csr .sticky) := rfl
@[simp] theorem accessTarget_cmd (b : Build) : accessTarget b .w32 0x00010#17 = some (.csr .cmd) := rfl
@[simp] theorem accessTarget_extCount (b : Build) : accessTarget b .w32 0x00060#17 = some (.csr .extCount) := rfl
@[simp] theorem accessTarget_macEpoch (b : Build) : accessTarget b .w32 0x00070#17 = some (.csr .macEpoch) := rfl
@[simp] theorem accessTarget_macLen (b : Build) : accessTarget b .w32 0x00074#17 = some (.csr .macLen) := rfl
@[simp] theorem accessTarget_macGt (b : Build) : accessTarget b .w32 0x00078#17 = some (.csr .macGt) := rfl
@[simp] theorem accessTarget_macCycle (b : Build) : accessTarget b .w32 0x0007C#17 = some (.csr .macCycle) := rfl
@[simp] theorem accessTarget_macLast (b : Build) : accessTarget b .w32 0x00080#17 = some (.csr .macLast) := rfl

@[simp] theorem accessTarget_arg (b : Build) (i : Fin 8) :
    accessTarget b .w32 (argAddr i) = some (.csr (.arg i)) := by
  match i with
  | 0 | 1 | 2 | 3 | 4 | 5 | 6 | 7 => rfl

theorem accessTarget_res (b : Build) (i : Fin 8) :
    accessTarget b .w32 (BitVec.ofNat 17 (0x040 + 4 * i.val)) = some (.csr (.res i)) := by
  match i with
  | 0 | 1 | 2 | 3 | 4 | 5 | 6 | 7 => rfl

/-- The only address of `CMD` is 0x010, as a 32-bit access (rule R35). -/
theorem accessTarget_eq_cmd {b : Build} {width : Width} {addr : BitVec 17} :
    accessTarget b width addr = some (.csr .cmd) ↔ width = .w32 ∧ addr = 0x00010 := by
  constructor
  · intro h
    unfold accessTarget at h
    simp only at h
    split at h
    · split at h
      · rename_i h1 h2
        refine ⟨h2.1, ?_⟩
        have h3 : csrAt addr.toNat = some .cmd := by
          cases hc : csrAt addr.toNat with
          | none => simp [hc] at h
          | some c => simpa [hc] using h
        have h4 : addr.toNat = 0x010 := by
          unfold csrAt at h3
          split at h3 <;> first
            | assumption
            | (exfalso; simp at h3; done)
            | (exfalso; split at h3
               · simp at h3
               · split at h3 <;> simp at h3)
        apply BitVec.eq_of_toNat_eq
        simpa using h4
      · simp at h
    · split at h
      · split at h <;> simp at h
      · split at h <;> simp at h
  · rintro ⟨rfl, rfl⟩; rfl

theorem issuesCommand_iff {width : Width} {addr : BitVec 17} {s : State} :
    issuesCommand width addr s = true ↔ s.busy = false ∧ width = .w32 ∧ addr = 0x00010 := by
  simp [issuesCommand, accessTarget_eq_cmd]

/-- A byte of `BUF` in range is where rule R81 puts it. -/
theorem bufAddr_toNat {i : Nat} (h : i < 2 ^ 16) : (bufAddr i).toNat = 0x10000 + i := by
  simp only [bufAddr, BitVec.toNat_ofNat]; omega

/-- An aligned access inside `BUF` reaches `BUF` (rules R81, R85). -/
theorem accessTarget_buf {b : Build} {width : Width} {i : Nat} (ha : i % widthBytes width = 0)
    (hi : i + widthBytes width ≤ b.bufBytes) : accessTarget b width (bufAddr i) = some (.buf i) := by
  have hb := b.bufBytes_range
  have hw : 1 ≤ widthBytes width := by cases width <;> decide
  have hn : (bufAddr i).toNat = 0x10000 + i := bufAddr_toNat (by omega)
  have hm : (0x10000 + i) % widthBytes width = 0 := by
    cases width <;> simp only [widthBytes] at ha ⊢ <;> omega
  simp only [accessTarget, hn]
  rw [if_neg (by omega), if_neg (by omega), if_pos ⟨by omega, hm, by omega⟩]
  simp

/-! ### Commands and cycles always go on -/

/-- Everything a command word can do: run its command, or abort with the error of decode (rules R112, R330). -/
theorem runCommand_cases (w : Word) (s : State) :
    (∃ i, decode w = .ok i ∧ runCommand w s = exec i s)
      ∨ ∃ e, decode w = .error e ∧ runCommand w s = .next (abort s e) := by
  cases h : decode w with
  | ok i => exact .inl ⟨i, rfl, by simp [runCommand, h]⟩
  | error e => exact .inr ⟨e, rfl, by simp [runCommand, h]⟩

/-- Everything an accepted `CMD` write can do (rules R40, R330, R383). -/
theorem issue_cases (w : Word) (s : State) :
    (commandLatency w (s.setCmdReg w) = 0 ∧ issue w s = runCommand w (s.setCmdReg w))
      ∨ ∃ n, commandLatency w (s.setCmdReg w) = n + 1
        ∧ issue w s = .next (((s.setCmdReg w).setBusy true).setEnv { s.env with cyclesLeft := n + 1 }) := by
  cases h : commandLatency w (s.setCmdReg w) with
  | zero => exact .inl ⟨rfl, by simp [issue, h]⟩
  | succ n => exact .inr ⟨n, rfl, by simp [issue, h]⟩

/-- Everything the end of a cycle can do (rules R53, R330). -/
theorem endCycle_cases (s : State) :
    (s.busy = false ∧ endCycle s = .next s)
      ∨ (s.busy = true ∧ 1 < s.env.cyclesLeft
        ∧ endCycle s = .next (s.setEnv { s.env with cyclesLeft := s.env.cyclesLeft - 1 }))
      ∨ (s.busy = true ∧ s.env.cyclesLeft ≤ 1
        ∧ endCycle s = runCommand s.cmdReg ((s.setBusy false).setEnv { s.env with cyclesLeft := 0 })) := by
  cases h : s.busy with
  | false => exact .inl ⟨rfl, by simp [endCycle, h]⟩
  | true =>
    by_cases hc : s.env.cyclesLeft ≤ 1
    · exact .inr (.inr ⟨rfl, hc, by simp [endCycle, h, hc]⟩)
    · exact .inr (.inl ⟨rfl, by omega, by simp [endCycle, h, hc]⟩)

/-- Everything a step can do: reset, an accepted `CMD` write, or at most one other access and the end of the
cycle. -/
theorem step_cases (s : State) :
    (∃ rest, s.env.bus = .reset :: rest ∧ step s = .next (resetPulse (takeEvent s rest)))
      ∨ (∃ w rest, s.busy = false ∧ s.env.bus = .access (.write .w32 0x00010 w) :: rest
        ∧ step s = issue w (accepted (takeEvent s rest)))
      ∨ ∃ t, step s = endCycle t
        ∧ (t = s ∨ (∃ rest, t = takeEvent s rest)
          ∨ (∃ width addr, t = hostRead width addr s
              ∨ ∃ rest, t = hostRead width addr (takeEvent s rest))
          ∨ ∃ width addr data rest, issuesCommand width addr s = false
            ∧ t = hostWrite width addr data (takeEvent s rest)) := by
  unfold step cycle
  cases hb : s.env.bus with
  | nil => exact .inr (.inr ⟨s, rfl, .inl rfl⟩)
  | cons e rest =>
    cases e with
    | idle => exact .inr (.inr ⟨_, rfl, .inr (.inl ⟨rest, rfl⟩)⟩)
    | reset => exact .inl ⟨rest, rfl, rfl⟩
    | poll =>
      refine .inr (.inr ⟨_, rfl, .inr (.inr (.inl ⟨.w32, statusAddr, ?_⟩))⟩)
      cases hs : s.busy with
      | true => exact .inl (by simp)
      | false => exact .inr ⟨rest, by simp⟩
    | access a =>
      cases a with
      | read width addr => exact .inr (.inr ⟨_, rfl, .inr (.inr (.inl ⟨width, addr, .inr ⟨rest, rfl⟩⟩))⟩)
      | write width addr data =>
        cases hi : issuesCommand width addr s with
        | true =>
          obtain ⟨h1, rfl, rfl⟩ := issuesCommand_iff.mp hi
          exact .inr (.inl ⟨data, rest, h1, rfl, by simp only [hi, if_true]⟩)
        | false =>
          exact .inr (.inr ⟨_, by simp only [hi]; rfl,
            .inr (.inr (.inr ⟨width, addr, data, rest, hi, rfl⟩))⟩)

/-! ### Host accesses -/

/-- Everything a host read can do (rules R86, R88, R379). -/
theorem hostRead_cases (width : Width) (addr : BitVec 17) (s : State) :
    (accessTarget s.env.build width addr = none
        ∧ hostRead width addr s = deliver (refuseAccess s) 0)
      ∨ ∃ t, accessTarget s.env.build width addr = some t
        ∧ ((s.busy = true ∧ commandWritten t = true
            ∧ hostRead width addr s = s.setEnv { s.env with
                errResponse := false, readData := busyValue s width t, draws := s.env.draws + 1 })
          ∨ ((s.busy = false ∨ commandWritten t = false)
            ∧ hostRead width addr s = deliver (accepted s) (targetValue s width t))) := by
  cases ht : accessTarget s.env.build width addr with
  | none => exact .inl ⟨rfl, by simp [hostRead, ht]⟩
  | some t =>
    refine .inr ⟨t, rfl, ?_⟩
    cases hb : s.busy <;> cases hc : commandWritten t <;> simp [hostRead, ht, hb, hc]

/-- Everything a host write can do, but for an accepted `CMD` write (rules R39, R41, R84, R86, R378). -/
theorem hostWrite_cases (width : Width) (addr : BitVec 17) (data : Word) (s : State) :
    hostWrite width addr data s = refuseAccess s
      ∨ hostWrite width addr data s = hazard (accepted s)
      ∨ hostWrite width addr data s = (accepted s).setSticky (stickyAfterWrite s.sticky data)
      ∨ (∃ i, s.busy = false ∧ hostWrite width addr data s = (accepted s).setArg (s.arg.set i data))
      ∨ ∃ off, s.busy = false ∧ accessTarget s.env.build width addr = some (.buf off)
        ∧ hostWrite width addr data s
          = memWrite (accepted s) off (bytesOfWord (widthBytes width) data) := by
  unfold hostWrite
  cases ht : accessTarget s.env.build width addr with
  | none => exact .inl rfl
  | some t =>
    cases t with
    | csr c =>
      cases c with
      | arg i =>
        cases hb : s.busy with
        | false => exact .inr (.inr (.inr (.inl ⟨i, rfl, by simp⟩)))
        | true => exact .inr (.inl (by simp))
      | _ => simp
    | extTab i k => exact .inl rfl
    | buf off => cases hb : s.busy <;> simp

/-- What no host read changes of the cycle: the command in flight and the events to come. -/
theorem hostRead_cycle (width : Width) (addr : BitVec 17) (s : State) :
    (hostRead width addr s).busy = s.busy ∧ (hostRead width addr s).cmdReg = s.cmdReg
      ∧ (hostRead width addr s).env.cyclesLeft = s.env.cyclesLeft
      ∧ (hostRead width addr s).env.bus = s.env.bus := by
  rcases hostRead_cases width addr s with ⟨-, h⟩ | ⟨t, -, ⟨-, -, h⟩ | ⟨-, h⟩⟩ <;> rw [h] <;>
    exact ⟨rfl, rfl, rfl, rfl⟩

/-- The same for a host write, but for an accepted `CMD` write. -/
theorem hostWrite_cycle (width : Width) (addr : BitVec 17) (data : Word) (s : State) :
    (hostWrite width addr data s).busy = s.busy ∧ (hostWrite width addr data s).cmdReg = s.cmdReg
      ∧ (hostWrite width addr data s).env.cyclesLeft = s.env.cyclesLeft
      ∧ (hostWrite width addr data s).env.bus = s.env.bus := by
  rcases hostWrite_cases width addr data s with h | h | h | ⟨i, -, h⟩ | ⟨off, -, -, h⟩ <;> rw [h] <;>
    exact ⟨rfl, rfl, rfl, rfl⟩

/-- An access that reaches `BUF` lies inside it (rule R85). -/
theorem accessTarget_buf_inside {b : Build} {width : Width} {addr : BitVec 17} {off : Nat}
    (h : accessTarget b width addr = some (.buf off)) : off + widthBytes width ≤ b.bufBytes := by
  unfold accessTarget at h
  simp only at h
  split at h
  · split at h
    · cases hc : csrAt addr.toNat <;> simp [hc] at h
    · simp at h
  · split at h
    · split at h <;> simp at h
    · split at h
      · rename_i h3
        simp at h
        omega
      · simp at h

end Sys2Proof.Machine
end

