-- ==== Sys2Proof/Laws/Commands.lean ====
section
/-! SUPPORT. One specification lemma per rule: when a command's rule answers a state, and which one. -/

namespace Sys2Proof.Machine

/-! ### Extension records -/

theorem ruleExtEnc_ok_iff {rec : State → ExtRecord} {s t : State} :
    ruleExtEnc rec s = .ok t ↔
      offsetOf s.arg.r2 + (rec s).encode.length ≤ s.env.build.bufBytes
        ∧ t = (memWrite s (offsetOf s.arg.r2) (rec s).encode).setRes
            { r0 := countWord (rec s).encode.length } := by
  simp only [ruleExtEnc, checkDst, require_bind_ok, inBounds_iff, ok_eq_ok]

theorem ruleExtEncRaw_ok_iff {type : BitVec 4} {s t : State} :
    ruleExtEncRaw type s = .ok t ↔
      let src := regionOf s.arg.r3
      src.off + src.n ≤ s.env.build.bufBytes ∧ src.n ≤ 15
        ∧ offsetOf s.arg.r2 + (1 + src.n) ≤ s.env.build.bufBytes
        ∧ t = (memWrite s (offsetOf s.arg.r2) (recordHeader src.n type :: memRead s src.off src.n)).setRes
            { r0 := countWord (1 + src.n) } := by
  simp only [ruleExtEncRaw, checkSrc, checkDst, require_bind_ok, inBounds_iff, decide_eq_true_eq,
    ok_eq_ok]

theorem ruleExtDec_ok_iff {s t : State} :
    ruleExtDec s = .ok t ↔
      let blob := regionOf s.arg.r0
      blob.off + blob.n ≤ s.env.build.bufBytes
        ∧ ∃ r c, decodeRecord s blob.off blob.n = .ok (r, c)
          ∧ t = s.setRes { r0 := (r.words blob.off).w0, r1 := (r.words blob.off).w1
                           r2 := (r.words blob.off).w2, r3 := countWord c } := by
  simp only [ruleExtDec, checkSrc, bind_ok, require_ok_iff, exists_const, inBounds_iff, ok_eq_ok, Prod.exists]

theorem ruleExtDecAll_ok_iff {s t : State} :
    ruleExtDecAll s = .ok t ↔
      let blob := regionOf s.arg.r0
      blob.off + blob.n ≤ s.env.build.bufBytes ∧ blob.n ≤ 255
        ∧ ∃ recs, decodeAll s blob.off blob.n = .ok recs
          ∧ t = (s.setExtTab recs).setRes { r0 := countWord recs.length } := by
  simp only [ruleExtDecAll, checkSrc, bind_ok, require_ok_iff, exists_const, inBounds_iff, decide_eq_true_eq,
    ok_eq_ok]
  rfl

/-! ### Golay and prefix -/

theorem ruleGolayDec_ok_iff {s t : State} :
    ruleGolayDec s = .ok t ↔
      ∃ g, golayDecode s.env.build.golayB (received24Of s.arg.r0) = .ok g ∧ t = s.setRes (golayResults g) := by
  simp only [ruleGolayDec, bind_ok, ok_eq_ok]

theorem ruleGolayEncBytes_ok_iff {s t : State} :
    ruleGolayEncBytes s = .ok t ↔
      offsetOf s.arg.r1 + 3 ≤ s.env.build.bufBytes
        ∧ t = writeTriple s (offsetOf s.arg.r1) (golayEncode s.env.build.golayB (data12Of s.arg.r0)) := by
  simp only [ruleGolayEncBytes, checkDst, require_bind_ok, inBounds_iff, ok_eq_ok]

theorem decodeTripleAt_ok_iff {s : State} {src : Nat} {g : GolayResult} :
    decodeTripleAt s src = .ok g ↔
      src + 3 ≤ s.env.build.bufBytes ∧ golayDecode s.env.build.golayB (untriple (memRead s src 3)) = .ok g := by
  simp only [decodeTripleAt, checkSrc, require_bind_ok, inBounds_iff]

theorem ruleGolayDecBytes_ok_iff {s t : State} :
    ruleGolayDecBytes s = .ok t ↔
      ∃ g, decodeTripleAt s (offsetOf s.arg.r0) = .ok g ∧ t = s.setRes (golayResults g) := by
  simp only [ruleGolayDecBytes, bind_ok, ok_eq_ok]

theorem rulePrefixEnc_ok_iff {s t : State} :
    rulePrefixEnc s = .ok t ↔
      offsetOf s.arg.r1 + 3 ≤ s.env.build.bufBytes
        ∧ (data12Of s.arg.r0).getLsbD 11 = false ∧ (data12Of s.arg.r0).getLsbD 8 = true
        ∧ t = writeTriple s (offsetOf s.arg.r1) (golayEncode s.env.build.golayB (data12Of s.arg.r0)) := by
  simp only [rulePrefixEnc, checkDst, require_bind_ok, inBounds_iff, Bool.not_eq_true', ok_eq_ok]

theorem rulePrefixDec_ok_iff {s t : State} :
    rulePrefixDec s = .ok t ↔
      ∃ g, decodeTripleAt s (offsetOf s.arg.r0) = .ok g ∧ g.data.getLsbD 11 = false
        ∧ t = s.setRes (golayResults g) := by
  simp only [rulePrefixDec, bind_ok, require_ok_iff, exists_const, Bool.not_eq_true', ok_eq_ok]

/-! ### The key and the trailer -/

theorem ruleKeyLoad_ok_iff {s t : State} :
    ruleKeyLoad s = .ok t ↔
      offsetOf s.arg.r0 + 32 ≤ s.env.build.bufBytes
        ∧ t = (s.setKey (keyAt s (offsetOf s.arg.r0)) true).setRes {} := by
  simp only [ruleKeyLoad, checkSrc, require_bind_ok, inBounds_iff, Config.keyBytes, ok_eq_ok]

theorem authAppendChecks_ok_iff {s : State} {u : Unit} :
    authAppendChecks s = .ok u ↔
      let r := regionOf s.arg.r0
      r.off + r.n ≤ s.env.build.bufBytes ∧ s.keyValid = true
        ∧ r.off + r.n + s.env.build.T ≤ s.env.build.bufBytes := by
  simp only [authAppendChecks, checkSrc, checkDst, requireKey, require_bind_ok, require_ok_iff, inBounds_iff]

theorem ruleAuthAppend_ok_iff {s t : State} :
    ruleAuthAppend s = .ok t ↔
      let r := regionOf s.arg.r0
      r.off + r.n ≤ s.env.build.bufBytes ∧ s.keyValid = true
        ∧ r.off + r.n + s.env.build.T ≤ s.env.build.bufBytes
        ∧ t = (memWrite s (r.off + r.n) (digest s.env.build s.key (memRead s r.off r.n))).setRes
            { r0 := countWord (r.n + s.env.build.T) } := by
  simp only [ruleAuthAppend, bind_ok, authAppendChecks_ok_iff, ok_eq_ok, exists_const, and_assoc]

theorem authVerifyChecks_ok_iff {s : State} {u : Unit} :
    authVerifyChecks s = .ok u ↔
      let r := regionOf s.arg.r0
      r.off + r.n ≤ s.env.build.bufBytes ∧ s.keyValid = true ∧ s.env.build.T ≤ r.n := by
  simp only [authVerifyChecks, checkSrc, requireKey, require_bind_ok, require_ok_iff, inBounds_iff,
    decide_eq_true_eq]

theorem trailerMatches_iff {s : State} {off n : Nat} :
    trailerMatches s off n = true ↔
      digest s.env.build s.key (memRead s off (n - s.env.build.T))
        = memRead s (off + n - s.env.build.T) s.env.build.T := by
  simp [trailerMatches, ctEqual]

theorem ruleAuthVerify_ok_iff {s t : State} :
    ruleAuthVerify s = .ok t ↔
      let r := regionOf s.arg.r0
      r.off + r.n ≤ s.env.build.bufBytes ∧ s.keyValid = true ∧ s.env.build.T ≤ r.n
        ∧ trailerMatches s r.off r.n = true
        ∧ t = s.setRes { r0 := countWord (r.n - s.env.build.T) } := by
  simp only [ruleAuthVerify, bind_ok, require_ok_iff, authVerifyChecks_ok_iff, ok_eq_ok, exists_const,
    and_assoc]

/-! ### Frames -/

theorem frameBuildChecks_ok_iff {auth outerFec : Bool} {s : State} {u : Unit} :
    frameBuildChecks auth outerFec s = .ok u ↔
      let size := s.env.build.bufBytes
      let ident := regionOf s.arg.r0
      let payload := regionOf s.arg.r1
      let ext := regionOf s.arg.r2
      ident.off + ident.n ≤ size ∧ payload.off + payload.n ≤ size ∧ ext.off + ext.n ≤ size
        ∧ (auth = true → s.keyValid = true) ∧ ident.n ≠ 0 ∧ ident.n ≤ 7 ∧ ext.n ≤ 255
        ∧ (frameArgsOf s.arg.r3).vc.toNat ≤ 3 ∧ (outerFec = true → frameTotal auth s ≤ 255)
        ∧ offsetOf s.arg.r4 + frameTotal auth s ≤ size := by
  have key : ∀ b c : Bool, (!b || c) = true ↔ (b = true → c = true) := by decide
  simp only [frameBuildChecks, checkSrc, checkDst, require_bind_ok, require_ok_iff, inBounds_iff, key,
    decide_eq_true_eq]
  rfl

theorem ruleFrameBuild_ok_iff {auth outerFec : Bool} {s t : State} :
    ruleFrameBuild auth outerFec s = .ok t ↔
      frameBuildChecks auth outerFec s = .ok ()
        ∧ t = (memWrite s (offsetOf s.arg.r4) (builtFrame auth s)).setRes
            { r0 := countWord (frameTotal auth s) } := by
  simp only [ruleFrameBuild, bind_ok, ok_eq_ok]
  exact ⟨fun ⟨_, h, h'⟩ => ⟨h, h'⟩, fun ⟨h, h'⟩ => ⟨(), h, h'⟩⟩

theorem frameHeader_ok_iff {verify : Bool} {s : State} {h : FrameHeader} :
    frameHeader verify s = .ok h ↔
      let r := regionOf s.arg.r0
      r.off + r.n ≤ s.env.build.bufBytes ∧ (verify = true → s.keyValid = true) ∧ 1 ≤ r.n
        ∧ h = headerFields s.env.build (memRead s r.off r.n)
        ∧ h.version = 12 ∧ h.identLen.toNat ≠ 0 ∧ 5 + h.identLen.toNat ≤ r.n
        ∧ 0 ≤ payloadLen s.env.build r.n h.identLen.toNat h.extensionLen.toNat h.authenticated
        ∧ h.hasPayload = decide (0 < h.payloadLen) := by
  have key : ∀ b c : Bool, (!b || c) = true ↔ (b = true → c = true) := by decide
  simp only [frameHeader, checkSrc, require_bind_ok, inBounds_iff, key, decide_eq_true_eq, beq_iff_eq,
    Except.ok.injEq]
  constructor
  · rintro ⟨h1, h2, h3, h4, h5, h6, h7, h8, rfl⟩
    exact ⟨h1, h2, h3, rfl, h4, h5, h6, h7, h8⟩
  · rintro ⟨h1, h2, h3, rfl, h4, h5, h6, h7, h8⟩
    exact ⟨h1, h2, h3, h4, h5, h6, h7, h8, rfl⟩

theorem frameVerified_ok_iff {verify : Bool} {h : FrameHeader} {s : State} {v : Bool} :
    frameVerified verify h s = .ok v ↔
      (h.authenticated = true → verify = true →
        trailerMatches s (regionOf s.arg.r0).off (regionOf s.arg.r0).n = true)
        ∧ v = (h.authenticated && verify) := by
  have key : ∀ a b c : Bool, (!(a && b) || c) = true ↔ (a = true → b = true → c = true) := by decide
  simp only [frameVerified, require_bind_ok, key, ok_eq_ok]

theorem ruleFrameParse_ok_iff {decodeExt verify : Bool} {s t : State} :
    ruleFrameParse decodeExt verify s = .ok t ↔
      ∃ h v recs, frameHeader verify s = .ok h ∧ frameVerified verify h s = .ok v
        ∧ frameRecords decodeExt h s = .ok recs
        ∧ t = (s.setExtTab recs).setRes (frameResults s.env.build (regionOf s.arg.r0).off
            (regionOf s.arg.r0).n h v decodeExt recs.length) := by
  simp only [ruleFrameParse, bind_ok, Except.ok.injEq]
  constructor
  · rintro ⟨h, h1, v, h2, recs, h3, h4⟩
    exact ⟨h, v, recs, h1, h2, h3, h4.symm⟩
  · rintro ⟨h, v, recs, h1, h2, h3, h4⟩
    exact ⟨h, h1, v, h2, recs, h3, h4.symm⟩

/-! ### The MAC scheduler -/

theorem ruleMacInit_ok_iff {s t : State} :
    ruleMacInit s = .ok t ↔ (macInitState s).cycle ≠ 0
      ∧ t = (s.setMac (macInitState s)).setRes { r0 := countWord (macInitState s).cycle } := by
  simp only [ruleMacInit, require_bind_ok, decide_eq_true_eq, ok_eq_ok]

theorem ruleMacOwnRem_ok_iff {s t : State} :
    ruleMacOwnRem s = .ok t ↔ s.mac.valid = true
      ∧ t = s.setRes { r0 := sext32 (ownRem s.mac (tickOf s.arg.r0)) } := by
  simp only [ruleMacOwnRem, requireMac, require_bind_ok, ok_eq_ok]

theorem ruleMacPeerRem_ok_iff {s t : State} :
    ruleMacPeerRem s = .ok t ↔ s.mac.valid = true
      ∧ t = s.setRes { r0 := sext32 (peerRem s.mac (tickOf s.arg.r0)) } := by
  simp only [ruleMacPeerRem, requireMac, require_bind_ok, ok_eq_ok]

theorem ruleMacCanSend_ok_iff {s t : State} :
    ruleMacCanSend s = .ok t ↔ s.mac.valid = true
      ∧ t = s.setRes { r0 := flagBit 0 (canSend s.mac (tickOf s.arg.r0)) } := by
  simp only [ruleMacCanSend, requireMac, require_bind_ok, ok_eq_ok]

theorem ruleMacUpdate_ok_iff {s t : State} :
    ruleMacUpdate s = .ok t ↔ s.mac.valid = true ∧ (macUpdateState s).cycle ≠ 0
      ∧ t = (s.setMac (macUpdateState s)).setRes { r0 := (macUpdateState s).epoch.setWidth 32 } := by
  simp only [ruleMacUpdate, requireMac, require_bind_ok, decide_eq_true_eq, ok_eq_ok]

theorem ruleMacSetOwn_ok_iff {s t : State} :
    ruleMacSetOwn s = .ok t ↔ s.mac.valid = true ∧ (macSetOwnState s).cycle ≠ 0
      ∧ t = (s.setMac (macSetOwnState s)).setRes { r0 := countWord (macSetOwnState s).cycle } := by
  simp only [ruleMacSetOwn, requireMac, require_bind_ok, decide_eq_true_eq, ok_eq_ok]

end Sys2Proof.Machine
end

