-- ==== Sys2Proof/Laws/Extension.lean ====
section
/-! SUPPORT. Extension records: what one record decodes to, and that an encoded record decodes to itself. -/

namespace Sys2Proof.Machine

/-! ### Bytes and words -/

@[simp] theorem bytesOfWord_length (n : Nat) (w : Word) : (bytesOfWord n w).length = n := by
  simp [bytesOfWord]

theorem bytesOfWord_two (w : Word) : bytesOfWord 2 w = [w.extractLsb' 8 8, w.extractLsb' 0 8] := rfl

theorem bytesOfWord_three (w : Word) :
    bytesOfWord 3 w = [w.extractLsb' 16 8, w.extractLsb' 8 8, w.extractLsb' 0 8] := rfl

theorem bytesOfWord_four (w : Word) :
    bytesOfWord 4 w
      = [w.extractLsb' 24 8, w.extractLsb' 16 8, w.extractLsb' 8 8, w.extractLsb' 0 8] := rfl

/-- One more byte of a big-endian word: the bits of the bytes before it move up by 8. -/
theorem shiftIn_getLsbD (w : Word) (b : Byte) (i : Nat) (hi : i < 32) :
    ((w <<< 8) ||| b.setWidth 32).getLsbD i = if i < 8 then b.getLsbD i else w.getLsbD (i - 8) := by
  simp only [BitVec.getLsbD_or, BitVec.getLsbD_shiftLeft, BitVec.getLsbD_setWidth, hi, decide_true,
    Bool.true_and]
  by_cases h : i < 8
  · simp [h]
  · simp [h, BitVec.getLsbD_of_ge b i (by omega)]

theorem wordOfBytes_two (a b : Byte) : wordOfBytes [a, b] = 0#16 ++ a ++ b := by
  apply BitVec.eq_of_getLsbD_eq
  intro i hi
  simp only [wordOfBytes, List.foldl_cons, List.foldl_nil, shiftIn_getLsbD _ _ i hi, BitVec.getLsbD_append]
  by_cases h1 : i < 8
  · simp [h1]
  · rw [if_neg h1, shiftIn_getLsbD _ _ _ (by omega)]
    by_cases h2 : i - 8 < 8 <;> simp [h1, h2]

theorem wordOfBytes_four (a b c d : Byte) : wordOfBytes [a, b, c, d] = a ++ b ++ c ++ d := by
  apply BitVec.eq_of_getLsbD_eq
  intro i hi
  simp only [wordOfBytes, List.foldl_cons, List.foldl_nil, shiftIn_getLsbD _ _ i hi, BitVec.getLsbD_append]
  by_cases h1 : i < 8
  · simp [h1]
  · rw [if_neg h1, shiftIn_getLsbD _ _ _ (by omega)]
    by_cases h2 : i - 8 < 8
    · simp [h1, h2]
    · rw [if_neg h2, shiftIn_getLsbD _ _ _ (by omega)]
      by_cases h3 : i - 8 - 8 < 8
      · simp [h1, h2, h3]
      · rw [if_neg h3, shiftIn_getLsbD _ _ _ (by omega)]
        simp [h1, h2, h3, show i - 8 - 8 - 8 < 8 by omega]

/-- The two bytes of a 16-bit value, put together again. -/
theorem halves_append (w : BitVec 16) :
    (w.setWidth 32).extractLsb' 8 8 ++ (w.setWidth 32).extractLsb' 0 8 = w := by
  apply BitVec.eq_of_getLsbD_eq
  intro i hi
  simp only [BitVec.getLsbD_append, BitVec.getLsbD_extractLsb', BitVec.getLsbD_setWidth]
  by_cases h : i < 8
  · simp [h, show i < 32 by omega]
  · simp [h, show i - 8 < 8 by omega, show 8 + (i - 8) = i by omega, show i < 32 by omega]

/-- A 16-bit value survives its big-endian bytes. -/
theorem wordOfBytes_bytesOfWord_two (w : BitVec 16) :
    (wordOfBytes (bytesOfWord 2 (w.setWidth 32))).setWidth 16 = w := by
  rw [bytesOfWord_two, wordOfBytes_two]
  apply BitVec.eq_of_getLsbD_eq
  intro i hi
  simp only [BitVec.getLsbD_setWidth, BitVec.getLsbD_append, BitVec.getLsbD_extractLsb']
  by_cases h : i < 8
  · simp [h, hi, show i < 32 by omega]
  · simp [h, hi, show i - 8 < 8 by omega, show 8 + (i - 8) = i by omega, show i < 32 by omega]

/-- A word survives its big-endian bytes. -/
theorem wordOfBytes_bytesOfWord_four (w : Word) : wordOfBytes (bytesOfWord 4 w) = w := by
  rw [bytesOfWord_four, wordOfBytes_four]
  apply BitVec.eq_of_getLsbD_eq
  intro i hi
  simp only [BitVec.getLsbD_append, BitVec.getLsbD_extractLsb']
  by_cases h1 : i < 8
  · simp [h1]
  · by_cases h2 : i - 8 < 8
    · simp [h1, h2, show 8 + (i - 8) = i by omega]
    · by_cases h3 : i - 8 - 8 < 8
      · simp [h1, h2, h3, show 16 + (i - 8 - 8) = i by omega]
      · simp [h1, h2, h3, show i - 8 - 8 - 8 < 8 by omega, show 24 + (i - 8 - 8 - 8) = i by omega]

/-! ### One record -/

/-- When a record decodes, to what, and how many bytes it takes (rule R191). -/
theorem decodeRecord_ok_iff {s : State} {off avail : Nat} {r : ExtRecord} {c : Nat} :
    decodeRecord s off avail = .ok (r, c) ↔
      let h := bufByte s off
      let len := (h.extractLsb' 4 4).toNat
      1 + len ≤ avail ∧ (typeKnown (h.extractLsb' 0 4) = true → len = dataLen (h.extractLsb' 0 4))
        ∧ r = recordOf (h.extractLsb' 0 4) (memRead s (off + 1) len) ∧ c = 1 + len := by
  have key : ∀ b c : Bool, (!b || c) = true ↔ (b = true → c = true) := by decide
  simp only [decodeRecord, require_bind_ok, decide_eq_true_eq, key, beq_iff_eq, ok_eq_ok, Prod.mk.injEq]
  constructor
  · rintro ⟨-, h⟩; exact h
  · rintro ⟨h, h'⟩; exact ⟨by omega, h, h'⟩

/-- Why a record does not decode (rule R191): truncated, or a known type with a wrong length. -/
theorem decodeRecord_error_iff {s : State} {off avail : Nat} {e : CmdError} :
    decodeRecord s off avail = .error e ↔
      let h := bufByte s off
      let len := (h.extractLsb' 4 4).toNat
      (avail < 1 + len ∧ e = .recordTruncated)
        ∨ (1 + len ≤ avail ∧ typeKnown (h.extractLsb' 0 4) = true ∧ len ≠ dataLen (h.extractLsb' 0 4)
          ∧ e = .recordLengthWrong) := by
  simp only [decodeRecord, require_bind_error, reduceCtorEq, and_false, or_false]
  constructor
  · rintro (⟨h, rfl⟩ | ⟨-, ⟨h, rfl⟩ | ⟨h, h2, rfl⟩⟩)
    · exact .inl ⟨by simp at h; omega, rfl⟩
    · exact .inl ⟨by simpa using h, rfl⟩
    · simp only [Bool.or_eq_false_iff, Bool.not_eq_false', beq_eq_false_iff_ne] at h2
      exact .inr ⟨by simpa using h, h2.1, h2.2, rfl⟩
  · rintro (⟨h, rfl⟩ | ⟨h, h1, h2, rfl⟩)
    · by_cases h0 : 1 ≤ avail
      · exact .inr ⟨by simpa using h0, .inl ⟨by simpa using h, rfl⟩⟩
      · exact .inl ⟨by simpa using h0, rfl⟩
    · exact .inr ⟨by simp; omega, .inr ⟨by simpa using h, by
        simp only [Bool.or_eq_false_iff, Bool.not_eq_false', beq_eq_false_iff_ne]; exact ⟨h1, h2⟩, rfl⟩⟩

/-- The loop decodes no more records than it has fuel (rule R194: at most one per byte). -/
theorem decodeRecords_length {s : State} : ∀ {fuel off left : Nat} {recs : List ExtWords},
    decodeRecords s fuel off left = .ok recs → recs.length ≤ fuel := by
  intro fuel
  induction fuel with
  | zero => intro off left recs h; simp only [decodeRecords, ok_eq_ok] at h; simp [h]
  | succ n ih =>
    intro off left recs h
    simp only [decodeRecords] at h
    split at h
    · simp only [ok_eq_ok] at h; simp [h]
    · obtain ⟨⟨r, c⟩, -, h⟩ := bind_ok.mp h
      obtain ⟨rest, hr, h⟩ := bind_ok.mp h
      rw [ok_eq_ok] at h
      subst h
      simpa using ih hr

/-! ### Encoded records -/

/-- The data of a record that can stand on the wire fits its 4-bit length, and a known type has its own length
(rules R119, R120). -/
theorem data_length {r : ExtRecord} (h : r.wireLegal = true) :
    r.data.length ≤ 15 ∧ (typeKnown r.type = true → r.data.length = dataLen r.type) := by
  cases r with
  | opaqueRecord t d =>
    simp only [ExtRecord.wireLegal, Bool.and_eq_true, Bool.not_eq_true', decide_eq_true_eq] at h
    exact ⟨h.2, fun hk => by simp [ExtRecord.type, h.1] at hk⟩
  | _ => simp [ExtRecord.data, ExtRecord.type, dataLen]

/-- The header byte gives back the length and the type it was made of (rules R119, R180). -/
theorem recordHeader_fields {len : Nat} (hl : len ≤ 15) (t : BitVec 4) :
    ((recordHeader len t).extractLsb' 4 4).toNat = len ∧ (recordHeader len t).extractLsb' 0 4 = t := by
  constructor
  · have h : (recordHeader len t).extractLsb' 4 4 = BitVec.ofNat 4 len := by
      apply BitVec.eq_of_getLsbD_eq
      intro i hi
      simp only [recordHeader, BitVec.getLsbD_extractLsb', BitVec.getLsbD_append]
      simp [hi]
    rw [h, BitVec.toNat_ofNat]
    omega
  · apply BitVec.eq_of_getLsbD_eq
    intro i hi
    simp only [recordHeader, BitVec.getLsbD_extractLsb', BitVec.getLsbD_append]
    simp [hi]

/-- A record's type and data give back the record (rules R120, R181, R191, R192). -/
theorem recordOf_data {r : ExtRecord} (h : r.wireLegal = true) : recordOf r.type r.data = r := by
  cases r with
  | arqSequence q => rfl
  | arqRequest q mask =>
    simp only [recordOf, ExtRecord.type, ExtRecord.data]
    simp [wordOfBytes_bytesOfWord_two]
  | arqControl tx rx => rfl
  | arqHandshake p ident =>
    simp only [recordOf, ExtRecord.type, ExtRecord.data]
    simp [wordOfBytes_bytesOfWord_four]
  | tddControl win rem =>
    simp only [recordOf, ExtRecord.type, ExtRecord.data]
    have h1 : (bytesOfWord 2 (win.setWidth 32) ++ bytesOfWord 2 (rem.setWidth 32)).take 2
        = bytesOfWord 2 (win.setWidth 32) := rfl
    have h2 : (bytesOfWord 2 (win.setWidth 32) ++ bytesOfWord 2 (rem.setWidth 32)).drop 2
        = bytesOfWord 2 (rem.setWidth 32) := rfl
    simp [h1, h2, wordOfBytes_bytesOfWord_two]
  | hmacSequenceReset q =>
    simp only [recordOf, ExtRecord.type, ExtRecord.data]
    simp [wordOfBytes_bytesOfWord_two]
  | opaqueRecord t d =>
    simp only [ExtRecord.wireLegal, typeKnown, Bool.and_eq_true, Bool.not_eq_true', decide_eq_false_iff_not,
      decide_eq_true_eq] at h
    simp only [recordOf, ExtRecord.type, ExtRecord.data]
    split <;> first | rfl | omega

/-- Decoding where an encoded record stands gives the record and its length (rules R181, R191). -/
theorem decodeRecord_encode {s : State} {off avail : Nat} {r : ExtRecord} (h : r.wireLegal = true)
    (hb : memRead s off r.encode.length = r.encode) (ha : r.encode.length ≤ avail) :
    decodeRecord s off avail = .ok (r, r.encode.length) := by
  have hlen : r.encode.length = r.data.length + 1 := by simp [ExtRecord.encode]
  obtain ⟨h15, hk⟩ := data_length h
  have hs : memRead s off (1 + r.data.length) = recordHeader r.data.length r.type :: r.data := by
    rw [← ExtRecord.encode, Nat.add_comm, ← hlen]; exact hb
  rw [memRead_append] at hs
  have h0 : bufByte s off = recordHeader r.data.length r.type := by
    have := congrArg (fun l => l.getD 0 0) hs
    simpa [memRead] using this
  have hd : memRead s (off + 1) r.data.length = r.data := by
    have := congrArg (fun l => l.drop 1) hs
    simpa [List.drop_append] using this
  obtain ⟨hf1, hf2⟩ := recordHeader_fields h15 r.type
  rw [decodeRecord_ok_iff]
  simp only [h0, hf1, hf2]
  refine ⟨by omega, fun hkn => hk hkn, ?_, by omega⟩
  rw [hd, recordOf_data h]

/-- The words of any decoded record have rule R116's shape. -/
theorem words_shaped (t : BitVec 4) (d : List Byte) (off : Nat) :
    extWordsShaped ((recordOf t d).words off) := by
  have ht : (recordOf t d).type = t := by
    simp only [recordOf]
    split <;> first
      | rfl
      | (rename_i h; apply BitVec.eq_of_toNat_eq; simp [ExtRecord.type, h])
  have h4 : ((recordOf t d).words off).w0.extractLsb' 0 4 = t := by
    apply BitVec.eq_of_getLsbD_eq
    intro i hi
    simp only [ExtRecord.words, ht, BitVec.getLsbD_extractLsb', BitVec.getLsbD_append]
    simp [hi]
  refine ⟨?_, ?_, ?_⟩
  · apply BitVec.eq_of_getLsbD_eq
    intro i hi
    simp only [ExtRecord.words, BitVec.getLsbD_extractLsb', BitVec.getLsbD_append]
    simp [hi, show ¬ (9 + i < 4) by omega, show ¬ (9 + i - 4 < 4) by omega,
      show ¬ (9 + i - 4 - 4 < 1) by omega, show 9 + i - 4 - 4 - 1 < 7 by omega]
  · rw [h4]
    simp only [ExtRecord.words, ht, BitVec.getLsbD_append]
    simp
  · rw [h4]
    intro hk
    simp only [typeKnown, decide_eq_false_iff_not] at hk
    have : recordOf t d = .opaqueRecord t d := by
      simp only [recordOf]
      split <;> first | rfl | omega
    rw [this]
    exact ⟨rfl, rfl⟩

end Sys2Proof.Machine
end

