-- ==== Sys2Proof/Laws/Golay.lean ====
section
/-! SUPPORT. The Golay code as linear algebra over GF(2): parity and the matrix product add, a legal parity matrix
is its own inverse, and codewords have syndrome 0. -/

namespace Sys2Proof.Machine

/-! ### Parity -/

theorem countP_xor_mod_two (l : List Nat) (f g : Nat → Bool) :
    l.countP (fun i => f i ^^ g i) % 2 = (l.countP f + l.countP g) % 2 := by
  induction l with
  | nil => rfl
  | cons a l ih =>
    simp only [List.countP_cons]
    cases f a <;> cases g a <;> simp <;> omega

/-- Parity adds (rule R13). -/
theorem parity_xor {w : Nat} (x y : BitVec w) : parity (x ^^^ y) = (parity x ^^ parity y) := by
  have h := countP_xor_mod_two (List.range w) (fun i => x.getLsbD i) (fun i => y.getLsbD i)
  simp only [parity, popcount, BitVec.getLsbD_xor, h]
  rw [Nat.add_mod]
  have hx := Nat.mod_two_eq_zero_or_one ((List.range w).countP fun i => x.getLsbD i)
  have hy := Nat.mod_two_eq_zero_or_one ((List.range w).countP fun i => y.getLsbD i)
  rcases hx with hx | hx <;> rcases hy with hy | hy <;> simp [hx, hy]

@[simp] theorem popcount_zero (w : Nat) : popcount (0#w) = 0 := by
  simp [popcount]

@[simp] theorem parity_zero (w : Nat) : parity (0#w) = false := by
  simp [parity]

theorem popcount_le {w : Nat} (v : BitVec w) : popcount v ≤ w := by
  have := List.countP_le_length (p := fun i => v.getLsbD i) (l := List.range w)
  simpa [popcount] using this

/-! ### The matrix product -/

/-- The fold of `MatVec` from any start: the later rows fill the low bits. -/
theorem matVec_fold_getLsbD {w : Nat} (v : BitVec w) (rows : List (BitVec w)) : ∀ (acc : BitVec 12) (j : Nat),
    j < 12 →
    (rows.foldl (fun (a : BitVec 12) r => (a <<< 1) ||| (BitVec.ofBool (parity (r &&& v))).setWidth 12) acc).getLsbD j
      = if j < rows.length then parity (rows.getD (rows.length - 1 - j) 0 &&& v)
        else acc.getLsbD (j - rows.length) := by
  induction rows with
  | nil => intro acc j _; simp
  | cons r rows ih =>
    intro acc j hj
    simp only [List.foldl_cons, ih _ j hj, List.length_cons]
    by_cases h1 : j < rows.length
    · have h2 : j < rows.length + 1 := by omega
      have h3 : rows.length + 1 - 1 - j = (rows.length - 1 - j) + 1 := by omega
      simp only [h1, h2, if_true, h3, List.getD_cons_succ]
    · by_cases h2 : j = rows.length
      · subst h2
        simp
      · have h3 : ¬ j < rows.length + 1 := by omega
        have h4 : j - rows.length = (j - (rows.length + 1)) + 1 := by omega
        rw [if_neg h1, if_neg h3, h4]
        have h5 : j - (rows.length + 1) + 1 < 12 := by omega
        simp [h5, BitVec.getLsbD_eq_getElem (x := acc) (i := j - (rows.length + 1)) (by omega)]

/-- Bit (11 - i) of `MatVec(M, v)` is the parity of row i and the vector (rule R221). -/
theorem matVec_getLsbD {w : Nat} {rows : List (BitVec w)} (hr : rows.length = 12) (v : BitVec w) {i : Nat}
    (hi : i < 12) : (matVec rows v).getLsbD (11 - i) = parity (rows.getD i 0 &&& v) := by
  have h := matVec_fold_getLsbD v rows 0 (11 - i) (by omega)
  have h1 : 11 - i < rows.length := by omega
  have h2 : rows.length - 1 - (11 - i) = i := by omega
  simpa [matVec, h1, h2] using h

/-- Two 12-bit words with the same bits (11 - i) are equal. -/
theorem eq_of_bits {x y : BitVec 12} (h : ∀ i < 12, x.getLsbD (11 - i) = y.getLsbD (11 - i)) : x = y := by
  apply BitVec.eq_of_getLsbD_eq
  intro j hj
  have := h (11 - j) (by omega)
  rwa [show 11 - (11 - j) = j by omega] at this

theorem and_xor_distrib {w : Nat} (r x y : BitVec w) : r &&& (x ^^^ y) = (r &&& x) ^^^ (r &&& y) := by
  apply BitVec.eq_of_getLsbD_eq
  intro i hi
  simp only [BitVec.getLsbD_and, BitVec.getLsbD_xor]
  cases r.getLsbD i <;> simp

/-- The matrix product adds in the vector (rule R221). -/
theorem matVec_xor {w : Nat} {rows : List (BitVec w)} (hr : rows.length = 12) (x y : BitVec w) :
    matVec rows (x ^^^ y) = matVec rows x ^^^ matVec rows y := by
  apply eq_of_bits
  intro i hi
  rw [BitVec.getLsbD_xor, matVec_getLsbD hr _ hi, matVec_getLsbD hr _ hi, matVec_getLsbD hr _ hi,
    and_xor_distrib, parity_xor]

@[simp] theorem matVec_zero {w : Nat} {rows : List (BitVec w)} (hr : rows.length = 12) :
    matVec rows 0#w = 0#12 := by
  apply eq_of_bits
  intro i hi
  rw [matVec_getLsbD hr _ hi]
  simp

/-! ### Legal parity matrices -/

theorem legalGolayB_iff (B : List (BitVec 12)) :
    legalGolayB B = true ↔ B.length = 12
      ∧ (∀ i < 12, ∀ j < 12, (golayRow B i).getLsbD (11 - j) = (golayRow B j).getLsbD (11 - i))
      ∧ ∀ i < 12, matVec B (golayRow B i) = unitVector i := by
  simp [legalGolayB, and_assoc]

/-- A word is the sum of the unit vectors at its 1 bits. -/
def unitSum (f : Nat → BitVec 12) (v : BitVec 12) : BitVec 12 :=
  (List.range 12).foldl (fun acc i => acc ^^^ if v.getLsbD (11 - i) then f i else 0) 0

theorem unitVector_getLsbD {j k : Nat} (hk : k < 12) (hj : j < 12) :
    (unitVector j).getLsbD k = decide (k = 11 - j) := by
  have h : 0x800#12 = BitVec.twoPow 12 11 := by decide
  rw [unitVector, h, BitVec.getLsbD_ushiftRight, BitVec.getLsbD_twoPow]
  rw [Bool.eq_iff_iff]
  simp only [Bool.and_eq_true, decide_eq_true_eq]
  omega

theorem xorFold_getLsbD (v : BitVec 12) (f : Nat → BitVec 12) (k : Nat) : ∀ (l : List Nat) (acc : BitVec 12),
    (l.foldl (fun a i => a ^^^ if v.getLsbD (11 - i) then f i else 0) acc).getLsbD k
      = l.foldl (fun b i => b ^^ (v.getLsbD (11 - i) && (f i).getLsbD k)) (acc.getLsbD k) := by
  intro l
  induction l with
  | nil => intro acc; rfl
  | cons i l ih =>
    intro acc
    simp only [List.foldl_cons, ih, BitVec.getLsbD_xor]
    congr 2
    cases v.getLsbD (11 - i) <;> simp

theorem unitSum_unitVector (v : BitVec 12) : unitSum unitVector v = v := by
  apply eq_of_bits
  intro n hn
  rw [unitSum, xorFold_getLsbD]
  have h : ∀ l : List Nat, l.Nodup → (∀ i ∈ l, i < 12) → ∀ b : Bool,
      l.foldl (fun b i => b ^^ (v.getLsbD (11 - i) && (unitVector i).getLsbD (11 - n))) b
        = (b ^^ (decide (n ∈ l) && v.getLsbD (11 - n))) := by
    intro l
    induction l with
    | nil => intro _ _ b; simp
    | cons i l ih =>
      intro hd hm b
      have hi : i < 12 := hm i (List.mem_cons_self ..)
      rw [List.nodup_cons] at hd
      rw [List.foldl_cons, ih hd.2 fun j hj => hm j (List.mem_cons_of_mem _ hj),
        unitVector_getLsbD (by omega) hi]
      by_cases hin : n = i
      · subst hin
        simp [hd.1]
      · have hne : ¬ 11 - n = 11 - i := by omega
        simp [hin, hne]
  rw [h _ List.nodup_range fun i hi => List.mem_range.mp hi]
  simp [hn]

/-- An additive map is fixed by what it does to the unit vectors. -/
theorem additive_eq_unitSum {F : BitVec 12 → BitVec 12} (hx : ∀ x y, F (x ^^^ y) = F x ^^^ F y)
    (v : BitVec 12) : F v = unitSum (fun i => F (unitVector i)) v := by
  have h0 : F 0 = 0 := by
    have h := hx 0 0
    simp only [BitVec.xor_self] at h
    exact h
  have key : ∀ (l : List Nat) (acc : BitVec 12),
      F (l.foldl (fun a i => a ^^^ if v.getLsbD (11 - i) then unitVector i else 0) acc)
        = l.foldl (fun a i => a ^^^ if v.getLsbD (11 - i) then F (unitVector i) else 0) (F acc) := by
    intro l
    induction l with
    | nil => intro acc; rfl
    | cons i l ih =>
      intro acc
      simp only [List.foldl_cons, ih, hx]
      congr 2
      cases v.getLsbD (11 - i)
      · simpa using h0
      · simp
  have h := key (List.range 12) 0
  have hv : F (unitSum unitVector v) = unitSum (fun i => F (unitVector i)) v := by
    simp only [unitSum, h, h0]
  rwa [unitSum_unitVector] at hv

/-- The parity of a row and a unit vector is the row's own bit. -/
theorem parity_and_unitVector (r : BitVec 12) (j : Nat) (hj : j < 12) :
    parity (r &&& unitVector j) = r.getLsbD (11 - j) := by
  have h : ∀ j < 12, r &&& unitVector j = if r.getLsbD (11 - j) then unitVector j else 0 := by
    intro j hj
    apply BitVec.eq_of_getLsbD_eq
    intro k hk
    have hu : (unitVector j).getLsbD k = decide (k = 11 - j) := unitVector_getLsbD hk hj
    by_cases hkj : k = 11 - j
    · subst hkj
      cases hr : r.getLsbD (11 - j) <;> simp [hu, hr]
    · have hu' : (unitVector j).getLsbD k = false := by simpa [hkj] using hu
      cases hr : r.getLsbD (11 - j) <;> simp [hu']
  rw [h j hj]
  have hp : ∀ j < 12, parity (unitVector j) = true := by decide
  cases hr : r.getLsbD (11 - j)
  · simp
  · simpa using hp j hj

/-- Column j of a legal matrix is its row j (rule R220, B = Bᵀ). -/
theorem matVec_unitVector {B : List (BitVec 12)} (hB : legalGolayB B = true) {j : Nat} (hj : j < 12) :
    matVec B (unitVector j) = golayRow B j := by
  obtain ⟨hl, hs, -⟩ := (legalGolayB_iff B).mp hB
  apply eq_of_bits
  intro i hi
  rw [matVec_getLsbD hl _ hi, parity_and_unitVector _ _ hj]
  exact hs i hi j hj

/-- A legal matrix is its own inverse (rule R220, B·B = I). -/
theorem matVec_matVec {B : List (BitVec 12)} (hB : legalGolayB B = true) (v : BitVec 12) :
    matVec B (matVec B v) = v := by
  obtain ⟨hl, -, hi⟩ := (legalGolayB_iff B).mp hB
  have hadd : ∀ x y, matVec B (matVec B (x ^^^ y)) = matVec B (matVec B x) ^^^ matVec B (matVec B y) := by
    intro x y; rw [matVec_xor hl, matVec_xor hl]
  have h1 := additive_eq_unitSum (F := fun v => matVec B (matVec B v)) hadd v
  have h2 : unitSum (fun i => matVec B (matVec B (unitVector i))) v = unitSum unitVector v := by
    unfold unitSum
    apply List.foldl_ext
    intro acc i hmem
    have hi' : i < 12 := List.mem_range.mp hmem
    simp only [matVec_unitVector hB hi', hi i hi']
  rw [h1, h2, unitSum_unitVector]

/-! ### Codewords and syndromes -/

theorem checkMatrix_length (B : List (BitVec 12)) : (checkMatrix B).length = 12 := by
  simp [checkMatrix]

/-- The syndrome adds in the received word. -/
theorem syndrome_xor (B : List (BitVec 12)) (x y : BitVec 24) :
    syndrome B (x ^^^ y) = syndrome B x ^^^ syndrome B y :=
  matVec_xor (checkMatrix_length B) x y

/-- The parity of a joined word is the sum of the parities of its halves. -/
theorem parity_append (x y : BitVec 12) : parity (x ++ y) = (parity x ^^ parity y) := by
  have h : popcount (x ++ y : BitVec 24) = popcount y + popcount x := by
    have hr : List.range (12 + 12) = List.range 12 ++ (List.range 12).map (12 + ·) := List.range_add ..
    have hb : ∀ i, (x ++ y : BitVec 24).getLsbD i
        = if i < 12 then y.getLsbD i else x.getLsbD (i - 12) := fun i => by
      rw [BitVec.getLsbD_append]
    simp only [popcount]
    rw [hr, List.countP_append, List.countP_map]
    congr 1
    · apply List.countP_congr
      intro i hi
      rw [hb, if_pos (List.mem_range.mp hi)]
    · apply List.countP_congr
      intro i hi
      simp only [Function.comp_apply, hb]
      rw [if_neg (by omega), Nat.add_sub_cancel_left]
  simp only [parity, h]
  have hx := Nat.mod_two_eq_zero_or_one (popcount x)
  have hy := Nat.mod_two_eq_zero_or_one (popcount y)
  rw [Nat.add_mod]
  rcases hx with hx | hx <;> rcases hy with hy | hy <;> simp [hx, hy]

/-- Row i of the check matrix is the unit vector i left of row i of `B` (rule R221). -/
theorem checkMatrix_getD (B : List (BitVec 12)) {i : Nat} (hi : i < 12) :
    (checkMatrix B).getD i 0 = (unitVector i ++ golayRow B i : BitVec 24) := by
  have h : ∀ i < 12, (1#24 <<< (23 - i)) = (unitVector i ++ 0#12 : BitVec 24) := by decide
  have h1 : (checkMatrix B).getD i 0 = (1#24 <<< (23 - i)) ||| (golayRow B i).setWidth 24 := by
    simp [checkMatrix, hi]
  rw [h1, h i hi]
  apply BitVec.eq_of_getLsbD_eq
  intro k hk
  simp only [BitVec.getLsbD_or, BitVec.getLsbD_append, BitVec.getLsbD_setWidth]
  by_cases hk2 : k < 12
  · simp [hk2, hk]
  · simp [hk2, BitVec.getLsbD_of_ge (golayRow B i) k (by omega)]

/-- The syndrome is the parity half plus `MatVec(B, data half)` (rule R221, "Equivalently"). -/
theorem syndrome_append {B : List (BitVec 12)} (hl : B.length = 12) (x y : BitVec 12) :
    syndrome B (x ++ y) = x ^^^ matVec B y := by
  apply eq_of_bits
  intro i hi
  rw [syndrome, matVec_getLsbD (checkMatrix_length B) _ hi, checkMatrix_getD B hi, BitVec.getLsbD_xor,
    matVec_getLsbD hl _ hi]
  have h1 : ((unitVector i ++ golayRow B i : BitVec 24) &&& (x ++ y : BitVec 24))
      = ((unitVector i &&& x) ++ (golayRow B i &&& y) : BitVec 24) := by
    apply BitVec.eq_of_getLsbD_eq
    intro k hk
    simp only [BitVec.getLsbD_and, BitVec.getLsbD_append]
    by_cases hk2 : k < 12 <;> simp [hk2]
  rw [h1, parity_append, BitVec.and_comm (unitVector i) x, parity_and_unitVector x i hi]
  rfl

/-- A codeword has syndrome 0 (rule R222). -/
theorem syndrome_golayEncode {B : List (BitVec 12)} (hl : B.length = 12) (d : BitVec 12) :
    syndrome B (golayEncode B d) = 0 := by
  rw [golayEncode, syndrome_append hl, BitVec.xor_self]
  rfl

/-- The decoder's error pattern depends on the channel errors alone, not on the codeword sent. -/
theorem golayErrorPattern_codeword {B : List (BitVec 12)} (hl : B.length = 12) (d : BitVec 12)
    (e : BitVec 24) : golayErrorPattern B (golayEncode B d ^^^ e) = golayErrorPattern B e := by
  have h : syndrome B (golayEncode B d ^^^ e) = syndrome B e := by
    rw [syndrome_xor, syndrome_golayEncode hl]
    exact BitVec.zero_xor
  simp only [golayErrorPattern, h]

/-- A word with syndrome 0 is the codeword of its data half. -/
theorem eq_golayEncode_of_syndrome {B : List (BitVec 12)} (hl : B.length = 12) {c : BitVec 24}
    (h : syndrome B c = 0) : c = golayEncode B (c.extractLsb' 0 12) := by
  have hc : c = (c.extractLsb' 12 12 ++ c.extractLsb' 0 12 : BitVec 24) := by
    apply BitVec.eq_of_getLsbD_eq
    intro i hi
    simp only [BitVec.getLsbD_append, BitVec.getLsbD_extractLsb']
    by_cases h2 : i < 12
    · simp [h2]
    · have h3 : i - 12 < 12 := by omega
      have h4 : 12 + (i - 12) = i := by omega
      simp [h2, h3, h4]
  have hs : syndrome B (c.extractLsb' 12 12 ++ c.extractLsb' 0 12 : BitVec 24) = 0 := by
    rw [← hc]; exact h
  rw [syndrome_append hl] at hs
  have hp : c.extractLsb' 12 12 = matVec B (c.extractLsb' 0 12) := BitVec.xor_eq_zero_iff.mp hs
  rw [golayEncode, ← hp]
  exact hc

end Sys2Proof.Machine
end

