-- ==== Sys2Proof/Laws/PerInstr.lean ====
section
/-! SUPPORT. Facts that hold of every command, one lemma per constructor of `Instr`. -/

namespace Sys2Proof.Laws

/-- The mnemonic of each command, as spec/opcode_table.json has it. -/
def mnemonicOf : Instr → String
  | .nop => "NOP"
  | .frameBuild _ _ => "FRAME_BUILD"
  | .frameParse _ _ => "FRAME_PARSE"
  | .extEncArqSequence => "EXT_ENC.ARQSequence"
  | .extEncArqRequest => "EXT_ENC.ARQRequest"
  | .extEncArqControl => "EXT_ENC.ARQControl"
  | .extEncArqHandshake => "EXT_ENC.ARQHandshake"
  | .extEncTddControl => "EXT_ENC.TDDControl"
  | .extEncHmacSequenceReset => "EXT_ENC.HMACSequenceReset"
  | .extEncRaw _ => "EXT_ENC_RAW"
  | .extDec => "EXT_DEC"
  | .extDecAll => "EXT_DEC_ALL"
  | .golayEnc => "GOLAY_ENC"
  | .golayDec => "GOLAY_DEC"
  | .golayEncBytes => "GOLAY_ENC_BYTES"
  | .golayDecBytes => "GOLAY_DEC_BYTES"
  | .prefixEnc => "PREFIX_ENC"
  | .prefixDec => "PREFIX_DEC"
  | .keyLoad => "KEY_LOAD"
  | .keyClear => "KEY_CLEAR"
  | .authAppend => "AUTH_APPEND"
  | .authVerify => "AUTH_VERIFY"
  | .macInit => "MAC_INIT"
  | .macOwnRem => "MAC_OWN_REM"
  | .macPeerRem => "MAC_PEER_REM"
  | .macCanSend => "MAC_CAN_SEND"
  | .macUpdate => "MAC_UPDATE"
  | .macSetOwn => "MAC_SET_OWN"

namespace EncodesItsRow

/-- The command's word belongs to exactly one row of spec/opcode_table.json: the row of its mnemonic. -/
def Statement (i : Instr) : Prop :=
  (opcodeRows.filter fun r => r.holds (encode i)).map (fun r => r.mnemonic) = [mnemonicOf i]

theorem nop : Statement .nop := by unfold Statement; decide
theorem frameBuild (auth outerFec : Bool) : Statement (.frameBuild auth outerFec) := by
  cases auth <;> cases outerFec <;> (unfold Statement; decide)
theorem frameParse (decodeExt verify : Bool) : Statement (.frameParse decodeExt verify) := by
  cases decodeExt <;> cases verify <;> (unfold Statement; decide)
theorem extEncArqSequence : Statement .extEncArqSequence := by unfold Statement; decide
theorem extEncArqRequest : Statement .extEncArqRequest := by unfold Statement; decide
theorem extEncArqControl : Statement .extEncArqControl := by unfold Statement; decide
theorem extEncArqHandshake : Statement .extEncArqHandshake := by unfold Statement; decide
theorem extEncTddControl : Statement .extEncTddControl := by unfold Statement; decide
theorem extEncHmacSequenceReset : Statement .extEncHmacSequenceReset := by unfold Statement; decide
theorem extEncRaw (type : BitVec 4) : Statement (.extEncRaw type) := by
  revert type; unfold Statement; decide
theorem extDec : Statement .extDec := by unfold Statement; decide
theorem extDecAll : Statement .extDecAll := by unfold Statement; decide
theorem golayEnc : Statement .golayEnc := by unfold Statement; decide
theorem golayDec : Statement .golayDec := by unfold Statement; decide
theorem golayEncBytes : Statement .golayEncBytes := by unfold Statement; decide
theorem golayDecBytes : Statement .golayDecBytes := by unfold Statement; decide
theorem prefixEnc : Statement .prefixEnc := by unfold Statement; decide
theorem prefixDec : Statement .prefixDec := by unfold Statement; decide
theorem keyLoad : Statement .keyLoad := by unfold Statement; decide
theorem keyClear : Statement .keyClear := by unfold Statement; decide
theorem authAppend : Statement .authAppend := by unfold Statement; decide
theorem authVerify : Statement .authVerify := by unfold Statement; decide
theorem macInit : Statement .macInit := by unfold Statement; decide
theorem macOwnRem : Statement .macOwnRem := by unfold Statement; decide
theorem macPeerRem : Statement .macPeerRem := by unfold Statement; decide
theorem macCanSend : Statement .macCanSend := by unfold Statement; decide
theorem macUpdate : Statement .macUpdate := by unfold Statement; decide
theorem macSetOwn : Statement .macSetOwn := by unfold Statement; decide

end EncodesItsRow

end Sys2Proof.Laws
end

