-- ==== Sys2Proof/Laws/Sha256.lean ====
section
/-! SUPPORT. The constants of SHA-256 are what the standard defines them to be (log 13): primes, and the fractions
of their roots. -/

namespace Sys2Proof.Machine

/-- The primes that `primesBelow` finds are all the primes, and nothing else. -/
theorem mem_primesBelow (n p : Nat) : p ∈ primesBelow n ↔ p.Prime ∧ p < n := by
  induction n generalizing p with
  | zero => simp [primesBelow]
  | succ n ih =>
    have hstep : primesBelow (n + 1)
        = if decide (2 ≤ n) && (primesBelow n).all (fun q => n % q != 0) then primesBelow n ++ [n]
          else primesBelow n := by
      simp [primesBelow, List.range_succ]
    have htest : (decide (2 ≤ n) && (primesBelow n).all (fun q => n % q != 0)) = true ↔ n.Prime := by
      simp only [Bool.and_eq_true, decide_eq_true_eq, List.all_eq_true, bne_iff_ne, ne_eq, ih]
      constructor
      · rintro ⟨h2, hall⟩
        have hmin := Nat.minFac_prime (show n ≠ 1 by omega)
        rcases Nat.lt_or_ge n.minFac n with hlt | hge
        · exact absurd (Nat.mod_eq_zero_of_dvd n.minFac_dvd) (hall _ ⟨hmin, hlt⟩)
        · rwa [← Nat.le_antisymm (Nat.minFac_le (by omega)) hge]
      · refine fun hn => ⟨hn.two_le, fun q ⟨hq, hlt⟩ h0 => ?_⟩
        have := (Nat.prime_dvd_prime_iff_eq hq hn).mp (Nat.dvd_of_mod_eq_zero h0)
        omega
    rw [hstep]
    by_cases hn : n.Prime
    · rw [if_pos (htest.mpr hn), List.mem_append, ih, List.mem_singleton]
      exact ⟨by rintro (⟨hp, hlt⟩ | rfl) <;> [exact ⟨hp, by omega⟩; exact ⟨hn, by omega⟩],
        fun ⟨hp, hlt⟩ => (Nat.lt_succ_iff_lt_or_eq.mp hlt).imp (fun h => ⟨hp, h⟩) id⟩
    · rw [if_neg (fun h => hn (htest.mp h)), ih]
      refine ⟨fun ⟨hp, hlt⟩ => ⟨hp, by omega⟩, fun ⟨hp, hlt⟩ => ⟨hp, ?_⟩⟩
      rcases Nat.lt_succ_iff_lt_or_eq.mp hlt with h | rfl
      · exact h
      · exact absurd hp hn

/-- `integerRoot` finds the root, rounded down, of a number whose root it can reach. -/
theorem integerRoot_spec (k n : Nat) : ∀ bits x, x ^ k ≤ n → n < (x + 2 ^ bits) ^ k →
    (integerRoot k n bits x) ^ k ≤ n ∧ n < (integerRoot k n bits x + 1) ^ k
  | 0, x, hlo, hhi => by simpa [integerRoot] using ⟨hlo, hhi⟩
  | bits + 1, x, hlo, hhi => by
    unfold integerRoot
    split
    · rename_i h
      exact integerRoot_spec k n bits _ h (by rwa [Nat.add_assoc, ← Nat.two_mul, ← Nat.pow_succ'])
    · rename_i h
      exact integerRoot_spec k n bits x hlo (by omega)

/-- `rootFraction` gives the 32 bits after the point of a root below 8. -/
theorem rootFraction_spec {k n : Nat} (hk : k ≠ 0) (hn : n < 8 ^ k) :
    ∃ r, r ^ k ≤ n * 2 ^ (32 * k) ∧ n * 2 ^ (32 * k) < (r + 1) ^ k ∧ rootFraction k n = BitVec.ofNat 32 r := by
  have hlt : n * 2 ^ (32 * k) < (0 + 2 ^ 35) ^ k := by
    rw [Nat.zero_add, show (2 : Nat) ^ 35 = 8 * 2 ^ 32 by decide, Nat.mul_pow, ← Nat.pow_mul]
    exact Nat.mul_lt_mul_of_pos_right hn (Nat.two_pow_pos _)
  obtain ⟨h1, h2⟩ := integerRoot_spec k (n * 2 ^ (32 * k)) 35 0 (by simp [hk]) hlt
  exact ⟨_, h1, h2, rfl⟩

end Sys2Proof.Machine
end

