-- ==== Sys2Proof/Laws/Timing.lean ====
section
/-! SUPPORT. What a command's latency and a digest can depend on, and how long a digest is. -/

namespace Sys2Proof.Machine

/-! ### Lengths -/

theorem sha256_length (m : List Byte) : (sha256 m).length = 32 := by
  simp [sha256, ShaWords.bytes]

theorem digest_length (b : Build) (k : Key) (m : List Byte) : (digest b k m).length = b.T := by
  unfold digest Build.T
  cases b.variant with
  | keyedHash4 => simp [keyedHash4, AuthVariant.trailerBytes]
  | hmacSha256x8 => simp [hmacSha256, sha256_length, AuthVariant.trailerBytes]

theorem T_eq (b : Build) : b.T = 4 ∨ b.T = 8 := by
  unfold Build.T
  cases b.variant
  · exact .inl rfl
  · exact .inr rfl

/-! ### Reading depends on `BUF` and the reset count alone -/

theorem memRead_eq_of_buf {s t : State} (hb : t.buf = s.buf) (hr : t.env.resets = s.env.resets)
    (off n : Nat) : memRead t off n = memRead s off n :=
  memRead_congr fun _ _ => bufByte_congr hb hr _

theorem inBounds_congr {s t : State} (hb : t.env.build = s.env.build) (off n : Nat) :
    inBounds t off n = inBounds s off n := by
  unfold inBounds; rw [hb]

theorem frameTotal_congr {s t : State} (ha : t.arg = s.arg) (hb : t.env.build = s.env.build) (auth : Bool) :
    frameTotal auth t = frameTotal auth s := by
  unfold frameTotal; rw [ha, hb]

/-- The checks of `FRAME_BUILD` see the arguments, the presence of a key and the build. -/
theorem frameBuildChecks_congr {s t : State} (ha : t.arg = s.arg) (hk : t.keyValid = s.keyValid)
    (hb : t.env.build = s.env.build) (auth outerFec : Bool) :
    frameBuildChecks auth outerFec t = frameBuildChecks auth outerFec s := by
  unfold frameBuildChecks
  rw [frameTotal_congr ha hb]
  simp only [checkSrc, checkDst, inBounds_congr hb, ha, hk]

theorem authAppendChecks_congr {s t : State} (ha : t.arg = s.arg) (hk : t.keyValid = s.keyValid)
    (hb : t.env.build = s.env.build) : authAppendChecks t = authAppendChecks s := by
  simp only [authAppendChecks, checkSrc, checkDst, requireKey, inBounds_congr hb, ha, hk, hb]

theorem authVerifyChecks_congr {s t : State} (ha : t.arg = s.arg) (hk : t.keyValid = s.keyValid)
    (hb : t.env.build = s.env.build) : authVerifyChecks t = authVerifyChecks s := by
  unfold authVerifyChecks
  rw [hb]
  simp only [checkSrc, requireKey, inBounds_congr hb, ha, hk]

/-- The header part of `FRAME_PARSE` sees the arguments, the presence of a key, the build and `BUF`. -/
theorem frameHeader_congr {s t : State} (ha : t.arg = s.arg) (hk : t.keyValid = s.keyValid)
    (he : t.env.build = s.env.build) (hb : t.buf = s.buf) (hr : t.env.resets = s.env.resets) (verify : Bool) :
    frameHeader verify t = frameHeader verify s := by
  unfold frameHeader
  rw [he]
  simp only [checkSrc, inBounds_congr he, ha, hk, memRead_eq_of_buf hb hr]

/-- The latency of a word sees the arguments, the presence of a key, the build, the latency parameter and `BUF`:
no key byte, no `CMDREG`, no pending host access. -/
theorem commandLatency_congr {s t : State} (ha : t.arg = s.arg) (hk : t.keyValid = s.keyValid)
    (he : t.env.build = s.env.build) (hl : t.env.latency = s.env.latency) (hb : t.buf = s.buf)
    (hr : t.env.resets = s.env.resets) (w : Word) : commandLatency w t = commandLatency w s := by
  simp only [commandLatency, timingClass, hl, ha, hb, frameBuildChecks_congr ha hk he,
    authAppendChecks_congr ha hk he, authVerifyChecks_congr ha hk he, frameHeader_congr ha hk he hb hr]

end Sys2Proof.Machine
end

