-- ==== Sys2Proof/Tests/Slice0.lean ====
section
/-! SUPPORT. Tests of the model against the vectors of 95_test_vectors.md (each test names its vector), the
smoke test of WellFormed.lean, written-out words for every command, and a witness for the hypotheses of every
statement that has some. -/

namespace Sys2Proof.Tests

open Sys2Proof.Machine

-- One kernel evaluation at a time: side by side their thread stacks outgrow the memory limit.
set_option Elab.async false

/-! ### Helpers -/

/-- The state an outcome answers, `s` where it answers none. -/
def after (o : Host.Outcome State Fault Refusal) (s : State) : State :=
  match o with
  | .next t => t
  | .fault _ => s
  | .refused _ => s

/-- One step that runs the command word `w` from `s`. -/
def run (w : Nat) (s : State) : State :=
  after (step (s.withFetchWord 32 w)) s

/-- Right after reset, with these arguments and these bytes of `BUF`. -/
def start (arg : RegFile) (bytes : List (Nat × List Byte)) : State :=
  (bytes.foldl (fun s p => memWrite s p.1 p.2) State.reset).setArg arg

/-- The key 00..1F of the vectors. -/
def key00 : Key := ⟨vectorKey, by decide⟩

/-- With the key 00..1F loaded. -/
def keyed (s : State) : State := s.setKey key00 true

/-- `CODE`, `DETAIL` and `RES0`..`RES7`. -/
def outcome (t : State) : Nat × Nat × RegFile :=
  (t.code.toNat, t.detail.toNat, t.res)

/-- The build with `KEYED_HASH_4`. -/
def kh4Build : Build := { Build.default with variant := .keyedHash4 }

/-- "ABCDEF". -/
def ident6 : List Byte := [0x41, 0x42, 0x43, 0x44, 0x45, 0x46]

/-- "Hello world". -/
def hello : List Byte := [0x48, 0x65, 0x6C, 0x6C, 0x6F, 0x20, 0x77, 0x6F, 0x72, 0x6C, 0x64]

/-- The 22 bytes of V2. -/
def frameV2 : List Byte := [0x66] ++ ident6 ++ [0x23, 0, 0, 0] ++ hello

/-- The two records of T-FR2. -/
def blob2 : List Byte := [0x10, 0x7B, 0x44, 0x00, 0x64, 0x00, 0x28]

/-! ### WellFormed: each check refuses an ill-formed word (R112, section 8) -/

theorem test_highHalf_refuses :
    highHalfZero 0x00010020 = false ∧ wellFormedWord 0x00010020 = false ∧ wordInTable 0x00010020 = false := by
  decide

theorem test_opcode_refuses :
    opcodeAssigned 0x00000003 = false ∧ wellFormedWord 0x00000003 = false
      ∧ wordInTable 0x00000003 = false ∧ opcodeAssigned 0x000000FF = false := by decide

theorem test_modBits_refuses :
    modBitsListed 0x00000121 = false ∧ modBitsListed 0x00000402 = false ∧ modBitsListed 0x00001010 = false
      ∧ modBitsListed 0x00000100 = false ∧ wellFormedWord 0x00000402 = false
      ∧ wordInTable 0x00000402 = false := by decide

theorem test_extType_refuses :
    extTypeKnown 0x00000610 = false ∧ wellFormedWord 0x00000610 = false ∧ wordInTable 0x00000610 = false := by
  decide

theorem test_wellFormed_accepts :
    wellFormedWord 0x00000301 = true ∧ wellFormedWord 0x00000510 = true
      ∧ wellFormedWord 0x00000F11 = true := by decide

/-! ### Decoding: the words of rules R111 and R128 and of spec/opcode_table.json -/

theorem test_decode_control_frame :
    decode 0x00000000 = .ok .nop ∧ decode 0x00000001 = .ok (.frameBuild false false)
      ∧ decode 0x00000101 = .ok (.frameBuild true false) ∧ decode 0x00000201 = .ok (.frameBuild false true)
      ∧ decode 0x00000302 = .ok (.frameParse true true)
      ∧ decode 0x00000102 = .ok (.frameParse true false) := by decide

theorem test_decode_extension :
    decode 0x00000010 = .ok .extEncArqSequence ∧ decode 0x00000110 = .ok .extEncArqRequest
      ∧ decode 0x00000210 = .ok .extEncArqControl ∧ decode 0x00000310 = .ok .extEncArqHandshake
      ∧ decode 0x00000410 = .ok .extEncTddControl ∧ decode 0x00000510 = .ok .extEncHmacSequenceReset
      ∧ decode 0x00000911 = .ok (.extEncRaw 9) ∧ decode 0x00000F11 = .ok (.extEncRaw 15)
      ∧ decode 0x00000012 = .ok .extDec ∧ decode 0x00000013 = .ok .extDecAll := by decide

theorem test_decode_golay :
    decode 0x00000020 = .ok .golayEnc ∧ decode 0x00000021 = .ok .golayDec
      ∧ decode 0x00000022 = .ok .golayEncBytes ∧ decode 0x00000023 = .ok .golayDecBytes
      ∧ decode 0x00000024 = .ok .prefixEnc ∧ decode 0x00000025 = .ok .prefixDec := by decide

theorem test_decode_auth :
    decode 0x00000030 = .ok .keyLoad ∧ decode 0x00000031 = .ok .keyClear
      ∧ decode 0x00000032 = .ok .authAppend ∧ decode 0x00000033 = .ok .authVerify := by decide

theorem test_decode_mac :
    decode 0x00000040 = .ok .macInit ∧ decode 0x00000041 = .ok .macOwnRem
      ∧ decode 0x00000042 = .ok .macPeerRem ∧ decode 0x00000043 = .ok .macCanSend
      ∧ decode 0x00000044 = .ok .macUpdate ∧ decode 0x00000045 = .ok .macSetOwn := by decide

theorem test_decode_refuses :
    decode 0x00000003 = .error .opcodeUnassigned ∧ decode 0x00010003 = .error .reservedBits
      ∧ decode 0x00001610 = .error .reservedBits ∧ decode 0x00000610 = .error .extTypeIllegal := by decide

theorem test_decodeTableWord :
    decodeTableWord 32 0x00000911 = some (.extEncRaw 9) ∧ decodeTableWord 32 0x00000300 = none := by decide

/-! ### One step of each command (95_test_vectors.md) -/

/-- Section 8: `NOP` leaves `STICKY`. -/
theorem test_nop :
    let t := run 0x000 (State.reset.setSticky 0xA4)
    outcome t = (0, 0, {}) ∧ t.sticky = 0xA4 := by decide +kernel

/-- T-FR1. -/
def buildV2 : State :=
  start { r0 := 0x00060040, r1 := 0x000B0050, r2 := 0x00000060, r3 := 0x00030000, r4 := 0x100 }
    [(0x40, ident6), (0x50, hello)]

theorem test_frameBuild :
    let t := run 0x001 buildV2
    outcome t = (0, 0, { r0 := 22 }) ∧ memRead t 0x100 22 = frameV2 := by decide +kernel

/-- V1 under `HMAC_SHA256_8`: "Hello World", authenticated. -/
theorem test_frameBuild_auth :
    let t := run 0x101 (keyed (memWrite buildV2 0x56 [0x57]))
    outcome t = (0, 0, { r0 := 30 }) ∧ memRead t 0x10B 19 = [0x48, 0x65, 0x6C, 0x6C, 0x6F, 0x20, 0x57, 0x6F,
      0x72, 0x6C, 0x64, 0xF0, 0xC6, 0x95, 0x25, 0xA8, 0xD5, 0x4A, 0x3C] := by decide +kernel

/-- V2. -/
theorem test_frameParse :
    outcome (run 0x002 (start { r0 := 0x00160000 } [(0, frameV2)]))
      = (0, 0, { r0 := 0x0304060C, r2 := 0x00060001, r3 := 0x0000000B, r4 := 0x000B000B
                 r5 := 0x00000016 }) := by decide +kernel

/-- The frame T-FR2 builds, at 0x200. -/
def frameFR2 : List Byte :=
  [0x67, 0x47, 0x52, 0x4F, 0x55, 0x4E, 0x44, 0x31, 0xF2, 0x07, 0x12, 0x34] ++ blob2 ++ [0x61, 0x62, 0x63]

/-- T-FR2, the second command. -/
theorem test_frameParse_ext :
    let t := run 0x102 (start { r0 := 0x00160200 } [(0x200, frameFR2)])
    outcome t = (0, 0, { r0 := 0x220F070C, r1 := 0x00071234, r2 := 0x00070201, r3 := 0x0007020C
                         r4 := 0x00030213, r5 := 0x00000216, r6 := 2 })
      ∧ t.extTab = [⟨0x020D0110, 0x7B, 0⟩, ⟨0x020F0144, 0x64, 0x28⟩] ∧ t.extCount = 2 := by decide +kernel

/-- What an encode command reports and writes at 0x200 (T-EX1). -/
def encoded (w : Nat) (a b : Word) (n : Nat) : Nat × Nat × RegFile × List Byte :=
  let t := run w (start { r0 := a, r1 := b, r2 := 0x200 } [])
  (t.code.toNat, t.detail.toNat, t.res, memRead t 0x200 n)

theorem test_extEncArqSequence :
    encoded 0x010 0x17B 0 2 = (0, 0, { r0 := 2 }, [0x10, 0x7B]) := by decide +kernel

theorem test_extEncArqRequest :
    encoded 0x110 5 0x8001 4 = (0, 0, { r0 := 4 }, [0x31, 0x05, 0x80, 0x01]) := by decide +kernel

theorem test_extEncArqControl :
    encoded 0x210 1 2 3 = (0, 0, { r0 := 3 }, [0x22, 0x01, 0x02]) := by decide +kernel

theorem test_extEncArqHandshake :
    encoded 0x310 1 0xDEADBEEF 6 = (0, 0, { r0 := 6 }, [0x53, 0x01, 0xDE, 0xAD, 0xBE, 0xEF]) := by
  decide +kernel

theorem test_extEncTddControl :
    encoded 0x410 100 40 5 = (0, 0, { r0 := 5 }, [0x44, 0x00, 0x64, 0x00, 0x28]) := by decide +kernel

theorem test_extEncHmacSequenceReset :
    encoded 0x510 0x1234 0 3 = (0, 0, { r0 := 3 }, [0x25, 0x12, 0x34]) := by decide +kernel

/-- T-EX2: `EXT_ENC_RAW.t9`. -/
theorem test_extEncRaw :
    let t := run 0x911 (start { r2 := 0x200, r3 := 0x00020300 } [(0x300, [0xAA, 0xBB])])
    outcome t = (0, 0, { r0 := 3 }) ∧ memRead t 0x200 3 = [0x29, 0xAA, 0xBB] := by decide +kernel

/-- T-EX2: data of 16 bytes. -/
theorem test_extEncRaw_too_long :
    outcome (run 0x911 (start { r2 := 0x200, r3 := 0x00100300 } [])) = (1, 0x0A, {}) := by decide +kernel

/-- T-EX1, the fourth row. -/
theorem test_extDec :
    outcome (run 0x012 (start { r0 := 0x00060200 } [(0x200, [0x53, 0x01, 0xDE, 0xAD, 0xBE, 0xEF])]))
      = (0, 0, { r0 := 0x02010153, r1 := 1, r2 := 0xDEADBEEF, r3 := 6 }) := by decide +kernel

/-- T-EX2: an unknown type. -/
theorem test_extDec_unknown :
    outcome (run 0x012 (start { r0 := 0x00030200 } [(0x200, [0x29, 0xAA, 0xBB])]))
      = (0, 0, { r0 := 0x02010029, r3 := 3 }) := by decide +kernel

/-- T-EX3, the first row. -/
theorem test_extDecAll :
    let t := run 0x013 (start { r0 := 0x00070200 } [(0x200, blob2)])
    outcome t = (0, 0, { r0 := 2 }) ∧ t.extCount = 2
      ∧ t.extTab = [⟨0x02010110, 0x7B, 0⟩, ⟨0x02030144, 0x64, 0x28⟩] := by decide +kernel

/-- T-EX3, the second row: nothing is kept. -/
theorem test_extDecAll_truncated :
    let t := run 0x013 ((start { r0 := 0x00040200 } [(0x200, blob2)]).setExtTab [⟨0x10129, 0, 0⟩])
    outcome t = (1, 0x06, {}) ∧ t.extCount = 0 ∧ t.extTab = [] := by decide +kernel

/-- T-GO1. -/
theorem test_golayEnc :
    outcome (run 0x020 (start { r0 := 0xFFFFF0C8 } [])) = (0, 0, { r0 := 0x00E6F0C8 }) := by decide +kernel

/-- V4. -/
theorem test_golayDec :
    outcome (run 0x021 (start { r0 := 0x0066E0C9 } []))
      = (0, 0, { r0 := 0xC8, r1 := 0x00801001, r2 := 0x303 }) := by decide +kernel

/-- T-GO2: weight 4. -/
theorem test_golayDec_uncorrectable :
    let t := run 0x021 (start { r0 := 0x00E6F0C7 } [])
    outcome t = (2, 0x01, {}) ∧ t.sticky = 0x04 := by decide +kernel

/-- T-GO3. -/
theorem test_golayEncBytes :
    let t := run 0x022 (start { r0 := 200, r1 := 0x40 } [])
    outcome t = (0, 0, { r0 := 0x00E6F0C8 }) ∧ memRead t 0x40 3 = [0xE6, 0xF0, 0xC8] := by decide +kernel

/-- T-GO3. -/
theorem test_golayDecBytes :
    outcome (run 0x023 (start { r0 := 0x40 } [(0x40, [0x66, 0xE0, 0xC9])]))
      = (0, 0, { r0 := 0xC8, r1 := 0x00801001, r2 := 0x303 }) := by decide +kernel

/-- Section 5. -/
theorem test_prefixEnc :
    let t := run 0x024 (start { r0 := 0x11E, r1 := 0x50 } [])
    outcome t = (0, 0, { r0 := 0x002B711E }) ∧ memRead t 0x50 3 = [0x2B, 0x71, 0x1E] := by decide +kernel

/-- Section 5: the destination check precedes the Viterbi check. -/
theorem test_prefixEnc_errors :
    outcome (run 0x024 (start { r0 := 0x800, r1 := 1022 } [])) = (6, 0x02, {})
      ∧ outcome (run 0x024 (start { r0 := 0x900, r1 := 0x50 } [])) = (3, 0x02, {})
      ∧ outcome (run 0x024 (start { r0 := 0x01E, r1 := 0x50 } [])) = (5, 0x03, {}) := by decide +kernel

/-- Section 5: a channel error in the Viterbi bit is corrected before the check. -/
theorem test_prefixDec :
    outcome (run 0x025 (start { r0 := 0x60 } [(0x60, [0x2B, 0x79, 0x1E])]))
      = (0, 0, { r0 := 0x11E, r1 := 0x800, r2 := 0x301 }) := by decide +kernel

/-- Section 5: the codeword of 0x800. -/
theorem test_prefixDec_viterbi :
    outcome (run 0x025 (start { r0 := 0x60 } [(0x60, [0x8E, 0xD8, 0x00])])) = (3, 0x01, {}) := by
  decide +kernel

/-- T-AU1. -/
theorem test_keyLoad :
    let t := run 0x030 (start { r0 := 992 } [(992, vectorKey)])
    outcome t = (0, 0, {}) ∧ statusWord t = 0x00020000 ∧ t.key = key00 := by decide +kernel

/-- T-AU1. -/
theorem test_keyClear :
    let t := run 0x031 (keyed State.reset)
    outcome t = (0, 0, {}) ∧ statusWord t = 0 ∧ t.key = Key.zero := by decide +kernel

/-- T-AU2, the first row. -/
theorem test_authAppend :
    let t := run 0x032 (keyed (start { r0 := 0x00030200 } [(0x200, [0x61, 0x62, 0x63])]))
    outcome t = (0, 0, { r0 := 11 }) ∧ memRead t 0x200 11
      = [0x61, 0x62, 0x63, 0xF0, 0x13, 0x37, 0x29, 0xC4, 0x16, 0x3D, 0xED] := by decide +kernel

/-- T-AU2: what the first row wrote. -/
def appended : List Byte := [0x61, 0x62, 0x63, 0xF0, 0x13, 0x37, 0x29, 0xC4, 0x16, 0x3D, 0xED]

theorem test_authVerify :
    outcome (run 0x033 (keyed (start { r0 := 0x000B0200 } [(0x200, appended)]))) = (0, 0, { r0 := 3 }) := by
  decide +kernel

/-- T-AU2: one trailer bit flipped. -/
theorem test_authVerify_mismatch :
    outcome (run 0x033 (keyed (start { r0 := 0x000B0200 } [(0x200, appended.set 10 0xEC)])))
      = (4, 0x01, {}) := by decide +kernel

/-- FIPS 180-4: the first and the last round constant, the first and the last initial word. -/
theorem test_sha_constants :
    shaRoundConstants.length = 64 ∧ shaRoundConstants.head? = some 0x428A2F98
      ∧ shaRoundConstants.getLast? = some 0xC67178F2
      ∧ shaInitial.a = 0x6A09E667 ∧ shaInitial.h = 0x5BE0CD19 := by decide +kernel

/-- The MAC state of T-MA1. -/
def macMA1 : MacState := ⟨true, 0, 10, 7, 3, 5, 0, false⟩

/-- T-MA1, and T-MA3: an epoch of 0xFFFFFF. -/
theorem test_macInit :
    let t := run 0x040 (start { r1 := 0x0007000A, r2 := 0x00050003 } [])
    outcome t = (0, 0, { r0 := 25 }) ∧ t.mac = macMA1
      ∧ (run 0x040 (start { r0 := 0xFFFFFF, r1 := 0x0007000A, r2 := 0x00050003 } [])).mac
        = { macMA1 with epoch := 15 } := by decide +kernel

/-- T-MA1 at `now`. -/
def atTime (now : Word) : State := (start { r0 := now } []).setMac macMA1

theorem test_macOwnRem :
    outcome (run 0x041 (atTime 24)) = (0, 0, { r0 := 0xFFFFFFF2 })
      ∧ outcome (run 0x041 (atTime 0x01000005)) = (0, 0, { r0 := 5 }) := by decide +kernel

theorem test_macPeerRem :
    outcome (run 0x042 (atTime 13)) = (0, 0, { r0 := 7 })
      ∧ outcome (run 0x042 (atTime 12)) = (0, 0, { r0 := 0xFFFFFFEF }) := by decide +kernel

theorem test_macCanSend :
    outcome (run 0x043 (atTime 9)) = (0, 0, { r0 := 1 })
      ∧ outcome (run 0x043 (atTime 10)) = (0, 0, {}) := by decide +kernel

/-- T-MA2. -/
theorem test_macUpdate :
    let t := run 0x044 ((start { r0 := 100, r1 := 0x00040009 } []).setMac macMA1)
    outcome t = (0, 0, { r0 := 1 }) ∧ t.mac = ⟨true, 1, 10, 9, 3, 5, 100, true⟩ := by decide +kernel

/-- T-MA2. -/
theorem test_macSetOwn :
    let t := run 0x045 ((start { r1 := 12 } []).setMac ⟨true, 1, 10, 9, 3, 5, 100, true⟩)
    outcome t = (0, 0, { r0 := 29 }) ∧ t.mac = ⟨true, 1, 12, 9, 3, 5, 100, true⟩ := by decide +kernel

/-- Section 8: an illegal word. -/
theorem test_illegal_word :
    let t := run 0x402 ((start {} []).setExtTab [⟨0x10129, 0, 0⟩])
    outcome t = (7, 0x02, {}) ∧ t.sticky = 0x80 ∧ t.extCount = 1 := by decide +kernel

/-! ### The host port (T-HO1, T-HZ1, T-RS1) -/

theorem test_bus_word_write :
    memRead (hostWrite .w32 0x10010 0x11223344 State.reset) 0x10 4 = [0x11, 0x22, 0x33, 0x44] := by
  decide +kernel

theorem test_bus_refused :
    (hostRead .w32 0x10011 State.reset).sticky = 0x100 ∧ (hostRead .w32 0x10400 State.reset).sticky = 0x100
      ∧ (hostRead .w8 0x00008 State.reset).sticky = 0x100 ∧ (hostRead .w32 0x00084 State.reset).sticky = 0x100
      ∧ (hostWrite .w32 0x00040 5 State.reset).sticky = 0x100
      ∧ (hostWrite .w32 0x01000 5 State.reset).sticky = 0x100 := by decide +kernel

theorem test_bus_reset_reads :
    (hostRead .w32 0x00000 State.reset).env.readData = 0x534B010C
      ∧ (hostRead .w32 0x00004 State.reset).env.readData = 0x08180400
      ∧ (hostRead .w32 0x00008 State.reset).env.readData = 0 := by decide +kernel

/-- T-HZ1: one write while the command is in flight. -/
theorem test_bus_hazard :
    let s := ((start { r0 := 200 } []).setBusy true).setCmdReg 0x20
    let t := hostWrite .w32 0x00020 5 s
    t.sticky = 0x200 ∧ t.arg.r0 = 200 := by decide +kernel

/-! ### Witnesses: each statement's hypotheses, met together -/

/-- Right after reset, with these events to come. -/
def withBus (s : State) (bus : List HostEvent) : State :=
  s.setEnv { s.env with bus := bus }

/-- With a command in flight for `n` more cycles. -/
def inFlight (s : State) (w : Word) (n : Nat) : State :=
  ((s.setBusy true).setCmdReg w).setEnv { s.env with cyclesLeft := n }

/-- `Obligations.DecodeChecksInOrder`: each branch. -/
theorem witness_DecodeChecksInOrder :
    highHalfZero 0x00010003 = false
      ∧ (highHalfZero 0x00000003 = true ∧ opcodeAssigned 0x00000003 = false)
      ∧ (opcodeAssigned 0x00001610 = true ∧ modBitsListed 0x00001610 = false)
      ∧ (modBitsListed 0x00000610 = true ∧ extTypeKnown 0x00000610 = false)
      ∧ wellFormedWord 0x00000510 = true := by decide

/-- `Obligations.IllegalWordChangesOnlyOutcome`: each disjunct, the type at its boundary 6. -/
theorem witness_IllegalWordChangesOnlyOutcome :
    (0x00010000 : Word).extractLsb' 16 16 ≠ 0 ∧ opcodeAssigned 0x00000046 = false
      ∧ modBitsListed 0x00000401 = false
      ∧ (opcodeField 0x00000610 = 0x10 ∧ 6 ≤ ((0x00000610 : Word).extractLsb' 8 4).toNat) := by decide

/-- `Obligations.StepRunsIssuedCommand`, `Obligations.CmdPort`. -/
theorem witness_StepRunsIssuedCommand :
    let s := withBus State.reset [.access (.write .w32 0x00010 0x20), .poll]
    s.busy = false ∧ s.env.bus = .access (.write .w32 0x00010 0x20) :: [.poll] ∧ commandLatency 0x20 s = 0
      ∧ decode 0x20 = .ok .golayEnc ∧ decode (tableWord 32 0x20) = .ok .golayEnc := by decide +kernel

/-- `Obligations.StepPerformsHostAccess`: each kind of event, with no command in flight and with one that has two
cycles left or one; a narrow write to `CMD`, and one while a command is in flight, are accesses too. -/
theorem witness_StepPerformsHostAccess :
    let s := withBus State.reset
    let b := fun n bus => withBus (inFlight State.reset 0x20 n) bus
    State.reset.busy = false ∧ State.reset.env.bus = [] ∧ (s [.idle]).env.bus = [.idle]
      ∧ (s [.poll, .idle]).env.bus = [.poll, .idle]
      ∧ (s [.access (.read .w8 0x103FF)]).env.bus = [.access (.read .w8 0x103FF)]
      ∧ (s [.access (.write .w8 0x00010 1)]).env.bus = [.access (.write .w8 0x00010 1)]
      ∧ ((b 2 [.poll]).busy = true ∧ 2 ≤ (b 2 [.poll]).env.cyclesLeft ∧ (b 2 [.poll]).env.bus = .poll :: [])
      ∧ ((b 1 [.poll]).busy = true ∧ (b 1 [.poll]).env.cyclesLeft ≤ 1)
      ∧ (b 2 [.access (.write .w32 0x00010 1)]).env.bus = [.access (.write .w32 0x00010 1)]
      ∧ ¬ (State.reset.busy = false ∧ Width.w8 = .w32 ∧ (0x00010 : BitVec 17) = 0x00010)
      ∧ ¬ ((b 2 []).busy = false ∧ Width.w32 = .w32 ∧ (0x00010 : BitVec 17) = 0x00010) := by decide +kernel

/-- `Obligations.LatencyDoesNotChangeTheResult`, with latency 2 and with latency 0. -/
theorem witness_LatencyDoesNotChangeTheResult :
    let s := (withBus State.reset (.access (.write .w32 0x00010 0x20) :: (List.replicate 2 .idle ++ [.poll])))
    let t := s.setEnv { s.env with latency := .fixed 2 }
    let u := withBus State.reset (.access (.write .w32 0x00010 0x20) :: (List.replicate 0 .idle ++ []))
    t.busy = false ∧ t.env.cyclesLeft = 0
      ∧ t.env.bus = .access (.write .w32 0x00010 0x20) :: (List.replicate 2 .idle ++ [.poll])
      ∧ commandLatency 0x20 t = 2
      ∧ u.env.bus = .access (.write .w32 0x00010 0x20) :: (List.replicate 0 .idle ++ [])
      ∧ commandLatency 0x20 u = 0 := by decide +kernel

/-- `Obligations.HostCannotDisturbCommandInFlight`: the host writes all it can while the command runs. -/
theorem witness_HostCannotDisturbCommandInFlight :
    let s := withBus (inFlight (start { r0 := 200 } []) 0x20 3)
      [.access (.write .w32 0x00020 5), .access (.write .w32 0x00010 0x21), .access (.write .w8 0x10000 1)]
    s.busy = true ∧ s.env.cyclesLeft = 2 + 1 ∧ HostEvent.reset ∉ s.env.bus
      ∧ (inFlight State.reset 0x20 1).env.cyclesLeft = 0 + 1 := by decide +kernel

/-- A state far from reset: a failed command before, a key, a table, a MAC state, a command in flight. -/
def livingState : State :=
  inFlight (((((keyed (start { r0 := 1 } [(0, [5, 6])])).setMac macMA1).setExtTab
    [⟨0x020D0110, 0x7B, 0⟩, ⟨0x00FF0006, 0, 0⟩]).setOutcome 5 1).setSticky 0x120) 0x13 2

/-- `Obligations.StepKeepsInv`. -/
theorem witness_StepKeepsInv : livingState.Inv ∧ ∃ t, step livingState = .next t := by
  refine ⟨⟨by decide +kernel, by decide +kernel, by decide +kernel, ?_, by decide +kernel,
    .inr ⟨.keyMissing, rfl, rfl⟩, fun _ => rfl, rfl, ?_, ?_, ?_⟩, _, rfl⟩
  · unfold extWordsShaped; decide +kernel
  · intro h; exact absurd h (by decide)
  · unfold macGood; decide +kernel
  · decide +kernel

/-- `Obligations.ResetAbandonsCommand`, while a command is in flight. -/
theorem witness_ResetAbandonsCommand :
    (withBus livingState [.reset, .poll]).env.bus = .reset :: [.poll] := by decide +kernel

/-- `Obligations.IdAndCapsRead`. -/
theorem witness_IdAndCapsRead : (0x00004 : BitVec 17) = 0x00000 ∨ (0x00004 : BitVec 17) = 0x00004 := by
  decide

/-- `Obligations.ArgPort`, `Obligations.CmdPort`, `Obligations.BufPortIsBigEndian`, `Obligations.RegistersRead`,
`Obligations.ReadsHaveNoSideEffect`: busy or not, the whole accesses at the end of `BUF`, another register. -/
theorem witness_BusyOrNot :
    State.reset.busy = false ∧ livingState.busy = true
      ∧ (1020 % 4 = 0 ∧ 1020 + 4 ≤ State.reset.env.build.bufBytes)
      ∧ (1022 % 2 = 0 ∧ 1022 + 2 ≤ State.reset.env.build.bufBytes) ∧ 1023 < State.reset.env.build.bufBytes
      ∧ (1022 % widthBytes .w16 = 0 ∧ 1022 + widthBytes .w16 ≤ livingState.env.build.bufBytes)
      ∧ (0 : Fin 8) ≠ 7 := by decide +kernel

/-- `Obligations.StickyPort`: the clear and the set in one cycle. -/
theorem witness_StickyPort :
    let s := withBus (inFlight (State.reset.setSticky 0x80) 0x03 1) [.access (.write .w32 0x0000C 0x3FE)]
    s.busy = true ∧ s.env.cyclesLeft = 1 ∧ s.env.bus = .access (.write .w32 0x0000C 0x3FE) :: []
      ∧ ∃ t, step s = .next t ∧ t.code ≠ 0 := by
  refine ⟨rfl, rfl, rfl, _, rfl, by decide +kernel⟩

/-- `Obligations.RefusedAccess`, `Obligations.ReadsHaveNoSideEffect`: what may be read at each end of each range, and what may not next to it. -/
theorem witness_RefusedAccess_read :
    (∀ a ∈ [0x00010, 0x00020, 0x00060, 0x00070, 0x00080, 0x01000, 0x01BF0, 0x10000, 0x103FC],
        hostReadable Build.default .w32 a)
      ∧ hostReadable Build.default .w8 0x103FF
      ∧ (∀ a ∈ [0x00014, 0x0001C, 0x00064, 0x0006C, 0x00084, 0x00FFC, 0x01BF4, 0x0FFFC, 0x10400, 0x10011],
        ¬ hostReadable Build.default .w32 a)
      ∧ ¬ hostReadable Build.default .w16 0x103FF ∧ ¬ hostReadable Build.default .w16 0x00008 := by
  decide +kernel

/-- `Obligations.RefusedAccess`: the same for writes; the last clause's `BUS_ERR` was there before the write. -/
theorem witness_RefusedAccess_write :
    (∀ a ∈ [0x0000C, 0x00010, 0x00020, 0x0003C, 0x10000, 0x103FC], hostWritable Build.default .w32 a)
      ∧ (∀ a ∈ [0x00008, 0x00014, 0x0001C, 0x00040, 0x01000, 0x0FFFC, 0x10400],
        ¬ hostWritable Build.default .w32 a)
      ∧ ¬ hostWritable Build.default .w16 0x103FF
      ∧ (hostWrite .w32 0x0003C 5 (State.reset.setSticky 0x100)).sticky.getLsbD 8 = true := by
  decide +kernel

/-- `Obligations.ExtTabPort`: a filled entry and the first empty one; the last word of the table. -/
theorem witness_ExtTabPort :
    let s := (State.reset).setExtTab [⟨0x020D0110, 0x7B, 0⟩]
    254 < 255 ∧ 2 < 3 ∧ s.busy = false ∧ s.extCount.toNat = s.extTab.length
      ∧ s.extTab[0]? = some ⟨0x020D0110, 0x7B, 0⟩ ∧ s.extCount.toNat ≤ 1 ∧ s.extCount.toNat ≤ 254 := by
  decide +kernel

/-- `Obligations.FailedCommandChangesNothingElse`: a table command that fails, one whose word is illegal, and
another command. -/
theorem witness_FailedCommandChangesNothingElse :
    let s := (start { r0 := 0x01000200 } []).setExtTab [⟨0x10129, 0, 0⟩]
    (∃ t, runCommand 0x13 s = .next t ∧ t.code ≠ 0 ∧ t.code ≠ 7)
      ∧ (∃ t, runCommand 0x402 s = .next t ∧ t.code ≠ 0) ∧ ∃ t, runCommand 0x41 s = .next t ∧ t.code ≠ 0 := by
  refine ⟨⟨_, rfl, ?_, ?_⟩, ⟨_, rfl, ?_⟩, ⟨_, rfl, ?_⟩⟩ <;> decide +kernel

/-- `Obligations.SuccessKeepsSticky`. -/
theorem witness_SuccessKeepsSticky : ∃ t, runCommand 0x20 livingState = .next t ∧ t.code = 0 :=
  ⟨_, rfl, by decide +kernel⟩

/-- `Obligations.WhichCommandWritesWhat`: `GOLAY_DEC` meets every clause's hypotheses. -/
theorem witness_WhichCommandWritesWhat :
    (∃ t, exec .golayDec livingState = .next t) ∧ Instr.golayDec ≠ .keyLoad
      ∧ (∀ dx vf, Instr.golayDec ≠ .frameParse dx vf) ∧ Instr.golayDec ≠ .macInit
      ∧ ∀ au fec, Instr.golayDec ≠ .frameBuild au fec := by
  exact ⟨⟨_, rfl⟩, by decide, by decide, by decide, by decide⟩

/-- `Obligations.KeyIsConfidential`: a command word, an illegal word, and a step that completes the command in
flight while the host writes `CMD`. -/
theorem witness_KeyIsConfidential :
    let s := withBus (inFlight livingState 0x30 1) [.access (.write .w32 0x00010 0x31)]
    let s' : State := { s with key := Key.zero }
    (∀ i, decode 0x30 = .ok i → usesKey i = false) ∧ (∀ i, decode 0x03 = .ok i → usesKey i = false)
      ∧ (∃ t t', runCommand 0x30 s = .next t ∧ runCommand 0x30 s' = .next t')
      ∧ s.key ≠ s'.key
      ∧ (∀ i, s.busy = true → decode s.cmdReg = .ok i → usesKey i = false)
      ∧ (∀ w rest i, s.env.bus = .access (.write .w32 0x00010 w) :: rest → decode w = .ok i → usesKey i = false)
      ∧ ∃ t t', step s = .next t ∧ step s' = .next t' := by
  have load : ∀ i, decode 0x30 = .ok i → usesKey i = false := by
    intro i h; rw [show decode 0x30 = .ok .keyLoad by decide] at h; cases h; rfl
  refine ⟨load, ?_, ⟨_, _, rfl, rfl⟩, by decide +kernel, fun i _ h => load i h, ?_, ⟨_, _, rfl, rfl⟩⟩
  · intro i h; rw [show decode 0x03 = .error .opcodeUnassigned by decide] at h; cases h
  · intro w rest i hb h
    cases hb
    rw [show decode 0x31 = .ok .keyClear by decide] at h; cases h; rfl

/-- `Obligations.LatencyDoesNotDependOnKey`: another key and another `BUF`. -/
theorem witness_LatencyDoesNotDependOnKey :
    let s := keyed (start { r0 := 0x001E0100 } [(0x100, frameV2)])
    let t := memWrite (s.setKey Key.zero true) 0x110 [1]
    t ≠ s ∧ t.arg = s.arg ∧ t.keyValid = s.keyValid ∧ t.env.build = s.env.build
      ∧ t.env.latency = s.env.latency ∧ errorOf (frameHeader true t) = errorOf (frameHeader true s) := by
  decide +kernel

/-- `Obligations.NopCompletes`: the other words with opcode 0. -/
theorem witness_NopCompletes : opcodeField 0x00000100 = 0 ∧ (0x00000100 : Word) ≠ 0 := by decide

/-- `Obligations.GolayStoresTriple`: the triple ends at 1024. -/
theorem witness_GolayStoresTriple :
    let s := start { r0 := 0x11E, r1 := 1021 } []
    s.arg.r0.getLsbD 11 = false ∧ s.arg.r0.getLsbD 8 = true
      ∧ (s.arg.r1.extractLsb' 0 16).toNat + 3 ≤ s.env.build.bufBytes := by decide +kernel

/-- `Obligations.GolayCorrectsThreeErrors`: three errors on 200 for the two `GOLAY_DEC`s, on 0x11E for
`PREFIX_DEC`, the triple at the end of `BUF`. -/
theorem witness_GolayCorrectsThreeErrors :
    let s := start { r0 := 0x0066E0C9 } []
    let t := start { r0 := 1021 } [(1021, [0x2B, 0x71, 0x19])]
    s.env.build.golayB = defaultGolayB ∧ popcount (0x801001 : BitVec 24) ≤ 3
      ∧ s.arg.r0.extractLsb' 0 24 = golayEncode defaultGolayB 200 ^^^ 0x801001
      ∧ popcount (0x7 : BitVec 24) ≤ 3
      ∧ (t.arg.r0.extractLsb' 0 16).toNat + 3 ≤ t.env.build.bufBytes
      ∧ tripleAt t (t.arg.r0.extractLsb' 0 16).toNat = golayEncode defaultGolayB 0x11E ^^^ 0x7
      ∧ (0x11E : BitVec 12).getLsbD 11 = false := by decide +kernel

/-- A legal `GOLAY_B` other than the default: its first two rows and columns exchanged. -/
def otherBuild : Build where
  variant := .keyedHash4
  bufBytes := 65535
  golayB := [0x1DB, 0x4ED, 0x3B5, 0xB69, 0xED1, 0xDA3, 0x747, 0xA8F, 0xD1D, 0x63B, 0x877, 0xFFE]
  busErrResponse := true
  bufBytes_range := by decide
  golayB_legal := by decide

/-- `Obligations.GolayNeverMiscomputes`: under another matrix, each command receives the same word, at the end of
the largest `BUF`; a data half with the Viterbi bit and one without. -/
theorem witness_GolayNeverMiscomputes :
    let at_ := fun (w : Word) bs => let s := start { r0 := w } bs; s.setEnv { s.env with build := otherBuild }
    let word := at_ 0x002B711E []
    let bytes := at_ 0xFFFC [(0xFFFC, [0x2B, 0x71, 0x1E])]
    otherBuild.golayB ≠ defaultGolayB
      ∧ word.env.build = otherBuild ∧ word.arg.r0.extractLsb' 0 24 = (0x2B711E : BitVec 24)
      ∧ bytes.env.build = otherBuild ∧ (bytes.arg.r0.extractLsb' 0 16).toNat + 3 ≤ otherBuild.bufBytes
      ∧ tripleAt bytes (bytes.arg.r0.extractLsb' 0 16).toNat = (0x2B711E : BitVec 24)
      ∧ (0x11E : BitVec 12).getLsbD 11 = false ∧ (0x91E : BitVec 12).getLsbD 11 = true := by decide +kernel

/-- `Obligations.GolayDetectsFourErrors`. -/
theorem witness_GolayDetectsFourErrors :
    let s := start { r0 := 0x00E6F0C7 } []
    s.env.build.golayB = defaultGolayB ∧ popcount (0xF : BitVec 24) = 4
      ∧ s.arg.r0.extractLsb' 0 24 = golayEncode defaultGolayB 200 ^^^ 0xF := by decide +kernel

/-- `Obligations.GolayErrorsInOrder`: each error of each command. -/
theorem witness_GolayErrorsInOrder :
    let triple := fun bs => start { r0 := 0x60 } [(0x60, bs)]
    firstFailure (golayDecFailures (start { r0 := 0x00E6F0C7 } [])) = some .uncorrectable
      ∧ firstFailure (golayEncBytesFailures (start { r1 := 1022 } [])) = some .destinationRange
      ∧ firstFailure (golayDecBytesFailures (start { r0 := 1022 } [])) = some .sourceRange
      ∧ firstFailure (golayDecBytesFailures (triple [0xE6, 0xF0, 0xC7])) = some .uncorrectable
      ∧ firstFailure (prefixEncFailures (start { r0 := 0x800, r1 := 1022 } [])) = some .destinationRange
      ∧ firstFailure (prefixEncFailures (start { r0 := 0x900, r1 := 1021 } [])) = some .viterbiRequested
      ∧ firstFailure (prefixEncFailures (start { r0 := 0x01E, r1 := 1021 } [])) = some .prefixWithoutFec
      ∧ firstFailure (prefixDecFailures (start { r0 := 1022 } [])) = some .sourceRange
      ∧ firstFailure (prefixDecFailures (triple [0x2B, 0x71, 0x11])) = some .uncorrectable
      ∧ firstFailure (prefixDecFailures (triple [0x8E, 0xD8, 0x00])) = some .viterbiDecoded := by
  decide +kernel

/-- `Obligations.ExtEncWritesItsRecord`: each record ends at 1024. -/
theorem witness_ExtEncWritesItsRecord :
    let fits := fun (dst : Word) (n : Nat) =>
      let s := start { r2 := dst } []
      (s.arg.r2.extractLsb' 0 16).toNat + n ≤ s.env.build.bufBytes
    fits 1022 2 ∧ fits 1020 4 ∧ fits 1021 3 ∧ fits 1018 6 ∧ fits 1019 5 := by decide +kernel

/-- `Obligations.ExtEncRawWritesItsRecord`: 15 bytes that end at 1024, and no byte. -/
theorem witness_ExtEncRawWritesItsRecord :
    let fits := fun (s : State) =>
      let so := (s.arg.r3.extractLsb' 0 16).toNat
      let sl := (s.arg.r3.extractLsb' 16 16).toNat
      so + sl ≤ s.env.build.bufBytes ∧ sl ≤ 15
        ∧ (s.arg.r2.extractLsb' 0 16).toNat + 1 + sl ≤ s.env.build.bufBytes
    fits (start { r2 := 1008, r3 := 0x000F03F1 } []) ∧ fits (start { r2 := 1023, r3 := 0x00000400 } []) := by
  decide +kernel

/-- `Obligations.ExtDecReportsTheRecord`: each known type, and an unknown one of one byte at the end of `BUF`. -/
theorem witness_ExtDecReportsTheRecord :
    let fits := fun (s : State) =>
      let bo := (s.arg.r0.extractLsb' 0 16).toNat
      let bn := (s.arg.r0.extractLsb' 16 16).toNat
      let h := bufByte s bo
      let len := (h.extractLsb' 4 4).toNat
      let type := (h.extractLsb' 0 4).toNat
      bo + bn ≤ s.env.build.bufBytes ∧ 1 + len ≤ bn ∧ (type ≤ 5 → len = knownDataLen type)
    (fits (start { r0 := 0x00020200 } [(0x200, [0x10])]) ∧ fits (start { r0 := 0x00040200 } [(0x200, [0x31])])
        ∧ fits (start { r0 := 0x00030200 } [(0x200, [0x22])])
        ∧ fits (start { r0 := 0x00060200 } [(0x200, [0x53])])
        ∧ fits (start { r0 := 0x00050200 } [(0x200, [0x44])])
        ∧ fits (start { r0 := 0x00030200 } [(0x200, [0x25])]))
      ∧ fits (start { r0 := 0x000103FF } [(1023, [0x06])]) := by decide +kernel

/-- Records of a known type, of an unknown one, and a long one. -/
def records : List ExtRecord :=
  [.arqSequence 0x7B, .tddControl 100 40, .opaqueRecord 9 [0xAA, 0xBB], .opaqueRecord 15 (List.replicate 15 7)]

/-- `Obligations.ExtDecAllInvertsTheChain`: a mixed chain, and none at the end of `BUF`. -/
theorem witness_ExtDecAllInvertsTheChain :
    let holds := fun (s : State) (rs : List ExtRecord) =>
      let bo := (s.arg.r0.extractLsb' 0 16).toNat
      let bn := (s.arg.r0.extractLsb' 16 16).toNat
      (∀ r ∈ rs, r.wireLegal = true) ∧ bo + bn ≤ s.env.build.bufBytes ∧ bn ≤ 255
        ∧ memRead s bo bn = chainBytes rs
    holds (start { r0 := 0x001A0200 } [(0x200, chainBytes records)]) records
      ∧ holds (start { r0 := 0x00000400 } []) [] := by decide +kernel

/-- `Obligations.BadRecordFailsTheChain`: a truncated record and a wrong length, after a good record, in a blob
and in a frame. -/
theorem witness_BadRecordFailsTheChain :
    let blob := start { r0 := 0x00040200 } [(0x200, [0x10, 0x7B, 0x30, 0x7B])]
    let frame := start { r0 := 0x000A0000 } [(0, [0x61, 0x41, 0x03, 0x04, 0x00, 0x01, 0x10, 0x7B, 0x13, 0x7B])]
    (∀ r ∈ [ExtRecord.arqSequence 0x7B], r.wireLegal = true)
      ∧ firstFailure (recordFailures 0x30 1) = some .recordTruncated
      ∧ memRead blob 0x200 4 = chainBytes [.arqSequence 0x7B] ++ 0x30 :: [0x7B]
      ∧ firstFailure (recordFailures 0x13 1) = some .recordLengthWrong
      ∧ firstFailure (frameParseFailures false frame) = none
      ∧ ((bufByte frame 0).extractLsb' 0 3).toNat = 1 ∧ (bufByte frame 3).toNat = 4
      ∧ memRead frame 6 4 = chainBytes [.arqSequence 0x7B] ++ 0x13 :: [0x7B] := by decide +kernel

/-- `Obligations.ExtErrorsInOrder`: each error of each command, each encode one byte too far. -/
theorem witness_ExtErrorsInOrder :
    let rec1 := fun n bs => start { r0 := n } [(0x200, bs)]
    (∀ p ∈ [((1023 : Word), 2), (1021, 4), (1022, 3), (1019, 6), (1020, 5), (1022, 3)],
        State.reset.env.build.bufBytes < (p.1.extractLsb' 0 16).toNat + p.2)
      ∧ firstFailure (extEncRawFailures (start { r3 := 0x001003F1 } [])) = some .sourceRange
      ∧ firstFailure (extEncRawFailures (start { r3 := 0x00100300 } [])) = some .rawDataTooLong
      ∧ firstFailure (extEncRawFailures (start { r2 := 1009, r3 := 0x000F0300 } [])) = some .destinationRange
      ∧ firstFailure (extDecFailures (start { r0 := 0x00010400 } [])) = some .sourceRange
      ∧ firstFailure (extDecFailures (start { r0 := 0x00000200 } [])) = some .recordTruncated
      ∧ firstFailure (extDecFailures (rec1 0x00020200 [0x30, 0x7B])) = some .recordTruncated
      ∧ firstFailure (extDecFailures (rec1 0x00040200 [0x30, 1, 2, 3])) = some .recordLengthWrong
      ∧ firstFailure (extDecAllFailures (start { r0 := 0x002003F0 } [])) = some .sourceRange
      ∧ firstFailure (extDecAllFailures (start { r0 := 0x01000200 } [])) = some .blobTooLong := by
  decide +kernel

/-- The hypotheses of `Obligations.FrameBuildWritesTheFrame`. -/
def buildable (s : State) (auth outerFec : Bool) : Prop :=
  let il := (s.arg.r0.extractLsb' 16 16).toNat
  let pl := (s.arg.r1.extractLsb' 16 16).toNat
  let el := (s.arg.r2.extractLsb' 16 16).toNat
  let size := s.env.build.bufBytes
  let total := 5 + il + el + pl + (if auth then s.env.build.T else 0)
  (s.arg.r0.extractLsb' 0 16).toNat + il ≤ size ∧ (s.arg.r1.extractLsb' 0 16).toNat + pl ≤ size
    ∧ (s.arg.r2.extractLsb' 0 16).toNat + el ≤ size ∧ (auth = true → s.keyValid = true)
    ∧ 1 ≤ il ∧ il ≤ 7 ∧ el ≤ 255 ∧ (s.arg.r3.extractLsb' 16 3).toNat ≤ 3
    ∧ (outerFec = true → total ≤ 255) ∧ (s.arg.r4.extractLsb' 0 16).toNat + total ≤ size

/-- `Obligations.FrameBuildWritesTheFrame`: 255 bytes under `OUTER_FEC` and `AUTH`; the longest identifier and
extensions, ending at 1024; one identifier byte and nothing else. -/
theorem witness_FrameBuildWritesTheFrame :
    buildable (keyed (start { r0 := 0x00060040, r1 := 0x00EC0050, r2 := 0x00000060, r3 := 0x00030000
                              r4 := 0x100 } [])) true true
      ∧ buildable (start { r0 := 0x00070040, r1 := 0x000B0050, r2 := 0x00FF0060, r4 := 746 } []) false false
      ∧ buildable (start { r0 := 0x00010040, r4 := 1018 } []) false true := by
  unfold buildable; decide +kernel

/-- The frame of T-FR3, at 0x200. -/
def frameFR3 : List Byte :=
  frameFR2.set 8 0xFA ++ [0x54, 0x7B, 0x45, 0x13, 0x2A, 0x12, 0xA3, 0x0F]

/-- The hypotheses of `Obligations.FrameParseReportsTheFrame`. -/
def parseable (s : State) (dx vf : Bool) (rs : List ExtRecord) : Prop :=
  let fo := (s.arg.r0.extractLsb' 0 16).toNat
  let n := (s.arg.r0.extractLsb' 16 16).toNat
  let b : Nat → Byte := fun i => bufByte s (fo + i)
  let il := ((b 0).extractLsb' 0 3).toNat
  let f := b (1 + il)
  let el := (b (2 + il)).toNat
  let au := f.getLsbD 3
  let ta := if au then s.env.build.T else 0
  let pl := n - (5 + il + el + ta)
  fo + n ≤ s.env.build.bufBytes ∧ (vf = true → s.keyValid = true)
    ∧ 1 ≤ n ∧ (b 0).extractLsb' 3 5 = 12 ∧ il ≠ 0 ∧ 5 + il + el + ta ≤ n
    ∧ f.getLsbD 5 = decide (0 < pl)
    ∧ (au = true → vf = true → digest s.env.build s.key (memRead s fo (n - ta)) = memRead s (fo + n - ta) ta)
    ∧ (if dx then (∀ r ∈ rs, r.wireLegal = true) ∧ memRead s (fo + 5 + il) el = chainBytes rs else rs = [])

/-- `Obligations.FrameParseReportsTheFrame`: T-FR3 with everything asked for; V2 at the end of `BUF`. -/
theorem witness_FrameParseReportsTheFrame :
    parseable (keyed (start { r0 := 0x001E0200 } [(0x200, frameFR3)])) true true
        [.arqSequence 0x7B, .tddControl 100 40]
      ∧ parseable (start { r0 := 0x001603EA } [(0x3EA, frameV2)]) false false [] := by
  unfold parseable; decide +kernel

/-- `Obligations.FrameRoundTrip`: T-FR3. -/
theorem witness_FrameRoundTrip :
    let s := keyed (start { r0 := 0x00070070, r1 := 0x00030090, r2 := 0x00070080, r3 := 0x01321234
                            r4 := 0x200 } [(0x70, [0x47, 0x52, 0x4F, 0x55, 0x4E, 0x44, 0x31]), (0x80, blob2),
                              (0x90, [0x61, 0x62, 0x63])])
    let rs : List ExtRecord := [.arqSequence 0x7B, .tddControl 100 40]
    (∃ t, exec (.frameBuild true false) s = .next t ∧ t.code = 0) ∧ (∀ e ∈ rs, e.wireLegal = true)
      ∧ memRead s (s.arg.r2.extractLsb' 0 16).toNat (s.arg.r2.extractLsb' 16 16).toNat = chainBytes rs := by
  refine ⟨⟨_, rfl, ?_⟩, ?_, ?_⟩ <;> decide +kernel

/-- `Obligations.FrameBuildErrorsInOrder`: each error (T-FR4). -/
theorem witness_FrameBuildErrorsInOrder :
    let fails := fun auth fec a => firstFailure (frameBuildFailures auth fec (start a []))
    let keyFails := fun a => firstFailure (frameBuildFailures true true (keyed (start a [])))
    fails true true { r0 := 0x000003FF, r1 := 0x000103FF, r2 := 0x00010400 } = some .sourceRange
      ∧ fails false false { r0 := 0x00020400 } = some .sourceRange
      ∧ fails false false { r1 := 0x000B03FC } = some .sourceRange
      ∧ fails true true {} = some .keyMissing ∧ fails false false {} = some .identEmpty
      ∧ fails false false { r0 := 0x00080040 } = some .identTooLong
      ∧ fails false false { r0 := 0x00070040, r2 := 0x01000060 } = some .extensionsTooLong
      ∧ fails false false { r0 := 0x00060040, r3 := 0x00040000 } = some .vcOutOfRange
      ∧ keyFails { r0 := 0x00060040, r1 := 0x00ED0050, r3 := 0x00030000 } = some .overFecBudget
      ∧ fails false false { r0 := 0x00060040, r1 := 0x000B0050, r4 := 1003 } = some .destinationRange := by
  decide +kernel

/-- `Obligations.FrameParseErrorsInOrder`: each error (T-FR5). -/
theorem witness_FrameParseErrorsInOrder :
    let fails := fun vf (n : Word) bs => firstFailure (frameParseFailures vf (start { r0 := n } [(0, bs)]))
    fails true 0x00010400 [] = some .sourceRange ∧ fails true 0 frameV2 = some .keyMissing
      ∧ fails false 0 frameV2 = some .frameTooShort
      ∧ fails false 0x00160000 (frameV2.set 0 0x68) = some .wrongVersion
      ∧ fails false 0x00160000 (frameV2.set 0 0x60) = some .identEmpty
      ∧ fails false 0x000A0000 frameV2 = some .frameTooShort
      ∧ fails false 0x000E0000 (frameV2.set 7 0x2B) = some .frameTooShort
      ∧ fails false 0x000B0000 frameV2 = some .payloadFlagWrong
      ∧ firstFailure (frameParseFailures true
          (keyed (start { r0 := 0x00160000 } [(0, frameV2.set 7 0x2B)]))) = some .trailerMismatch := by
  decide +kernel

/-- `Obligations.FrameParseEmptiesTheTable`: a failing parse, one without `DECODE_EXT`, T-FR2's with its two
records, an illegal word. -/
theorem witness_FrameParseEmptiesTheTable :
    let s := start { r0 := 0x00160200 } [(0x200, frameFR2)]
    let rs : List ExtRecord := [.arqSequence 0x7B, .tddControl 100 40]
    (∃ t, exec (.frameParse true false) livingState = .next t ∧ t.code ≠ 0)
      ∧ (∃ t, exec (.frameParse false false) livingState = .next t)
      ∧ (∃ t, exec (.frameParse true false) s = .next t ∧ t.code = 0)
      ∧ (∀ r ∈ rs, r.wireLegal = true)
      ∧ memRead s (0x200 + 5 + ((bufByte s 0x200).extractLsb' 0 3).toNat)
          (bufByte s (0x200 + 2 + ((bufByte s 0x200).extractLsb' 0 3).toNat)).toNat = chainBytes rs
      ∧ opcodeField 0x00000402 = 0x02 ∧ ∀ i, decode 0x00000402 ≠ .ok i := by
  refine ⟨⟨_, rfl, by decide +kernel⟩, ⟨_, rfl⟩, ⟨_, rfl, by decide +kernel⟩, by decide +kernel,
    by decide +kernel, by decide, fun i h => ?_⟩
  rw [show decode 0x00000402 = .error .reservedBits by decide] at h
  cases h

/-- `Obligations.KeyCommandsComplete`, `Obligations.AuthErrorsInOrder`: a key that ends at 1024, and one byte
further. -/
theorem witness_KeyCommandsComplete :
    ((992 : Word).extractLsb' 0 16).toNat + 32 ≤ State.reset.env.build.bufBytes
      ∧ State.reset.env.build.bufBytes < ((993 : Word).extractLsb' 0 16).toNat + 32 := by decide +kernel

/-- `Obligations.AuthCommandsComplete`: an empty region whose trailer ends at 1024; T-AU2's region. -/
theorem witness_AuthCommandsComplete :
    let s := keyed (start { r0 := 0x000003F8 } [])
    let v := keyed (start { r0 := 0x000B0200 } [(0x200, appended)])
    (s.keyValid = true ∧ 0x3F8 + 0 + s.env.build.T ≤ s.env.build.bufBytes)
      ∧ v.keyValid = true ∧ 0x200 + 11 ≤ v.env.build.bufBytes ∧ v.env.build.T ≤ 11
      ∧ digest v.env.build v.key (memRead v 0x200 (11 - v.env.build.T))
        = memRead v (0x200 + 11 - v.env.build.T) v.env.build.T := by decide +kernel

/-- `Obligations.AuthErrorsInOrder`: each error (T-AU2). -/
theorem witness_AuthErrorsInOrder :
    let s := fun (n : Word) => start { r0 := n } [(0x200, appended)]
    firstFailure (authAppendFailures (s 0x00010400)) = some .sourceRange
      ∧ firstFailure (authAppendFailures (s 0x000003F9)) = some .keyMissing
      ∧ firstFailure (authAppendFailures (keyed (s 0x000003F9))) = some .destinationRange
      ∧ firstFailure (authVerifyFailures (s 0x00010400)) = some .sourceRange
      ∧ firstFailure (authVerifyFailures (s 0x00070200)) = some .keyMissing
      ∧ firstFailure (authVerifyFailures (keyed (s 0x00070200))) = some .inputTooShort
      ∧ firstFailure (authVerifyFailures (keyed (s 0x00080200))) = some .trailerMismatch := by decide +kernel

/-- `Obligations.AuthRoundTrip`, `Obligations.TrailerChangeIsDetected`: T-AU2's region, another trailer. -/
theorem witness_AuthRoundTrip :
    let s := keyed (start { r0 := 0x00030200 } [(0x200, [0x61, 0x62, 0x63])])
    ∃ t, exec .authAppend s = .next t ∧ t.code = 0 ∧ (List.replicate 8 (0 : Byte)).length = s.env.build.T
      ∧ List.replicate 8 (0 : Byte) ≠ memRead t (0x200 + 3) s.env.build.T :=
  ⟨_, rfl, by decide +kernel, by decide +kernel, by decide +kernel⟩

/-- `Obligations.DigestOfEachVariant`: each variant; the key of P-KH4. -/
theorem witness_DigestOfEachVariant :
    Build.default.variant = .hmacSha256x8 ∧ kh4Build.variant = .keyedHash4
      ∧ key00.val = (List.range 32).map (BitVec.ofNat 8) := by decide +kernel

/-- The cycle that the operands of `MAC_INIT` ask for. -/
def askedCycle (s : State) : Nat :=
  (s.arg.r1.extractLsb' 0 16).toNat + (s.arg.r2.extractLsb' 0 16).toNat
    + (s.arg.r1.extractLsb' 16 16).toNat + (s.arg.r2.extractLsb' 16 16).toNat

/-- `Obligations.MacInitCompletes`: the shortest and the longest cycle (T-MA3). -/
theorem witness_MacInitCompletes :
    askedCycle (start { r1 := 1 } []) ≠ 0 ∧ askedCycle (start { r0 := 30, r2 := 0x00010000 } []) ≠ 0
      ∧ askedCycle (start { r0 := 0xFFFFFF, r1 := 0xFFFFFFFF, r2 := 0xFFFFFFFF } []) ≠ 0 := by decide +kernel

/-- `Obligations.MacQueriesFollowThePhases`: the first and the last tick of each phase, and a cycle of 1. -/
theorem witness_MacQueriesFollowThePhases :
    ([0, 9, 10, 12, 13, 19, 20, 24, 0xFFFFFF].all fun now =>
        (atTime now).mac.valid && decide (1 ≤ (atTime now).mac.cycle)) = true
      ∧ MacState.cycle ⟨true, 0, 1, 0, 0, 0, 0, false⟩ = 1 := by decide +kernel

/-- `Obligations.MacUpdatesComplete`: T-MA2; and a cycle of 1, which only the tail makes. -/
theorem witness_MacUpdatesComplete :
    let s := (start { r0 := 100, r1 := 0x00040009 } []).setMac macMA1
    let t := (start { r0 := 100 } []).setMac ⟨true, 0, 0, 0, 0, 1, 0, false⟩
    (s.mac.valid = true ∧ t.mac.valid = true)
      ∧ s.mac.own.toNat + s.mac.gap.toNat + (s.arg.r1.extractLsb' 0 16).toNat + s.mac.tail.toNat ≠ 0
      ∧ (s.arg.r1.extractLsb' 0 16).toNat + s.mac.gap.toNat + s.mac.peer.toNat + s.mac.tail.toNat ≠ 0
      ∧ t.mac.own.toNat + t.mac.gap.toNat + (t.arg.r1.extractLsb' 0 16).toNat + t.mac.tail.toNat = 1
      ∧ (t.arg.r1.extractLsb' 0 16).toNat + t.mac.gap.toNat + t.mac.peer.toNat + t.mac.tail.toNat = 1 := by
  decide +kernel

/-- `Obligations.MacNeedsInit`. -/
theorem witness_MacNeedsInit :
    State.reset.mac.valid = false ∧ Instr.macSetOwn ∈ [Instr.macOwnRem, .macPeerRem, .macCanSend, .macUpdate,
        .macSetOwn]
      ∧ 0x41 ≤ (opcodeField 0x00000141).toNat ∧ (opcodeField 0x00000141).toNat ≤ 0x45
      ∧ wellFormedWord 0x00000141 = false ∧ wellFormedWord 0x00010045 = false := by decide +kernel

/-- `Obligations.MacRefusesZeroCycle`: a cycle that only the peer's, and one that only the own window makes. -/
theorem witness_MacRefusesZeroCycle :
    let peerOnly := (start {} []).setMac ⟨true, 0, 0, 1, 0, 0, 0, false⟩
    let ownOnly := (start {} []).setMac ⟨true, 0, 1, 0, 0, 0, 0, false⟩
    (peerOnly.arg.r1 = 0 ∧ peerOnly.arg.r2 = 0 ∧ peerOnly.arg.r1.extractLsb' 0 16 = 0)
      ∧ (peerOnly.mac.valid = true ∧ peerOnly.mac.own = 0 ∧ peerOnly.mac.gap = 0 ∧ peerOnly.mac.tail = 0)
      ∧ ownOnly.arg.r1.extractLsb' 0 16 = 0
      ∧ ownOnly.mac.valid = true ∧ ownOnly.mac.gap = 0 ∧ ownOnly.mac.peer = 0 ∧ ownOnly.mac.tail = 0 := by
  decide +kernel

/-- P3: A before it hears B, and B before it hears A; B's guards as given. -/
def endA : State := (start { r0 := 20, r1 := 0x00040007 } []).setMac ⟨true, 5, 10, 7, 3, 5, 0, false⟩
def endB (gap tail : BitVec 16) : State :=
  (start { r0 := 29, r1 := 0x000A000A } []).setMac ⟨true, 17, 7, 10, gap, tail, 0, false⟩

/-- The hypotheses of `Obligations.MacBeliefsConverge` and of `Obligations.MacSecondEquivalenceAsWorded`. -/
def announced (a a' b b' : State) : Prop :=
  a.mac.valid = true ∧ b.mac.valid = true ∧ macGood a.mac
    ∧ exec .macUpdate a = .next a' ∧ a'.code = 0 ∧ a.arg.r1.extractLsb' 0 16 = b.mac.own
    ∧ exec .macUpdate b = .next b' ∧ b'.code = 0 ∧ b.arg.r1.extractLsb' 0 16 = a'.mac.own
    ∧ ((b.arg.r1.extractLsb' 16 16).toNat : Int) = ownRem a'.mac (b.arg.r0.extractLsb' 0 24)
    ∧ a'.mac.gap.toNat + a'.mac.tail.toNat = b'.mac.gap.toNat + b'.mac.tail.toNat

theorem endA_good : macGood endA.mac := by unfold macGood; decide +kernel

/-- `Obligations.MacBeliefsConverge`: P3, with mirrored guards; its equivalence's right side holds. -/
theorem witness_MacBeliefsConverge :
    ∃ a' b', announced endA a' (endB 5 3) b'
      ∧ (a'.mac.gap.toNat : Int) % a'.mac.cycle = b'.mac.tail.toNat % a'.mac.cycle := by
  refine ⟨_, _, ⟨rfl, rfl, endA_good, rfl, ?_, ?_, rfl, ?_, ?_, ?_, ?_⟩, ?_⟩ <;> decide +kernel

/-- `Obligations.MacSecondEquivalenceAsWorded`: P3's counter-check, with identical guards. -/
theorem witness_MacSecondEquivalenceAsWorded : ∃ a' b', announced endA a' (endB 3 5) b' := by
  refine ⟨_, _, rfl, rfl, endA_good, rfl, ?_, ?_, rfl, ?_, ?_, ?_, ?_⟩ <;> decide +kernel

end Sys2Proof.Tests
end

/-! PROOFS. Which state each kind of command may write (rules R18, R84, R309): said once for every command's rule,
then read off for every command. -/

namespace Sys2Proof.Machine

/-! ### Which state a command may write -/

/-- What a command may write beside `RES`, `STATUS` and `STICKY`: nothing, or one component. -/
inductive Written where
  | nothing
  | buf
  | key
  | table
  | mac

/-- The component that each command's rule names. -/
def writtenBy : Instr → Written
  | .frameBuild _ _ | .extEncRaw _ | .extEncArqSequence | .extEncArqRequest | .extEncArqControl
  | .extEncArqHandshake | .extEncTddControl | .extEncHmacSequenceReset | .golayEncBytes | .prefixEnc
  | .authAppend => .buf
  | .keyLoad | .keyClear => .key
  | .frameParse _ _ | .extDecAll => .table
  | .macInit | .macUpdate | .macSetOwn => .mac
  | .nop | .extDec | .golayEnc | .golayDec | .golayDecBytes | .prefixDec | .authVerify | .macOwnRem
  | .macPeerRem | .macCanSend => .nothing

/-- `t` is `s` after one update of the component. -/
def Written.Update (s t : State) : Written → Prop
  | .nothing => t = s
  | .buf => ∃ off bytes, t = memWrite s off bytes
  | .key => ∃ k valid, t = s.setKey k valid
  | .table => ∃ recs, t = s.setExtTab recs
  | .mac => ∃ m, t = s.setMac m

theorem writtenBy_eq_key {i : Instr} : writtenBy i = .key ↔ i = .keyLoad ∨ i = .keyClear := by
  cases i <;> simp [writtenBy]

theorem writtenBy_eq_table {i : Instr} :
    writtenBy i = .table ↔ (∃ dx vf, i = .frameParse dx vf) ∨ i = .extDecAll := by
  cases i <;> simp [writtenBy]

theorem writtenBy_eq_mac {i : Instr} :
    writtenBy i = .mac ↔ i = .macInit ∨ i = .macUpdate ∨ i = .macSetOwn := by
  cases i <;> simp [writtenBy]

theorem writtenBy_eq_buf {i : Instr} :
    writtenBy i = .buf ↔ (∃ au fec, i = .frameBuild au fec) ∨ (∃ ty, i = .extEncRaw ty)
      ∨ i = .extEncArqSequence ∨ i = .extEncArqRequest ∨ i = .extEncArqControl ∨ i = .extEncArqHandshake
      ∨ i = .extEncTddControl ∨ i = .extEncHmacSequenceReset ∨ i = .golayEncBytes ∨ i = .prefixEnc
      ∨ i = .authAppend := by
  cases i <;> simp [writtenBy]

/-! ### What a rule that succeeds has written -/

theorem ruleExtEnc_update {rec : State → ExtRecord} {s t : State} (h : ruleExtEnc rec s = .ok t) :
    ∃ u res, Written.buf.Update s u ∧ t = u.setRes res := by
  obtain ⟨-, rfl⟩ := ruleExtEnc_ok_iff.mp h
  exact ⟨_, _, ⟨_, _, rfl⟩, rfl⟩

/-- A rule that succeeds has written the result registers and one update of its command's component. -/
theorem ruleOf_update {i : Instr} {s t : State} (h : ruleOf i s = .ok t) :
    ∃ u res, (writtenBy i).Update s u ∧ t = u.setRes res := by
  cases i with
  | nop => exact ⟨s, _, rfl, ok_eq_ok.mp h⟩
  | frameBuild auth outerFec =>
    obtain ⟨-, rfl⟩ := ruleFrameBuild_ok_iff.mp h
    exact ⟨_, _, ⟨_, _, rfl⟩, rfl⟩
  | frameParse decodeExt verify =>
    obtain ⟨_, _, recs, -, -, -, rfl⟩ := ruleFrameParse_ok_iff.mp h
    exact ⟨_, _, ⟨recs, rfl⟩, rfl⟩
  | extEncArqSequence | extEncArqRequest | extEncArqControl | extEncArqHandshake | extEncTddControl
  | extEncHmacSequenceReset => exact ruleExtEnc_update h
  | extEncRaw type =>
    obtain ⟨-, -, -, rfl⟩ := ruleExtEncRaw_ok_iff.mp h
    exact ⟨_, _, ⟨_, _, rfl⟩, rfl⟩
  | extDec =>
    obtain ⟨-, _, _, -, rfl⟩ := ruleExtDec_ok_iff.mp h
    exact ⟨s, _, rfl, rfl⟩
  | extDecAll =>
    obtain ⟨-, -, recs, -, rfl⟩ := ruleExtDecAll_ok_iff.mp h
    exact ⟨_, _, ⟨recs, rfl⟩, rfl⟩
  | golayEnc => exact ⟨s, _, rfl, ok_eq_ok.mp h⟩
  | golayDec =>
    obtain ⟨_, -, rfl⟩ := ruleGolayDec_ok_iff.mp h
    exact ⟨s, _, rfl, rfl⟩
  | golayEncBytes =>
    obtain ⟨-, rfl⟩ := ruleGolayEncBytes_ok_iff.mp h
    exact ⟨_, _, ⟨_, _, rfl⟩, rfl⟩
  | golayDecBytes =>
    obtain ⟨_, -, rfl⟩ := ruleGolayDecBytes_ok_iff.mp h
    exact ⟨s, _, rfl, rfl⟩
  | prefixEnc =>
    obtain ⟨-, -, -, rfl⟩ := rulePrefixEnc_ok_iff.mp h
    exact ⟨_, _, ⟨_, _, rfl⟩, rfl⟩
  | prefixDec =>
    obtain ⟨_, -, -, rfl⟩ := rulePrefixDec_ok_iff.mp h
    exact ⟨s, _, rfl, rfl⟩
  | keyLoad =>
    obtain ⟨-, rfl⟩ := ruleKeyLoad_ok_iff.mp h
    exact ⟨_, _, ⟨_, _, rfl⟩, rfl⟩
  | keyClear => exact ⟨_, _, ⟨_, _, rfl⟩, ok_eq_ok.mp h⟩
  | authAppend =>
    obtain ⟨-, -, -, rfl⟩ := ruleAuthAppend_ok_iff.mp h
    exact ⟨_, _, ⟨_, _, rfl⟩, rfl⟩
  | authVerify =>
    obtain ⟨-, -, -, -, rfl⟩ := ruleAuthVerify_ok_iff.mp h
    exact ⟨s, _, rfl, rfl⟩
  | macInit =>
    obtain ⟨-, rfl⟩ := ruleMacInit_ok_iff.mp h
    exact ⟨_, _, ⟨_, rfl⟩, rfl⟩
  | macOwnRem =>
    obtain ⟨-, rfl⟩ := ruleMacOwnRem_ok_iff.mp h
    exact ⟨s, _, rfl, rfl⟩
  | macPeerRem =>
    obtain ⟨-, rfl⟩ := ruleMacPeerRem_ok_iff.mp h
    exact ⟨s, _, rfl, rfl⟩
  | macCanSend =>
    obtain ⟨-, rfl⟩ := ruleMacCanSend_ok_iff.mp h
    exact ⟨s, _, rfl, rfl⟩
  | macUpdate =>
    obtain ⟨-, -, rfl⟩ := ruleMacUpdate_ok_iff.mp h
    exact ⟨_, _, ⟨_, rfl⟩, rfl⟩
  | macSetOwn =>
    obtain ⟨-, -, rfl⟩ := ruleMacSetOwn_ok_iff.mp h
    exact ⟨_, _, ⟨_, rfl⟩, rfl⟩

/-- Emptying the table before the rule is an update of the table, or no update at all. -/
theorem startOf_update (i : Instr) (s : State) :
    startOf i s = s ∨ (writtenBy i).Update s (startOf i s) := by
  cases i with
  | frameParse _ _ | extDecAll => exact .inr ⟨[], rfl⟩
  | _ => exact .inl rfl

/-! ### What an update keeps -/

/-- Of the components in `Written`, `t` differs from `s` in `w` at most; the ports are kept. -/
structure KeptBut (w : Written) (s t : State) : Prop where
  ports : keptPorts s t
  key : w ≠ .key → keptKey s t
  table : w ≠ .table → keptTable s t
  mac : w ≠ .mac → keptMac s t
  buf : w ≠ .buf → keptBuf s t

/-- How a command ends, in `RES`, `STATUS` and `STICKY`, touches no component and no port (rules R344, R345). -/
theorem keptBut_outcome (w : Written) (s : State) (res : RegFile) (code : BitVec 4) (detail : BitVec 8)
    (sticky : Word) : KeptBut w s (((s.setOutcome code detail).setSticky sticky).setRes res) :=
  ⟨⟨rfl, rfl, rfl, rfl⟩, fun _ => ⟨rfl, rfl⟩, fun _ => ⟨rfl, rfl⟩, fun _ => rfl, fun _ _ => rfl⟩

theorem KeptBut.refl (w : Written) (s : State) : KeptBut w s s :=
  keptBut_outcome w s s.res s.code s.detail s.sticky

theorem KeptBut.trans {w : Written} {s t u : State} (h : KeptBut w s t) (h' : KeptBut w t u) :
    KeptBut w s u where
  ports := by
    obtain ⟨arg, busy, cmdReg, env⟩ := h.ports
    obtain ⟨arg', busy', cmdReg', env'⟩ := h'.ports
    exact ⟨arg'.trans arg, busy'.trans busy, cmdReg'.trans cmdReg, env'.trans env⟩
  key hw := ⟨(h'.key hw).1.trans (h.key hw).1, (h'.key hw).2.trans (h.key hw).2⟩
  table hw := ⟨(h'.table hw).1.trans (h.table hw).1, (h'.table hw).2.trans (h.table hw).2⟩
  mac hw := (h'.mac hw).trans (h.mac hw)
  buf hw a := (h'.buf hw a).trans (h.buf hw a)

/-- One update of a component keeps the others and the ports. -/
theorem Written.Update.keptBut {w : Written} {s t : State} (h : w.Update s t) : KeptBut w s t := by
  cases w with
  | nothing =>
    cases h
    exact .refl _ s
  | buf =>
    obtain ⟨off, bytes, rfl⟩ := h
    exact ⟨⟨rfl, rfl, rfl, rfl⟩, fun _ => ⟨rfl, rfl⟩, fun _ => ⟨rfl, rfl⟩, fun _ => rfl, (absurd rfl ·)⟩
  | key =>
    obtain ⟨k, valid, rfl⟩ := h
    exact ⟨⟨rfl, rfl, rfl, rfl⟩, (absurd rfl ·), fun _ => ⟨rfl, rfl⟩, fun _ => rfl, fun _ _ => rfl⟩
  | table =>
    obtain ⟨recs, rfl⟩ := h
    exact ⟨⟨rfl, rfl, rfl, rfl⟩, fun _ => ⟨rfl, rfl⟩, (absurd rfl ·), fun _ => rfl, fun _ _ => rfl⟩
  | mac =>
    obtain ⟨m, rfl⟩ := h
    exact ⟨⟨rfl, rfl, rfl, rfl⟩, fun _ => ⟨rfl, rfl⟩, fun _ => ⟨rfl, rfl⟩, (absurd rfl ·), fun _ _ => rfl⟩

/-! ### What a command keeps -/

theorem finish_keptBut (i : Instr) (s : State) : KeptBut (writtenBy i) s (finish (ruleOf i) s) := by
  rcases finish_cases (ruleOf i) s with ⟨t, hrule, hend⟩ | ⟨e, -, hend⟩
  · obtain ⟨u, res, hu, rfl⟩ := ruleOf_update hrule
    rw [hend]
    exact hu.keptBut.trans (keptBut_outcome _ u res 0 0 u.sticky)
  · rw [hend]
    exact keptBut_outcome _ s {} e.code e.detail _

theorem startOf_keptBut (i : Instr) (s : State) : KeptBut (writtenBy i) s (startOf i s) := by
  rcases startOf_update i s with h | h
  · rw [h]
    exact .refl _ s
  · exact h.keptBut

/-- However a command ends, it has kept everything but the component its rule names. -/
theorem exec_keptBut {i : Instr} {s t : State} (h : exec i s = .next t) : KeptBut (writtenBy i) s t := by
  rw [← exec_eq_next.mp h]
  exact (startOf_keptBut i s).trans (finish_keptBut i _)

/-- Settles O26: a command keeps all but the component its rule names, and `writtenBy` gives each component's
commands. -/
theorem whichCommandWritesWhat : Obligations.WhichCommandWritesWhat := by
  intro i s t h
  have kept := exec_keptBut h
  refine ⟨kept.ports, ?key, ?table, ?mac, ?buf⟩
  case key => intros; exact kept.key (by simp [writtenBy_eq_key, *])
  case table => intros; exact kept.table (by simp [writtenBy_eq_table, *])
  case mac => intros; exact kept.mac (by simp [writtenBy_eq_mac, *])
  case buf => intros; exact kept.buf (by simp [writtenBy_eq_buf, *])

end Sys2Proof.Machine

/-! PROOFS. The host port and the cycle: one equation per kind of access and event, and the registers, `EXT_TAB`,
`BUF` and the `BUSY` hazard as the host sees them (rules R35..R51, R53, R81..R88, R378). -/

namespace Sys2Proof.Machine

/-! ### A read, by what it reaches -/

/-- The answer to a read that the command in flight does not make unspecified (rule R379). -/
theorem hostRead_of_target {width : Width} {addr : BitVec 17} {s : State} {t : Target}
    (ht : accessTarget s.env.build width addr = some t) (hfree : s.busy = false ∨ commandWritten t = false) :
    hostRead width addr s = deliver (accepted s) (targetValue s width t) := by
  rcases hfree with h | h <;> simp [hostRead, ht, h]

theorem readData_of_target {width : Width} {addr : BitVec 17} {s : State} {t : Target}
    (ht : accessTarget s.env.build width addr = some t) (hfree : s.busy = false ∨ commandWritten t = false) :
    (hostRead width addr s).env.readData = targetValue s width t := by
  rw [hostRead_of_target ht hfree]; rfl

/-- A register is read as its value (rules R36..R48). -/
theorem readData_csr {addr : BitVec 17} {s : State} {c : Csr}
    (ht : accessTarget s.env.build .w32 addr = some (.csr c))
    (hfree : s.busy = false ∨ commandWritten (.csr c) = false) :
    (hostRead .w32 addr s).env.readData = csrValue s c :=
  readData_of_target ht hfree

/-- The answer to a read that the command in flight makes unspecified (rule R379, log 7). -/
theorem readData_busy {width : Width} {addr : BitVec 17} {s : State} {t : Target}
    (ht : accessTarget s.env.build width addr = some t) (hbusy : s.busy = true) (hw : commandWritten t = true) :
    (hostRead width addr s).env.readData = busyValue s width t := by
  simp [hostRead, ht, hbusy, hw]

/-! ### A write, by what it reaches -/

theorem hostWrite_sticky {addr : BitVec 17} {s : State} (w : Word)
    (ht : accessTarget s.env.build .w32 addr = some (.csr .sticky)) :
    hostWrite .w32 addr w s = (accepted s).setSticky (stickyAfterWrite s.sticky w) := by
  simp [hostWrite, ht]

theorem hostWrite_cmd {addr : BitVec 17} {s : State} (w : Word)
    (ht : accessTarget s.env.build .w32 addr = some (.csr .cmd)) :
    hostWrite .w32 addr w s = hazard (accepted s) := by
  simp [hostWrite, ht]

theorem hostWrite_arg {addr : BitVec 17} {s : State} {i : Fin 8} (w : Word)
    (ht : accessTarget s.env.build .w32 addr = some (.csr (.arg i))) (hidle : s.busy = false) :
    hostWrite .w32 addr w s = (accepted s).setArg (s.arg.set i w) := by
  simp [hostWrite, ht, hidle]

theorem hostWrite_arg_busy {addr : BitVec 17} {s : State} {i : Fin 8} (w : Word)
    (ht : accessTarget s.env.build .w32 addr = some (.csr (.arg i))) (hbusy : s.busy = true) :
    hostWrite .w32 addr w s = hazard (accepted s) := by
  simp [hostWrite, ht, hbusy]

theorem hostWrite_buf {width : Width} {addr : BitVec 17} {s : State} {off : Nat} (w : Word)
    (ht : accessTarget s.env.build width addr = some (.buf off)) (hidle : s.busy = false) :
    hostWrite width addr w s = memWrite (accepted s) off (bytesOfWord (widthBytes width) w) := by
  simp [hostWrite, ht, hidle]

theorem hostWrite_buf_busy {width : Width} {addr : BitVec 17} {s : State} {off : Nat} (w : Word)
    (ht : accessTarget s.env.build width addr = some (.buf off)) (hbusy : s.busy = true) :
    hostWrite width addr w s = hazard (accepted s) := by
  simp [hostWrite, ht, hbusy]

theorem hostWrite_extTab {addr : BitVec 17} {s : State} {i k : Nat} (w : Word)
    (ht : accessTarget s.env.build .w32 addr = some (.extTab i k)) :
    hostWrite .w32 addr w s = refuseAccess s := by
  simp [hostWrite, ht]

/-! ### A step, by the event it takes -/

theorem step_of_idle {s : State} {rest : List HostEvent} (hbus : s.env.bus = .idle :: rest) :
    step s = endCycle (takeEvent s rest) := by
  simp [step, cycle, hbus]

theorem step_of_write {s : State} {width : Width} {addr : BitVec 17} {w : Word} {rest : List HostEvent}
    (hbus : s.env.bus = .access (.write width addr w) :: rest) (hissue : issuesCommand width addr s = false) :
    step s = endCycle (hostWrite width addr w (takeEvent s rest)) := by
  simp [step, cycle, hbus, hissue]

theorem step_of_issue {s : State} {w : Word} {rest : List HostEvent} (hidle : s.busy = false)
    (hbus : s.env.bus = .access (.write .w32 0x00010 w) :: rest) :
    step s = issue w (accepted (takeEvent s rest)) := by
  simp [step, cycle, hbus, issuesCommand, hidle]

/-- Neither `CMDREG` nor the bus is an operand of the latency. -/
theorem commandLatency_accepted (w : Word) (s : State) (rest : List HostEvent) :
    commandLatency w ((accepted (takeEvent s rest)).setCmdReg w) = commandLatency w s :=
  commandLatency_congr rfl rfl rfl rfl rfl rfl w

/-- Latency 0: the command runs in the step that issues it (log 6). -/
theorem step_issue_atomic {s : State} {w : Word} {rest : List HostEvent} (hidle : s.busy = false)
    (hbus : s.env.bus = .access (.write .w32 0x00010 w) :: rest) (hlat : commandLatency w s = 0) :
    step s = runCommand w ((accepted (takeEvent s rest)).setCmdReg w) := by
  rw [step_of_issue hidle hbus, issue, commandLatency_accepted, hlat]

/-- A latency of at least 1: the command is in flight after the step that issues it (rule R53, log 6). -/
theorem step_issue_inFlight {s : State} {w : Word} {n : Nat} {rest : List HostEvent} (hidle : s.busy = false)
    (hbus : s.env.bus = .access (.write .w32 0x00010 w) :: rest) (hlat : commandLatency w s = n + 1) :
    step s = .next { s with
      cmdReg := w, busy := true
      env := { s.env with bus := rest, errResponse := false, cyclesLeft := n + 1 } } := by
  rw [step_of_issue hidle hbus, issue, commandLatency_accepted, hlat]
  rfl

/-! ### The end of a cycle -/

theorem endCycle_of_idle {s : State} (hidle : s.busy = false) : endCycle s = .next s := by
  simp [endCycle, hidle]

theorem endCycle_of_last {s : State} (hbusy : s.busy = true) (hlast : s.env.cyclesLeft ≤ 1) :
    endCycle s = runCommand s.cmdReg ((s.setBusy false).setEnv { s.env with cyclesLeft := 0 }) := by
  simp [endCycle, hbusy, hlast]

theorem endCycle_of_more {s : State} (hbusy : s.busy = true) (hmore : 1 < s.env.cyclesLeft) :
    endCycle s = .next (s.setEnv { s.env with cyclesLeft := s.env.cyclesLeft - 1 }) := by
  simp [endCycle, hbusy, Nat.not_le.mpr hmore]

/-! ### Register files -/

/-- Reading any register after a write to any register. -/
theorem RegFile.get_set (r : RegFile) (i j : Fin 8) (v : Word) :
    (r.set i v).get j = if j = i then v else r.get j := by
  fin_cases i <;> fin_cases j <;> rfl

/-! ### Fields of a register, as numbers -/

/-- A field stands above the ones to its right. -/
theorem toNat_append_fields {n m : Nat} (x : BitVec n) (y : BitVec m) :
    (x ++ y).toNat = y.toNat + 2 ^ m * x.toNat := by
  rw [BitVec.toNat_append, ← Nat.shiftLeft_add_eq_or_of_lt y.isLt, Nat.shiftLeft_eq, Nat.add_comm, Nat.mul_comm]

theorem idWord_eq (b : Build) :
    idWord b = match b.variant with | .keyedHash4 => 0x534B000C | .hmacSha256x8 => 0x534B010C := by
  unfold idWord
  cases b.variant <;> rfl

theorem capsWord_toNat (b : Build) : (capsWord b).toNat = b.bufBytes + 24 * 2 ^ 16 + b.T * 2 ^ 24 := by
  have hT : b.T < 2 ^ 4 := by rcases T_eq b with h | h <;> omega
  have hbytes : b.bufBytes < 2 ^ 16 := by have := b.bufBytes_range; omega
  simp only [capsWord, toNat_append_fields, BitVec.toNat_ofNat, Nat.mod_eq_of_lt hT, Nat.mod_eq_of_lt hbytes,
    Config.tickBits]
  omega

theorem statusWord_toNat (s : State) (hidle : s.busy = false) :
    (statusWord s).toNat
      = s.code.toNat + 2 ^ 8 * s.detail.toNat + 2 ^ 17 * s.keyValid.toNat + 2 ^ 18 * s.mac.valid.toNat := by
  simp only [statusWord, toNat_append_fields, BitVec.toNat_ofNat, BitVec.toNat_ofBool, hidle, Bool.toNat_false]
  omega

theorem MacState.cycle_lt (m : MacState) : m.cycle < 2 ^ 18 := by
  have := m.own.isLt
  have := m.gap.isLt
  have := m.peer.isLt
  have := m.tail.isLt
  unfold MacState.cycle
  omega

theorem macCycleWord_toNat (m : MacState) : (macCycleWord m).toNat = m.cycle := by
  have := m.cycle_lt
  rw [macCycleWord, BitVec.toNat_ofNat, Nat.mod_eq_of_lt (by omega)]

theorem macLastWord_toNat (m : MacState) : (macLastWord m).toNat = m.last.toNat + 2 ^ 31 * m.lastValid.toNat := by
  simp only [macLastWord, toNat_append_fields, BitVec.toNat_ofNat, BitVec.toNat_ofBool]
  omega

/-! ### The ports -/

/-- Settles O15: both registers are constants of the build, and no command writes either. -/
theorem idAndCapsRead : Obligations.IdAndCapsRead := by
  intro s v
  refine ⟨?id, ?caps, ?writes⟩
  case id =>
    exact (readData_csr (accessTarget_id _) (.inr rfl)).trans (idWord_eq s.env.build)
  case caps =>
    exact (congrArg BitVec.toNat (readData_csr (accessTarget_caps _) (.inr rfl))).trans
      (capsWord_toNat s.env.build)
  case writes =>
    rintro addr (rfl | rfl)
    · rfl
    · rfl

/-- Settles O16. -/
theorem argPort : Obligations.ArgPort := by
  intro s i v
  have ht := accessTarget_arg s.env.build i
  have hsame : (s.arg.set i v).get i = v := by rw [RegFile.get_set, if_pos rfl]
  have hother : ∀ j, j ≠ i → (s.arg.set i v).get j = s.arg.get j := fun j hj => by rw [RegFile.get_set, if_neg hj]
  exact ⟨fun hidle => ⟨s.arg.set i v, hostWrite_arg v ht hidle, hsame, hother⟩, hostWrite_arg_busy v ht,
    readData_csr ht (.inr rfl)⟩

/-- Settles O17. -/
theorem cmdPort : Obligations.CmdPort := by
  intro s w
  have ht := accessTarget_cmd s.env.build
  exact ⟨fun _ => step_issue_atomic, fun _ _ => step_issue_inFlight, fun _ => hostWrite_cmd w ht,
    hostRead_of_target ht (.inr rfl)⟩

theorem statusWord_busy (s : State) : (statusWord s).getLsbD 16 = s.busy := by
  simp only [statusWord, BitVec.getLsbD_append]
  simp

theorem busyValue_status_busy (s : State) (width : Width) :
    (busyValue s width (.csr .status)).getLsbD 16 = true := by
  simp [busyValue, busyBits]

/-- `STATUS.BUSY` is read as it is, busy or not (rules R53, R378). -/
theorem readData_status_busy {s : State} {addr : BitVec 17}
    (ht : accessTarget s.env.build .w32 addr = some (.csr .status)) :
    (hostRead .w32 addr s).env.readData.getLsbD 16 = s.busy := by
  cases hb : s.busy with
  | true => rw [readData_busy ht hb rfl, busyValue_status_busy]
  | false => rw [readData_csr ht (.inl hb), csrValue, statusWord_busy, hb]

/-- Settles O21: every register is read as its value, and the value's fields add up. -/
theorem registersRead : Obligations.RegistersRead := by
  intro s
  refine ⟨readData_status_busy (accessTarget_status _), fun hidle => ?_⟩
  have reads : ∀ {addr : BitVec 17} {c : Csr} {n : Nat}, accessTarget s.env.build .w32 addr = some (.csr c) →
      (csrValue s c).toNat = n → (hostRead .w32 addr s).env.readData.toNat = n :=
    fun ht hn => (congrArg BitVec.toNat (readData_csr ht (.inl hidle))).trans hn
  exact ⟨reads (accessTarget_status _) (statusWord_toNat s hidle),
    fun i => readData_csr (accessTarget_res _ i) (.inl hidle),
    reads (accessTarget_extCount _) (BitVec.toNat_setWidth_of_le (by omega)),
    reads (accessTarget_macEpoch _) (BitVec.toNat_setWidth_of_le (by omega)),
    reads (accessTarget_macLen _) (toNat_append_fields s.mac.peer s.mac.own),
    reads (accessTarget_macGt _) (toNat_append_fields s.mac.tail s.mac.gap),
    reads (accessTarget_macCycle _) (macCycleWord_toNat s.mac),
    reads (accessTarget_macLast _) (macLastWord_toNat s.mac)⟩

/-! ### `EXT_TAB` -/

/-- Word `k` of entry `i` stands at 0x1000 + 12 i + 4 k (rule R51). -/
theorem accessTarget_extTab (b : Build) {i k : Nat} (hi : i < 255) (hk : k < 3) :
    accessTarget b .w32 (BitVec.ofNat 17 (0x1000 + 12 * i + 4 * k)) = some (.extTab i k) := by
  have haddr : (BitVec.ofNat 17 (0x1000 + 12 * i + 4 * k)).toNat = 0x1000 + 12 * i + 4 * k := by
    rw [BitVec.toNat_ofNat]; omega
  have hentry : (0x1000 + 12 * i + 4 * k - 0x1000) / 12 = i := by omega
  have hword : (0x1000 + 12 * i + 4 * k - 0x1000) % 12 / 4 = k := by omega
  simp only [accessTarget, haddr, hentry, hword]
  rw [if_neg (by omega), if_pos (by omega), if_pos ⟨trivial, by omega⟩]

theorem extTabWord_of_entry {s : State} {i k : Nat} {e : ExtWords} (he : s.extTab[i]? = some e) (hk : k < 3) :
    extTabWord s i k = [e.w0, e.w1, e.w2].getD k 0 := by
  have hget : s.extTab.getD i { w0 := 0, w1 := 0, w2 := 0 } = e := by rw [List.getD_eq_getElem?_getD, he]; rfl
  simp only [extTabWord, hget]
  match k, hk with
  | 0, _ | 1, _ | 2, _ => rfl

/-- An entry that is not filled is all zero (rule R51, log 15). -/
theorem extTabWord_of_length_le {s : State} {i : Nat} (k : Nat) (h : s.extTab.length ≤ i) : extTabWord s i k = 0 := by
  have hget : s.extTab.getD i { w0 := 0, w1 := 0, w2 := 0 } = { w0 := 0, w1 := 0, w2 := 0 } := by
    rw [List.getD_eq_getElem?_getD, List.getElem?_eq_none h]; rfl
  simp only [extTabWord, hget]
  split <;> rfl

/-- Settles O22. -/
theorem extTabPort : Obligations.ExtTabPort := by
  intro s i k v hi hk
  have ht := fun b => accessTarget_extTab b hi hk
  refine ⟨fun hidle hcount => ?reads, hostWrite_extTab v (ht _), ?afterReset⟩
  case reads =>
    rw [readData_of_target (ht _) (.inl hidle)]
    exact ⟨fun e he => extTabWord_of_entry he hk, fun hle => extTabWord_of_length_le k (hcount ▸ hle)⟩
  case afterReset =>
    rw [readData_of_target (ht _) (.inl rfl)]
    exact extTabWord_of_length_le k (Nat.zero_le i)

/-! ### `BUF` -/

theorem memRead_one (s : State) (i : Nat) : memRead s i 1 = [bufByte s i] := rfl

theorem memRead_two (s : State) (i : Nat) : memRead s i 2 = [bufByte s i, bufByte s (i + 1)] := rfl

theorem memRead_four (s : State) (i : Nat) :
    memRead s i 4 = [bufByte s i, bufByte s (i + 1), bufByte s (i + 2), bufByte s (i + 3)] := rfl

theorem bytesOfWord_one (w : Word) : bytesOfWord 1 w = [w.extractLsb' 0 8] := rfl

theorem wordOfBytes_one (a : Byte) : wordOfBytes [a] = 0#24 ++ a := by
  apply BitVec.eq_of_toNat_eq
  rw [toNat_append_fields]
  simp [wordOfBytes]
  omega

/-- The frame of an accepted `BUF` write: the stored bytes, and `BUF` is all that changes in the block. -/
theorem storedAt_memWrite_accepted (s : State) (off : Nat) (bytes : List Byte) :
    storedAt s (memWrite (accepted s) off bytes) off bytes
      ∧ memWrite (accepted s) off bytes
        = { s with buf := (memWrite (accepted s) off bytes).buf, env := { s.env with errResponse := false } } :=
  ⟨⟨memRead_memWrite _ off bytes, fun _ => bufByte_memWrite_outside (accepted s)⟩, rfl⟩

/-- Settles O20: one access of each width, then the dropped write. -/
theorem bufPortIsBigEndian : Obligations.BufPortIsBigEndian := by
  intro s i v stores
  have hwrite : ∀ {width : Width} {bytes : List Byte}, s.busy = false →
      accessTarget s.env.build width (bufAddr i) = some (.buf i) → bytesOfWord (widthBytes width) v = bytes →
      stores (hostWrite width (bufAddr i) v s) bytes := by
    rintro width _ hidle ht rfl
    rw [hostWrite_buf v ht hidle]
    exact storedAt_memWrite_accepted s i _
  refine ⟨fun hidle ha hi => ?word, fun hidle ha hi => ?half, fun hidle hi => ?byte,
    fun width hbusy ha hi => ?dropped⟩
  case word =>
    have ht := accessTarget_buf (width := .w32) ha hi
    refine ⟨?_, hwrite hidle ht (bytesOfWord_four v)⟩
    rw [readData_of_target ht (.inl hidle), targetValue, widthBytes, memRead_four, wordOfBytes_four]
  case half =>
    have ht := accessTarget_buf (width := .w16) ha hi
    refine ⟨?_, hwrite hidle ht (bytesOfWord_two v)⟩
    rw [readData_of_target ht (.inl hidle), targetValue, widthBytes, memRead_two, wordOfBytes_two]
  case byte =>
    have ht := accessTarget_buf (width := .w8) (Nat.mod_one i) hi
    refine ⟨?_, hwrite hidle ht (bytesOfWord_one v)⟩
    rw [readData_of_target ht (.inl hidle), targetValue, widthBytes, memRead_one, wordOfBytes_one]
  case dropped => exact hostWrite_buf_busy v (accessTarget_buf ha hi) hbusy

/-! ### Latency -/

theorem run_succ_of_next {s t : State} (k : Nat) (h : step s = .next t) :
    Host.Core.run Sys2Proof.core (k + 1) s = Host.Core.run Sys2Proof.core k t := by
  have hcore : Sys2Proof.core.step s = .next t := h
  simp only [Host.Core.run, hcore]

theorem run_one (s : State) : Host.Core.run Sys2Proof.core 1 s = step s := by
  have hcore : Sys2Proof.core.step s = step s := rfl
  simp only [Host.Core.run, hcore]
  cases step s <;> rfl

/-- A command in flight lands when its cycles have run down, if the host only waits (rules R53, R330). -/
theorem run_inFlight (rest : List HostEvent) : ∀ (n : Nat) (s : State), s.busy = true →
    s.env.cyclesLeft = n + 1 → s.env.bus = List.replicate (n + 1) .idle ++ rest →
    Host.Core.run Sys2Proof.core (n + 1) s
      = runCommand s.cmdReg ((s.setBusy false).setEnv { s.env with bus := rest, cyclesLeft := 0 })
  | 0, s, hbusy, hleft, hbus => by
    rw [run_one, step_of_idle hbus]
    exact endCycle_of_last hbusy (Nat.le_of_eq hleft)
  | n + 1, s, hbusy, hleft, hbus => by
    have hmore : 1 < s.env.cyclesLeft := by omega
    have hstep := (step_of_idle hbus).trans (endCycle_of_more hbusy hmore)
    rw [run_succ_of_next _ hstep]
    exact run_inFlight rest n _ hbusy (by simp [takeEvent, hleft]) rfl

/-- With no command in flight, saying so again changes nothing. -/
theorem setCmdReg_accepted_idle {s : State} {w : Word} {rest : List HostEvent} (hidle : s.busy = false)
    (hleft : s.env.cyclesLeft = 0) :
    (accepted (takeEvent s rest)).setCmdReg w
      = { s with
          cmdReg := w, busy := false
          env := { s.env with bus := rest, errResponse := false, cyclesLeft := 0 } } := by
  simp [accepted, takeEvent, State.setCmdReg, State.setEnv, hidle, hleft]

/-- Settles O8: the step that issues the command, then its cycles in flight. -/
theorem latencyDoesNotChangeTheResult : Obligations.LatencyDoesNotChangeTheResult := by
  intro s w n rest hidle hleft hbus hlat
  cases n with
  | zero => rw [run_one, step_issue_atomic hidle hbus hlat]; rfl
  | succ n =>
    rw [run_succ_of_next _ (step_issue_inFlight hidle hbus hlat), run_inFlight rest n _ rfl rfl rfl,
      setCmdReg_accepted_idle hidle hleft]
    rfl

end Sys2Proof.Machine

/-! PROOFS. How a command ends (rules R344, R345), and the invariant: which updates a rule that succeeds may make,
that each keeps the invariant, and that every step keeps it. -/

namespace Sys2Proof.Machine

/-! ### The ends of a command -/

/-- A command ends in success from its rule's answer, or in the abort from the state its rule starts in, which is
the command's own state but for the table. -/
theorem runCommand_ends {w : Word} {s t : State} (h : runCommand w s = .next t) :
    (∃ i u, decode w = .ok i ∧ ruleOf i (startOf i s) = .ok u ∧ t = succeed u)
      ∨ ∃ e u, (u = s ∨ u = clearExtTab s) ∧ t = abort u e := by
  rcases runCommand_cases w s with ⟨i, hdec, hrun⟩ | ⟨e, -, hrun⟩
  · have hend := exec_eq_next.mp (hrun ▸ h)
    rcases finish_cases (ruleOf i) (startOf i s) with ⟨u, hok, hfin⟩ | ⟨e, -, hfin⟩
    · exact .inl ⟨i, u, hdec, hok, hend.symm.trans hfin⟩
    · exact .inr ⟨e, _, startOf_cases i s, hend.symm.trans hfin⟩
  · rw [hrun] at h
    injection h with h
    exact .inr ⟨e, s, .inl rfl, h.symm⟩

theorem ErrKind.number_lt (k : ErrKind) : k.number < 8 := by
  cases k <;> decide

theorem CmdError.code_toNat (e : CmdError) : e.code.toNat = e.kind.number := by
  have := e.kind.number_lt
  rw [CmdError.code, BitVec.toNat_ofNat, Nat.mod_eq_of_lt (by omega)]

/-- 0 is the code of success alone (rule R341). -/
theorem CmdError.code_ne_zero (e : CmdError) : e.code ≠ 0 := by
  unfold CmdError.code
  cases e.kind <;> decide

/-- A command that fails sets the `STICKY` bit of its code (rules R39, R345). -/
theorem runCommand_sticky_of_failed {w : Word} {s t : State} (h : runCommand w s = .next t) (hcode : t.code ≠ 0) :
    t.sticky = s.sticky ||| 1#32 <<< t.code.toNat := by
  rcases runCommand_ends h with ⟨i, u, -, -, rfl⟩ | ⟨e, u, hu, rfl⟩
  · exact absurd rfl hcode
  · have hsticky : u.sticky = s.sticky := by rcases hu with rfl | rfl <;> rfl
    rw [abort_sticky, abort_code, hsticky, stickyErrBit, e.code_toNat]

/-- Settles O18: the access comes before the end of the cycle, where the failing command sets its bit. -/
theorem stickyPort : Obligations.StickyPort := by
  intro s w
  have ht := accessTarget_sticky s.env.build
  refine ⟨hostWrite_sticky w ht, readData_csr ht (.inr rfl), fun rest t hbusy hlast hbus hstep hcode => ?_⟩
  have hissue : issuesCommand .w32 0x0000C s = false := by simp [issuesCommand, hbusy]
  have hclear : hostWrite .w32 0x0000C w (takeEvent s rest)
      = (accepted (takeEvent s rest)).setSticky (s.sticky &&& ~~~w) := hostWrite_sticky w (accessTarget_sticky _)
  have hend := endCycle_of_last (s := (accepted (takeEvent s rest)).setSticky (s.sticky &&& ~~~w)) hbusy
    (Nat.le_of_eq hlast)
  rw [step_of_write hbus hissue, hclear, hend] at hstep
  exact runCommand_sticky_of_failed hstep hcode

/-! ### What a rule stores fits its checks -/

theorem frameBody_length (ident ext payload : List Byte) (f : FrameArgs) (auth : Bool) :
    (frameBody ident ext payload f auth).length
      = Config.fixedHeaderBytes + ident.length + ext.length + payload.length := by
  simp [frameBody, Config.fixedHeaderBytes]
  omega

theorem builtFrame_length (auth : Bool) (s : State) : (builtFrame auth s).length = frameTotal auth s := by
  cases auth <;> simp [builtFrame, frameBody_length, digest_length, frameTotal, trailerLen]

theorem triple_length (c : BitVec 24) : (triple c).length = 3 :=
  bytesOfWord_length 3 _

/-! ### What a rule puts into the table -/

/-- Every record the decoder gives has the shape of rule R116. -/
theorem decodeRecords_shaped {s : State} : ∀ {fuel off left : Nat} {recs : List ExtWords},
    decodeRecords s fuel off left = .ok recs → ∀ e ∈ recs, extWordsShaped e := by
  intro fuel
  induction fuel with
  | zero =>
    intro off left recs h
    cases h
    simp
  | succ n ih =>
    intro off left recs h
    rw [decodeRecords] at h
    split at h
    · cases h
      simp
    · obtain ⟨⟨r, c⟩, hrec, h⟩ := bind_ok.mp h
      obtain ⟨rest, hrest, h⟩ := bind_ok.mp h
      obtain ⟨-, -, rfl, -⟩ := decodeRecord_ok_iff.mp hrec
      cases h
      exact List.forall_mem_cons.mpr ⟨words_shaped _ _ off, ih hrest⟩

/-- The records of a frame: at most one per byte of its extensions region, whose length has 8 bits (rule R117). -/
theorem frameRecords_ok {decodeExt : Bool} {h : FrameHeader} {s : State} {recs : List ExtWords}
    (hrecs : frameRecords decodeExt h s = .ok recs) :
    recs.length ≤ Config.extTabEntries ∧ ∀ e ∈ recs, extWordsShaped e := by
  cases decodeExt with
  | false =>
    cases hrecs
    exact ⟨Nat.zero_le _, by simp⟩
  | true =>
    have hlen : h.extensionLen.toNat ≤ Config.extTabEntries := Nat.le_of_lt_succ h.extensionLen.isLt
    exact ⟨(decodeRecords_length hrecs).trans hlen, decodeRecords_shaped hrecs⟩

/-! ### What a rule makes of the MAC state -/

/-- An epoch reduced modulo the cycle lies in it (rule R49). -/
theorem epoch_reduced_lt {x c : Nat} (hc : c ≠ 0) : (BitVec.ofNat 24 (x % c)).toNat < c :=
  (BitVec.toNat_ofNat .. ▸ Nat.mod_le _ _).trans_lt (Nat.mod_lt x (Nat.pos_of_ne_zero hc))

theorem macGood_of_valid {m : MacState} (hvalid : m.valid = true) (hcycle : m.cycle ≠ 0)
    (hepoch : m.epoch.toNat < m.cycle) (hlast : m.lastValid = false → m.last = 0) : macGood m :=
  ⟨fun _ => ⟨Nat.pos_of_ne_zero hcycle, hepoch⟩, fun h => by simp [hvalid] at h, hlast⟩

theorem macGood_macInitState {s : State} (hc : (macInitState s).cycle ≠ 0) : macGood (macInitState s) :=
  macGood_of_valid rfl hc (epoch_reduced_lt hc) fun _ => rfl

theorem macGood_macUpdateState {s : State} (hvalid : s.mac.valid = true) (hc : (macUpdateState s).cycle ≠ 0) :
    macGood (macUpdateState s) :=
  macGood_of_valid hvalid hc (epoch_reduced_lt hc) fun h => nomatch h

theorem macGood_macSetOwnState {s : State} (hvalid : s.mac.valid = true) (hc : (macSetOwnState s).cycle ≠ 0)
    (h : macGood s.mac) : macGood (macSetOwnState s) := by
  obtain ⟨-, -, hlast⟩ := h
  exact macGood_of_valid hvalid hc (epoch_reduced_lt hc) hlast

/-! ### The updates a rule may make -/

/-- `t` is `s` after an update of the component that the checks of the commands allow: bytes inside `BUF`, no key
without `KEY_VALID`, a table of at most 255 shaped entries, a MAC state as in rule R49. -/
def Written.LegalUpdate (s t : State) : Written → Prop
  | .nothing => t = s
  | .buf => ∃ off bytes, off + bytes.length ≤ s.env.build.bufBytes ∧ t = memWrite s off bytes
  | .key => ∃ k valid, (valid = false → k = Key.zero) ∧ t = s.setKey k valid
  | .table => ∃ recs, (recs.length ≤ Config.extTabEntries ∧ ∀ e ∈ recs, extWordsShaped e) ∧ t = s.setExtTab recs
  | .mac => ∃ m, (macGood s.mac → macGood m) ∧ t = s.setMac m

/-- `t` is `s` after a legal update and with new results, `RES7` = 0 (rule R115). -/
def Written.LegalEnd (w : Written) (s t : State) : Prop :=
  ∃ u res, w.LegalUpdate s u ∧ res.r7 = 0 ∧ t = u.setRes res

theorem legalEnd_setRes {s : State} {res : RegFile} (h7 : res.r7 = 0) : Written.nothing.LegalEnd s (s.setRes res) :=
  ⟨s, res, rfl, h7, rfl⟩

theorem legalEnd_memWrite {s : State} {off : Nat} {bytes : List Byte} {res : RegFile}
    (hin : off + bytes.length ≤ s.env.build.bufBytes) (h7 : res.r7 = 0) :
    Written.buf.LegalEnd s ((memWrite s off bytes).setRes res) :=
  ⟨_, res, ⟨off, bytes, hin, rfl⟩, h7, rfl⟩

theorem legalEnd_setKey {s : State} {k : Key} {valid : Bool} {res : RegFile}
    (hk : valid = false → k = Key.zero) (h7 : res.r7 = 0) :
    Written.key.LegalEnd s ((s.setKey k valid).setRes res) :=
  ⟨_, res, ⟨k, valid, hk, rfl⟩, h7, rfl⟩

theorem legalEnd_setExtTab {s : State} {recs : List ExtWords} {res : RegFile}
    (hrecs : recs.length ≤ Config.extTabEntries ∧ ∀ e ∈ recs, extWordsShaped e) (h7 : res.r7 = 0) :
    Written.table.LegalEnd s ((s.setExtTab recs).setRes res) :=
  ⟨_, res, ⟨recs, hrecs, rfl⟩, h7, rfl⟩

theorem legalEnd_setMac {s : State} {m : MacState} {res : RegFile} (hm : macGood s.mac → macGood m)
    (h7 : res.r7 = 0) : Written.mac.LegalEnd s ((s.setMac m).setRes res) :=
  ⟨_, res, ⟨m, hm, rfl⟩, h7, rfl⟩

theorem legalEnd_writeTriple {s : State} {dst : Nat} {c : BitVec 24} (hin : dst + 3 ≤ s.env.build.bufBytes) :
    Written.buf.LegalEnd s (writeTriple s dst c) :=
  legalEnd_memWrite (by rwa [triple_length]) rfl

theorem ruleExtEnc_legalEnd {rec : State → ExtRecord} {s t : State} (h : ruleExtEnc rec s = .ok t) :
    Written.buf.LegalEnd s t := by
  obtain ⟨hin, rfl⟩ := ruleExtEnc_ok_iff.mp h
  exact legalEnd_memWrite hin rfl

/-- What `ruleOf_update` says, with what the rule's checks secure: the update is legal, and `RES7` is 0. -/
theorem ruleOf_legalEnd {i : Instr} {s t : State} (h : ruleOf i s = .ok t) : (writtenBy i).LegalEnd s t := by
  cases i with
  | nop | golayEnc =>
    cases h
    exact legalEnd_setRes rfl
  | frameBuild auth outerFec =>
    obtain ⟨hchecks, rfl⟩ := ruleFrameBuild_ok_iff.mp h
    obtain ⟨-, -, -, -, -, -, -, -, -, hin⟩ := frameBuildChecks_ok_iff.mp hchecks
    exact legalEnd_memWrite (by rwa [builtFrame_length]) rfl
  | frameParse decodeExt verify =>
    obtain ⟨_, _, _, -, -, hrecs, rfl⟩ := ruleFrameParse_ok_iff.mp h
    exact legalEnd_setExtTab (frameRecords_ok hrecs) rfl
  | extEncArqSequence | extEncArqRequest | extEncArqControl | extEncArqHandshake | extEncTddControl
  | extEncHmacSequenceReset => exact ruleExtEnc_legalEnd h
  | extEncRaw type =>
    obtain ⟨-, -, hin, rfl⟩ := ruleExtEncRaw_ok_iff.mp h
    exact legalEnd_memWrite (by rwa [List.length_cons, memRead_length, Nat.add_comm _ 1]) rfl
  | extDec =>
    obtain ⟨-, _, _, -, rfl⟩ := ruleExtDec_ok_iff.mp h
    exact legalEnd_setRes rfl
  | extDecAll =>
    obtain ⟨-, hlen, recs, hrecs, rfl⟩ := ruleExtDecAll_ok_iff.mp h
    exact legalEnd_setExtTab ⟨(decodeRecords_length hrecs).trans hlen, decodeRecords_shaped hrecs⟩ rfl
  | golayDec =>
    obtain ⟨_, -, rfl⟩ := ruleGolayDec_ok_iff.mp h
    exact legalEnd_setRes rfl
  | golayEncBytes =>
    obtain ⟨hin, rfl⟩ := ruleGolayEncBytes_ok_iff.mp h
    exact legalEnd_writeTriple hin
  | golayDecBytes =>
    obtain ⟨_, -, rfl⟩ := ruleGolayDecBytes_ok_iff.mp h
    exact legalEnd_setRes rfl
  | prefixEnc =>
    obtain ⟨hin, -, -, rfl⟩ := rulePrefixEnc_ok_iff.mp h
    exact legalEnd_writeTriple hin
  | prefixDec =>
    obtain ⟨_, -, -, rfl⟩ := rulePrefixDec_ok_iff.mp h
    exact legalEnd_setRes rfl
  | keyLoad =>
    obtain ⟨-, rfl⟩ := ruleKeyLoad_ok_iff.mp h
    exact legalEnd_setKey (fun h => nomatch h) rfl
  | keyClear =>
    cases h
    exact legalEnd_setKey (fun _ => rfl) rfl
  | authAppend =>
    obtain ⟨-, -, hin, rfl⟩ := ruleAuthAppend_ok_iff.mp h
    exact legalEnd_memWrite (by rwa [digest_length]) rfl
  | authVerify =>
    obtain ⟨-, -, -, -, rfl⟩ := ruleAuthVerify_ok_iff.mp h
    exact legalEnd_setRes rfl
  | macInit =>
    obtain ⟨hc, rfl⟩ := ruleMacInit_ok_iff.mp h
    exact legalEnd_setMac (fun _ => macGood_macInitState hc) rfl
  | macOwnRem =>
    obtain ⟨-, rfl⟩ := ruleMacOwnRem_ok_iff.mp h
    exact legalEnd_setRes rfl
  | macPeerRem =>
    obtain ⟨-, rfl⟩ := ruleMacPeerRem_ok_iff.mp h
    exact legalEnd_setRes rfl
  | macCanSend =>
    obtain ⟨-, rfl⟩ := ruleMacCanSend_ok_iff.mp h
    exact legalEnd_setRes rfl
  | macUpdate =>
    obtain ⟨hvalid, hc, rfl⟩ := ruleMacUpdate_ok_iff.mp h
    exact legalEnd_setMac (fun _ => macGood_macUpdateState hvalid hc) rfl
  | macSetOwn =>
    obtain ⟨hvalid, hc, rfl⟩ := ruleMacSetOwn_ok_iff.mp h
    exact legalEnd_setMac (macGood_macSetOwnState hvalid hc) rfl

theorem Written.LegalUpdate.sticky {w : Written} {s t : State} (h : w.LegalUpdate s t) : t.sticky = s.sticky := by
  cases w with
  | nothing => cases h; rfl
  | buf => obtain ⟨_, _, -, rfl⟩ := h; rfl
  | key => obtain ⟨_, _, -, rfl⟩ := h; rfl
  | table => obtain ⟨_, -, rfl⟩ := h; rfl
  | mac => obtain ⟨_, -, rfl⟩ := h; rfl

/-- Settles O25: no error has code 0, so the command's rule succeeded. -/
theorem successKeepsSticky : Obligations.SuccessKeepsSticky := by
  intro w s t h hcode
  rcases runCommand_ends h with ⟨i, v, hdec, hok, rfl⟩ | ⟨e, u, -, rfl⟩
  · obtain ⟨u, res, hu, h7, rfl⟩ := ruleOf_legalEnd hok
    have hstart : (startOf i s).sticky = s.sticky := by rcases startOf_cases i s with hi | hi <;> rw [hi]; rfl
    exact ⟨rfl, hu.sticky.trans hstart, h7, i, hdec⟩
  · exact absurd hcode e.code_ne_zero

/-! ### The key commands -/

/-- A key command that succeeds: the new key, and nothing else beside `STATUS` and `RES`. -/
theorem finish_setKey {i : Instr} {s : State} {k : Key} {valid : Bool} (hi : writtenBy i = .key)
    (hok : ruleOf i s = .ok ((s.setKey k valid).setRes {})) :
    ∃ t, exec i s = .next t ∧ completed s t {} ∧ t.key.val = k.val ∧ t.keyValid = valid
      ∧ keptPorts s t ∧ keptTable s t ∧ keptMac s t ∧ keptBuf s t := by
  have hstart : startOf i s = s := by rcases writtenBy_eq_key.mp hi with rfl | rfl <;> rfl
  refine ⟨succeed ((s.setKey k valid).setRes {}), ?_, ⟨rfl, rfl, rfl, rfl⟩, rfl, rfl, ?_⟩
  · rw [exec_eq_next, hstart, finish_of_ok hok]
  · exact ⟨⟨rfl, rfl, rfl, rfl⟩, ⟨rfl, rfl⟩, rfl, fun _ => rfl⟩

/-- Settles O48. -/
theorem keyCommandsComplete : Obligations.KeyCommandsComplete := by
  intro s
  exact ⟨fun hin => finish_setKey (i := .keyLoad) rfl (ruleKeyLoad_ok_iff.mpr ⟨hin, rfl⟩),
    finish_setKey (i := .keyClear) (k := Key.zero) rfl rfl⟩

/-! ### The invariant, operation by operation -/

namespace State.Inv

variable {s : State} (h : s.Inv)
include h

/-- The flight of a command and the model's own fields, as long as they agree (rule R53). -/
theorem setBusy_setEnv {b : Bool} {e : Env} (hbuild : e.build = s.env.build)
    (hcycles : b = true ↔ 1 ≤ e.cyclesLeft) : ((s.setBusy b).setEnv e).Inv :=
  { h with
    buf_range := fun c hc => hbuild ▸ h.buf_range c hc
    busy_cycles := hcycles }

/-- Fields of the model's own that are neither the build nor the cycles left. -/
theorem setEnv {e : Env} (hbuild : e.build = s.env.build) (hleft : e.cyclesLeft = s.env.cyclesLeft) :
    (s.setEnv e).Inv :=
  h.setBusy_setEnv hbuild (hleft ▸ h.busy_cycles)

theorem setArg (a : RegFile) : (s.setArg a).Inv :=
  { h with }

theorem setCmdReg (w : Word) : (s.setCmdReg w).Inv :=
  { h with }

theorem setSticky {v : Word} (hv : v &&& ~~~stickyMask = 0) : (s.setSticky v).Inv :=
  { h with sticky_reserved := hv }

theorem memWrite {off : Nat} {bytes : List Byte} (hin : off + bytes.length ≤ s.env.build.bufBytes) :
    (memWrite s off bytes).Inv :=
  { h with
    buf_wf := Memory.wf_storeBytes bytes h.buf_wf off
    buf_range := fun c hc => (Memory.mem_storeBytes bytes hc).elim
      (fun hnew => Nat.lt_of_lt_of_le hnew.2 hin) (h.buf_range c) }

/-- A legal update keeps the invariant. -/
theorem legalUpdate {w : Written} {t : State} (hu : w.LegalUpdate s t) : t.Inv := by
  cases w with
  | nothing => exact hu ▸ h
  | buf =>
    obtain ⟨off, bytes, hin, rfl⟩ := hu
    exact h.memWrite hin
  | key =>
    obtain ⟨k, valid, hk, rfl⟩ := hu
    exact { h with key_cleared := hk }
  | table =>
    obtain ⟨recs, ⟨hlen, hshape⟩, rfl⟩ := hu
    exact { h with ext_count := ⟨hlen, rfl⟩, ext_shape := hshape }
  | mac =>
    obtain ⟨m, hm, rfl⟩ := hu
    exact { h with mac_good := hm h.mac_good }

theorem clearExtTab : (clearExtTab s).Inv :=
  h.legalUpdate (w := .table) ⟨[], ⟨Nat.zero_le _, by simp⟩, rfl⟩

theorem startOf (i : Instr) : (startOf i s).Inv := by
  rcases startOf_cases i s with hi | hi <;> rw [hi]
  · exact h
  · exact h.clearExtTab

theorem succeed {res : RegFile} (h7 : res.r7 = 0) : (succeed (s.setRes res)).Inv :=
  { h with
    outcome_listed := .inl ⟨rfl, rfl⟩
    failed_res := fun hcode => absurd rfl hcode
    res7_zero := h7 }

end State.Inv

/-! ### The invariant, step by step -/

/-- A bit set in `STICKY` is not a reserved one. -/
theorem or_reserved {x b m : Word} (hx : x &&& ~~~m = 0) (hb : b &&& ~~~m = 0) : (x ||| b) &&& ~~~m = 0 := by
  rw [BitVec.and_comm, BitVec.and_or_distrib_left, BitVec.and_comm _ x, BitVec.and_comm _ b, hx, hb]
  rfl

theorem and_reserved {x y m : Word} (hx : x &&& ~~~m = 0) : (x &&& y) &&& ~~~m = 0 := by
  rw [BitVec.and_assoc, BitVec.and_comm y, ← BitVec.and_assoc, hx]
  exact BitVec.zero_and

theorem stickyErrBit_reserved (e : CmdError) : stickyErrBit e &&& ~~~stickyMask = 0 := by
  unfold stickyErrBit
  cases e.kind <;> decide

theorem State.Inv.abort {s : State} (h : s.Inv) (e : CmdError) : (abort s e).Inv :=
  { h with
    sticky_reserved := or_reserved h.sticky_reserved (stickyErrBit_reserved e)
    outcome_listed := .inr ⟨e, rfl, rfl⟩
    failed_res := fun _ => rfl
    res7_zero := rfl }

/-- Every command word keeps the invariant, however it ends. -/
theorem runCommand_inv {w : Word} {s t : State} (h : s.Inv) (hrun : runCommand w s = .next t) : t.Inv := by
  rcases runCommand_ends hrun with ⟨i, v, -, hok, rfl⟩ | ⟨e, u, hu, rfl⟩
  · obtain ⟨u, res, hlegal, h7, rfl⟩ := ruleOf_legalEnd hok
    exact ((h.startOf i).legalUpdate hlegal).succeed h7
  · rcases hu with rfl | rfl
    · exact h.abort e
    · exact h.clearExtTab.abort e

theorem takeEvent_inv {s : State} (h : s.Inv) (rest : List HostEvent) : (takeEvent s rest).Inv :=
  h.setEnv rfl rfl

theorem accepted_inv {s : State} (h : s.Inv) : (accepted s).Inv :=
  h.setEnv rfl rfl

theorem refuseAccess_inv {s : State} (h : s.Inv) : (refuseAccess s).Inv :=
  (h.setSticky (or_reserved h.sticky_reserved (by decide))).setEnv rfl rfl

theorem hazard_inv {s : State} (h : s.Inv) : (hazard s).Inv :=
  h.setSticky (or_reserved h.sticky_reserved (by decide))

theorem hostRead_inv {s : State} (h : s.Inv) (width : Width) (addr : BitVec 17) : (hostRead width addr s).Inv := by
  rcases hostRead_cases width addr s with ⟨-, hr⟩ | ⟨t, -, ⟨-, -, hr⟩ | ⟨-, hr⟩⟩ <;> rw [hr]
  · exact (refuseAccess_inv h).setEnv rfl rfl
  · exact h.setEnv rfl rfl
  · exact (accepted_inv h).setEnv rfl rfl

theorem hostWrite_inv {s : State} (h : s.Inv) (width : Width) (addr : BitVec 17) (w : Word) :
    (hostWrite width addr w s).Inv := by
  rcases hostWrite_cases width addr w s with hw | hw | hw | ⟨i, -, hw⟩ | ⟨off, -, ht, hw⟩ <;> rw [hw]
  · exact refuseAccess_inv h
  · exact hazard_inv (accepted_inv h)
  · exact (accepted_inv h).setSticky (and_reserved h.sticky_reserved)
  · exact (accepted_inv h).setArg _
  · have hin := accessTarget_buf_inside ht
    exact (accepted_inv h).memWrite (by rwa [bytesOfWord_length])

theorem issue_inv {w : Word} {s t : State} (h : s.Inv) (hissue : issue w s = .next t) : t.Inv := by
  rcases issue_cases w s with ⟨-, hi⟩ | ⟨n, -, hi⟩ <;> rw [hi] at hissue
  · exact runCommand_inv (h.setCmdReg w) hissue
  · cases hissue
    exact (h.setCmdReg w).setBusy_setEnv rfl (by simp)

theorem endCycle_inv {s t : State} (h : s.Inv) (hend : endCycle s = .next t) : t.Inv := by
  rcases endCycle_cases s with ⟨-, hc⟩ | ⟨hbusy, hmore, hc⟩ | ⟨-, -, hc⟩ <;> rw [hc] at hend
  · cases hend
    exact h
  · cases hend
    have hleft : s.busy = true ↔ 1 ≤ s.env.cyclesLeft - 1 := iff_of_true hbusy (by omega)
    exact h.setBusy_setEnv rfl hleft
  · have hlanded : (false = true) ↔ 1 ≤ 0 := by decide
    exact runCommand_inv (h.setBusy_setEnv (e := { s.env with cyclesLeft := 0 }) rfl hlanded) hend

/-- The state reset leaves, whatever was there before (rules R370..R373). -/
theorem resetPulse_inv (s : State) : (resetPulse s).Inv where
  buf_wf := rfl
  buf_range := fun _ hc => nomatch hc
  ext_count := ⟨Nat.zero_le _, rfl⟩
  ext_shape := fun _ he => nomatch he
  sticky_reserved := BitVec.zero_and
  outcome_listed := .inl ⟨rfl, rfl⟩
  failed_res := fun _ => rfl
  res7_zero := rfl
  key_cleared := fun _ => rfl
  mac_good := ⟨(nomatch ·), fun _ => rfl, fun _ => rfl⟩
  busy_cycles := iff_of_false Bool.false_ne_true (Nat.not_succ_le_zero 0)

/-- Settles O11: each operation of a cycle keeps the invariant. -/
theorem stepKeepsInv : Obligations.StepKeepsInv := by
  intro s t h hstep
  rcases step_cases s with ⟨rest, -, hs⟩ | ⟨w, rest, -, -, hs⟩ | ⟨u, hs, hu⟩ <;> rw [hs] at hstep
  · cases hstep
    exact resetPulse_inv _
  · exact issue_inv (accepted_inv (takeEvent_inv h rest)) hstep
  · refine endCycle_inv ?_ hstep
    rcases hu with rfl | ⟨rest, rfl⟩ | ⟨width, addr, rfl | ⟨rest, rfl⟩⟩ | ⟨width, addr, w, rest, -, rfl⟩
    · exact h
    · exact takeEvent_inv h rest
    · exact hostRead_inv h width addr
    · exact hostRead_inv (takeEvent_inv h rest) width addr
    · exact hostWrite_inv (takeEvent_inv h rest) width addr w

end Sys2Proof.Machine

/-! PROOFS. The key bytes are confidential (rules R50, R354): every operation but the four digest commands commutes
with replacing them, or overwrites them. -/

namespace Sys2Proof.Machine

/-- The state with other key bytes, `KEY_VALID` as it is. -/
def State.withKey (s : State) (k : Key) : State :=
  s.setKey k s.keyValid

@[simp] theorem State.withKey_busy (s : State) (k : Key) : (s.withKey k).busy = s.busy := rfl
@[simp] theorem State.withKey_cmdReg (s : State) (k : Key) : (s.withKey k).cmdReg = s.cmdReg := rfl
@[simp] theorem State.withKey_env (s : State) (k : Key) : (s.withKey k).env = s.env := rfl
@[simp] theorem State.withKey_arg (s : State) (k : Key) : (s.withKey k).arg = s.arg := rfl

/-! ### Host accesses -/

/-- No register and no byte a host can read shows the key. -/
theorem targetValue_withKey (s : State) (k : Key) (width : Width) (t : Target) :
    targetValue (s.withKey k) width t = targetValue s width t := by
  cases t with
  | csr c => cases c <;> rfl
  | extTab i n => rfl
  | buf off => rfl

theorem hostRead_withKey (width : Width) (addr : BitVec 17) (s : State) (k : Key) :
    hostRead width addr (s.withKey k) = (hostRead width addr s).withKey k := by
  simp only [hostRead, State.withKey_env, State.withKey_busy, targetValue_withKey]
  split
  · rfl
  · split <;> rfl

theorem hostWrite_withKey (width : Width) (addr : BitVec 17) (w : Word) (s : State) (k : Key) :
    hostWrite width addr w (s.withKey k) = (hostWrite width addr w s).withKey k := by
  cases hbusy : s.busy <;>
    simp only [hostWrite, State.withKey_env, State.withKey_busy, State.withKey_arg, hbusy] <;> split <;> rfl

theorem hostRead_key (width : Width) (addr : BitVec 17) (s : State) : (hostRead width addr s).key = s.key := by
  rcases hostRead_cases width addr s with ⟨-, h⟩ | ⟨t, -, ⟨-, -, h⟩ | ⟨-, h⟩⟩ <;> rw [h] <;> rfl

theorem hostWrite_key (width : Width) (addr : BitVec 17) (w : Word) (s : State) :
    (hostWrite width addr w s).key = s.key := by
  rcases hostWrite_cases width addr w s with h | h | h | ⟨i, -, h⟩ | ⟨off, -, -, h⟩ <;> rw [h] <;> rfl

/-! ### Rules -/

theorem decodeRecords_withKey (s : State) (k : Key) : ∀ fuel off left : Nat,
    decodeRecords (s.withKey k) fuel off left = decodeRecords s fuel off left
  | 0, _, _ => rfl
  | fuel + 1, off, left => by
    have hrec : decodeRecord (s.withKey k) off left = decodeRecord s off left := rfl
    simp only [decodeRecords, hrec, decodeRecords_withKey s k fuel]

theorem decodeAll_withKey (s : State) (k : Key) (bo bn : Nat) : decodeAll (s.withKey k) bo bn = decodeAll s bo bn :=
  decodeRecords_withKey s k bn bo bn

/-- A frame that is not verified is parsed without its digest (rule R151). -/
theorem frameVerified_withKey (h : FrameHeader) (s : State) (k : Key) :
    frameVerified false h (s.withKey k) = frameVerified false h s := by
  simp only [frameVerified, Bool.and_false, Bool.not_false, Bool.true_or]

theorem frameRecords_withKey (decodeExt : Bool) (h : FrameHeader) (s : State) (k : Key) :
    frameRecords decodeExt h (s.withKey k) = frameRecords decodeExt h s := by
  cases decodeExt with
  | false => rfl
  | true => exact decodeAll_withKey s k _ _

/-- The rule neither reads nor writes the key bytes: it commutes with replacing them. -/
def KeyBlind (rule : Rule) : Prop :=
  ∀ (s : State) (k : Key), rule (s.withKey k) = (·.withKey k) <$> rule s

theorem keyBlind_ruleExtEnc {rec : State → ExtRecord} (hrec : ∀ s k, rec (State.withKey s k) = rec s) :
    KeyBlind (ruleExtEnc rec) := by
  intro s k
  simp only [ruleExtEnc, hrec, map_bind]
  rfl

theorem keyBlind_ruleFrameParse (decodeExt : Bool) : KeyBlind (ruleFrameParse decodeExt false) := by
  intro s k
  have hheader : frameHeader false (s.withKey k) = frameHeader false s := rfl
  simp only [ruleFrameParse, hheader, frameVerified_withKey, frameRecords_withKey, map_bind]
  rfl

/-- Every rule is blind to the key bytes but those of the digest commands and of the two that write the key. -/
theorem ruleOf_keyBlind {i : Instr} (huses : usesKey i = false) (hwrites : writtenBy i ≠ .key) :
    KeyBlind (ruleOf i) := by
  intro s k
  cases i with
  | nop | golayEnc => rfl
  | frameBuild auth outerFec =>
    obtain rfl : auth = false := huses
    simp only [ruleOf, ruleFrameBuild, map_bind]
    rfl
  | frameParse decodeExt verify =>
    obtain rfl : verify = false := huses
    exact keyBlind_ruleFrameParse decodeExt s k
  | extEncArqSequence | extEncArqRequest | extEncArqControl | extEncArqHandshake | extEncTddControl
  | extEncHmacSequenceReset => exact keyBlind_ruleExtEnc (fun _ _ => rfl) s k
  | extDecAll =>
    simp only [ruleOf, ruleExtDecAll, decodeAll_withKey, map_bind]
    rfl
  | extEncRaw | extDec | golayDec | golayEncBytes | golayDecBytes | prefixEnc | prefixDec | macInit | macOwnRem
  | macPeerRem | macCanSend | macUpdate | macSetOwn =>
    simp only [ruleOf, ruleExtEncRaw, ruleExtDec, ruleGolayDec, ruleGolayEncBytes, ruleGolayDecBytes,
      rulePrefixEnc, rulePrefixDec, ruleMacInit, ruleMacOwnRem, ruleMacPeerRem, ruleMacCanSend, ruleMacUpdate,
      ruleMacSetOwn, map_bind]
    rfl
  | keyLoad | keyClear => exact absurd rfl hwrites
  | authAppend | authVerify => nomatch huses

/-- A rule that writes the key writes the same key whatever the old one was. -/
theorem ruleOf_withKey_of_writes {i : Instr} (h : writtenBy i = .key) (s : State) (k : Key) :
    ruleOf i (s.withKey k) = ruleOf i s := by
  rcases writtenBy_eq_key.mp h with rfl | rfl <;> rfl

theorem startOf_withKey (i : Instr) (s : State) (k : Key) : startOf i (s.withKey k) = (startOf i s).withKey k := by
  cases i <;> rfl

theorem startOf_key (i : Instr) (s : State) : (startOf i s).key = s.key := by
  rcases startOf_cases i s with h | h <;> rw [h]
  rfl

/-! ### Commands -/

/-- How two runs may end that start apart in the key bytes alone, `k₀` in the first and `k` in the second: in one
and the same state, or still apart in those bytes alone. -/
def KeyApart (k₀ k : Key) (t t' : State) : Prop :=
  t' = t ∨ (t.key = k₀ ∧ t' = t.withKey k)

/-- Both outcomes go on, to states that are `KeyApart`. -/
def OutcomesKeyApart (k₀ k : Key) (o o' : Host.Outcome State Fault Refusal) : Prop :=
  ∃ t t', o = .next t ∧ o' = .next t' ∧ KeyApart k₀ k t t'

theorem outcomesKeyApart_withKey {k₀ : Key} (k : Key) {t : State} (h : t.key = k₀) :
    OutcomesKeyApart k₀ k (.next t) (.next (t.withKey k)) :=
  ⟨t, _, rfl, rfl, .inr ⟨h, rfl⟩⟩

theorem finish_withKey_of_keyBlind {rule : Rule} (h : KeyBlind rule) (s : State) (k : Key) :
    finish rule (s.withKey k) = (finish rule s).withKey k := by
  unfold finish
  rw [h]
  cases rule s <;> rfl

/-- A command that computes no digest, from two states apart in the key bytes. -/
theorem finish_keyApart {i : Instr} (huses : usesKey i = false) (s : State) (k : Key) :
    KeyApart s.key k (finish (ruleOf i) s) (finish (ruleOf i) (s.withKey k)) := by
  by_cases hwrites : writtenBy i = .key
  · unfold finish
    rw [ruleOf_withKey_of_writes hwrites]
    cases ruleOf i s with
    | ok t => exact .inl rfl
    | error e => exact .inr ⟨rfl, rfl⟩
  · have hkept := (finish_keptBut i s).key hwrites
    exact .inr ⟨hkept.1, finish_withKey_of_keyBlind (ruleOf_keyBlind huses hwrites) s k⟩

theorem runCommand_keyApart {w : Word} (h : ∀ i, decode w = .ok i → usesKey i = false) (s : State) (k : Key) :
    OutcomesKeyApart s.key k (runCommand w s) (runCommand w (s.withKey k)) := by
  unfold runCommand
  cases hdec : decode w with
  | ok i =>
    refine ⟨_, _, exec_eq i s, exec_eq i _, ?_⟩
    have hends := finish_keyApart (h i hdec) (startOf i s) k
    rwa [startOf_key, ← startOf_withKey] at hends
  | error e => exact outcomesKeyApart_withKey k (t := abort s e) rfl

/-! ### Steps -/

theorem endCycle_keyApart {s : State} {k₀ : Key} (k : Key) (hkey : s.key = k₀)
    (h : ∀ i, s.busy = true → decode s.cmdReg = .ok i → usesKey i = false) :
    OutcomesKeyApart k₀ k (endCycle s) (endCycle (s.withKey k)) := by
  subst hkey
  rcases endCycle_cases s with ⟨hidle, hs⟩ | ⟨hbusy, hmore, hs⟩ | ⟨hbusy, hlast, hs⟩ <;> rw [hs]
  · rw [endCycle_of_idle (s := s.withKey k) hidle]
    exact outcomesKeyApart_withKey k rfl
  · rw [endCycle_of_more (s := s.withKey k) hbusy hmore]
    exact outcomesKeyApart_withKey k (t := s.setEnv _) rfl
  · rw [endCycle_of_last (s := s.withKey k) hbusy hlast]
    exact runCommand_keyApart (h · hbusy) _ k

theorem issue_keyApart {w : Word} (h : ∀ i, decode w = .ok i → usesKey i = false) (s : State) (k : Key) :
    OutcomesKeyApart s.key k (issue w s) (issue w (s.withKey k)) := by
  have hlat : commandLatency w ((s.withKey k).setCmdReg w) = commandLatency w (s.setCmdReg w) :=
    commandLatency_congr rfl rfl rfl rfl rfl rfl w
  unfold issue
  rw [hlat]
  cases commandLatency w (s.setCmdReg w) with
  | zero => exact runCommand_keyApart h (s.setCmdReg w) k
  | succ n => exact outcomesKeyApart_withKey k (t := ((s.setCmdReg w).setBusy true).setEnv _) rfl

/-- A host read at the start of a cycle leaves the command in flight what it was. -/
theorem endCycle_hostRead_keyApart {s : State} (k : Key) (width : Width) (addr : BitVec 17)
    (h : ∀ i, s.busy = true → decode s.cmdReg = .ok i → usesKey i = false) :
    OutcomesKeyApart s.key k (endCycle (hostRead width addr s))
      (endCycle (hostRead width addr (s.withKey k))) := by
  obtain ⟨hbusy, hcmd, -, -⟩ := hostRead_cycle width addr s
  rw [hostRead_withKey]
  exact endCycle_keyApart k (hostRead_key width addr s) (hbusy ▸ hcmd ▸ h)

/-- The same for a host write. -/
theorem endCycle_hostWrite_keyApart {s : State} (k : Key) (width : Width) (addr : BitVec 17) (w : Word)
    (h : ∀ i, s.busy = true → decode s.cmdReg = .ok i → usesKey i = false) :
    OutcomesKeyApart s.key k (endCycle (hostWrite width addr w s))
      (endCycle (hostWrite width addr w (s.withKey k))) := by
  obtain ⟨hbusy, hcmd, -, -⟩ := hostWrite_cycle width addr w s
  rw [hostWrite_withKey]
  exact endCycle_keyApart k (hostWrite_key width addr w s) (hbusy ▸ hcmd ▸ h)

/-- One step in which no digest command is issued or in flight, from two states apart in the key bytes. -/
theorem step_keyApart {s : State} (k : Key)
    (hflight : ∀ i, s.busy = true → decode s.cmdReg = .ok i → usesKey i = false)
    (hissue : ∀ w rest i, s.env.bus = .access (.write .w32 0x00010 w) :: rest → decode w = .ok i →
      usesKey i = false) :
    OutcomesKeyApart s.key k (step s) (step (s.withKey k)) := by
  unfold step cycle
  rw [State.withKey_env, State.withKey_busy]
  cases hbus : s.env.bus with
  | nil => exact endCycle_keyApart k rfl hflight
  | cons e rest =>
    cases e with
    | idle => exact endCycle_keyApart (s := takeEvent s rest) k rfl hflight
    | reset => exact ⟨_, _, rfl, rfl, .inl rfl⟩
    | poll =>
      cases hbusy : s.busy with
      | true => exact endCycle_hostRead_keyApart k .w32 statusAddr hflight
      | false => exact endCycle_hostRead_keyApart (s := takeEvent s rest) k .w32 statusAddr hflight
    | access a =>
      cases a with
      | read width addr => exact endCycle_hostRead_keyApart (s := takeEvent s rest) k width addr hflight
      | write width addr w =>
        have hsame : issuesCommand width addr (s.withKey k) = issuesCommand width addr s := rfl
        simp only [hsame]
        cases hi : issuesCommand width addr s with
        | true =>
          obtain ⟨-, rfl, rfl⟩ := issuesCommand_iff.mp hi
          exact issue_keyApart (hissue w rest · hbus) (accepted (takeEvent s rest)) k
        | false => exact endCycle_hostWrite_keyApart (s := takeEvent s rest) k width addr w hflight

/-- States that are `KeyApart` differ in the key bytes alone, and only if neither run replaced them. -/
theorem OutcomesKeyApart.states {k₀ k : Key} {o o' : Host.Outcome State Fault Refusal} {t t' : State}
    (h : OutcomesKeyApart k₀ k o o') (ho : o = .next t) (ho' : o' = .next t') :
    t' = { t with key := t'.key } ∧ (t'.key = t.key ∨ (t.key = k₀ ∧ t'.key = k)) := by
  obtain ⟨u, u', hu, hu', hends⟩ := h
  cases hu.symm.trans ho
  cases hu'.symm.trans ho'
  rcases hends with rfl | ⟨hkey, rfl⟩
  · exact ⟨rfl, .inl rfl⟩
  · exact ⟨rfl, .inr ⟨hkey, rfl⟩⟩

/-- Settles O27. -/
theorem keyIsConfidential : Obligations.KeyIsConfidential := by
  intro s k
  refine ⟨fun w t t' hw => ?command, fun width addr => hostRead_withKey width addr s k,
    fun width addr w => hostWrite_withKey width addr w s k, fun t t' hflight hissue => ?step⟩
  case command => exact (runCommand_keyApart hw s k).states
  case step => exact (step_keyApart k hflight hissue).states

end Sys2Proof.Machine

/-! PROOFS. Which host accesses are refused (rules R35, R81, R85, R86), what a read leaves unchanged (rules R88, R379),
how one step takes each event (rules R90, R330), and what a command that stores bytes leaves (rules R83, R84, R190). -/

namespace Sys2Proof.Machine

/-! ### The address map, read backwards -/

/-- The address of each register (rule R35). -/
def Csr.addr : Csr → Nat
  | .id => 0x000
  | .caps => 0x004
  | .status => 0x008
  | .sticky => 0x00C
  | .cmd => 0x010
  | .arg i => 0x020 + 4 * i.val
  | .res i => 0x040 + 4 * i.val
  | .extCount => 0x060
  | .macEpoch => 0x070
  | .macLen => 0x074
  | .macGt => 0x078
  | .macCycle => 0x07C
  | .macLast => 0x080

theorem csrAt_eq_some_iff {a : Nat} {c : Csr} : csrAt a = some c ↔ a = c.addr := by
  constructor
  · intro h
    unfold csrAt at h
    split at h
    case h_12 =>
      split at h
      · cases h
        simp only [Csr.addr, Fin.val_ofNat]
        omega
      · split at h <;> cases h
        simp only [Csr.addr, Fin.val_ofNat]
        omega
    all_goals cases h; rfl
  · rintro rfl
    cases c with
    | arg i | res i =>
      match i with
      | 0 | 1 | 2 | 3 | 4 | 5 | 6 | 7 => rfl
    | _ => rfl

/-- The assigned register addresses, as ranges (rule R35). -/
theorem exists_csr_addr_iff {a : Nat} : (∃ c : Csr, a = c.addr) ↔
    a % 4 = 0 ∧ (a ≤ 0x010 ∨ (0x020 ≤ a ∧ a ≤ 0x060) ∨ (0x070 ≤ a ∧ a ≤ 0x080)) := by
  constructor
  · rintro ⟨c, rfl⟩
    cases c with
    | arg i | res i => simp only [Csr.addr]; omega
    | _ => decide
  · rintro ⟨halign, hrange⟩
    have assigned : ∀ a < 0x81, a % 4 = 0 →
        (a ≤ 0x010 ∨ (0x020 ≤ a ∧ a ≤ 0x060) ∨ (0x070 ≤ a ∧ a ≤ 0x080)) → (csrAt a).isSome = true := by decide
    obtain ⟨c, hc⟩ := Option.isSome_iff_exists.mp (assigned a (by omega) halign hrange)
    exact ⟨c, csrAt_eq_some_iff.mp hc⟩

/-- The accesses that reach a target (rules R35, R51, R81, R85). -/
def Target.ReachedBy (b : Build) (width : Width) (a : Nat) : Target → Prop
  | .csr c => width = .w32 ∧ a = c.addr
  | .extTab i k => width = .w32 ∧ i < 255 ∧ k < 3 ∧ a = 0x1000 + 12 * i + 4 * k
  | .buf off => insideBuf b width a ∧ a = 0x10000 + off

/-- Where an access that is not refused leads. -/
theorem Target.reachedBy_of_accessTarget {b : Build} {width : Width} {addr : BitVec 17} {t : Target}
    (h : accessTarget b width addr = some t) : t.ReachedBy b width addr.toNat := by
  unfold accessTarget at h
  simp only at h
  split at h
  · split at h
    · rename_i haccess
      obtain ⟨c, hc, rfl⟩ := Option.map_eq_some_iff.mp h
      exact ⟨haccess.1, csrAt_eq_some_iff.mp hc⟩
    · cases h
  · split at h
    · split at h <;> cases h
      rename_i haccess
      exact ⟨haccess.1, by omega, by omega, by omega⟩
    · split at h <;> cases h
      rename_i hinside
      exact ⟨⟨hinside.1, hinside.2.1, by omega⟩, by omega⟩

theorem accessTarget_of_reachedBy {b : Build} {width : Width} {addr : BitVec 17} {t : Target}
    (h : t.ReachedBy b width addr.toNat) : accessTarget b width addr = some t := by
  cases t with
  | csr c =>
    obtain ⟨rfl, ha⟩ := h
    obtain ⟨halign, hrange⟩ := exists_csr_addr_iff.mp ⟨c, ha⟩
    simp only [accessTarget]
    rw [if_pos (by omega), if_pos ⟨trivial, halign⟩, csrAt_eq_some_iff.mpr ha]
    rfl
  | extTab i k =>
    obtain ⟨rfl, hi, hk, ha⟩ := h
    have haddr : addr = BitVec.ofNat 17 (0x1000 + 12 * i + 4 * k) := by
      rw [← ha, BitVec.ofNat_toNat, BitVec.setWidth_eq]
    rw [haddr, accessTarget_extTab b hi hk]
  | buf off =>
    obtain ⟨⟨-, halign, hin⟩, ha⟩ := h
    have haddr : addr = bufAddr off := by rw [bufAddr, ← ha, BitVec.ofNat_toNat, BitVec.setWidth_eq]
    have hoff : off % widthBytes width = 0 := by
      cases width <;> simp only [widthBytes] at halign ⊢ <;> omega
    rw [haddr, accessTarget_buf hoff (by omega)]

theorem accessTarget_eq_some_iff {b : Build} {width : Width} {addr : BitVec 17} {t : Target} :
    accessTarget b width addr = some t ↔ t.ReachedBy b width addr.toNat :=
  ⟨Target.reachedBy_of_accessTarget, accessTarget_of_reachedBy⟩

/-! ### Which accesses are refused -/

/-- What a host may write to (rules R35, R86). -/
def Target.HostWritten : Target → Prop
  | .csr .sticky | .csr .cmd | .csr (.arg _) | .buf _ => True
  | _ => False

/-- The assigned register addresses a host may write, as ranges (rules R35, R86). -/
theorem exists_written_csr_iff {a : Nat} : (∃ c : Csr, a = c.addr ∧ (Target.csr c).HostWritten) ↔
    a % 4 = 0 ∧ (a = 0x00C ∨ a = 0x010 ∨ (0x020 ≤ a ∧ a < 0x040)) := by
  constructor
  · rintro ⟨c, rfl, hc⟩
    cases c with
    | sticky | cmd => decide
    | arg i => simp only [Csr.addr]; omega
    | _ => exact hc.elim
  · rintro ⟨halign, rfl | rfl | ⟨hlow, hhigh⟩⟩
    · exact ⟨.sticky, rfl, trivial⟩
    · exact ⟨.cmd, rfl, trivial⟩
    · exact ⟨.arg ⟨(a - 0x020) / 4, by omega⟩, by simp only [Csr.addr]; omega, trivial⟩

/-- A host may read exactly where an access reaches something. -/
theorem hostReadable_iff {b : Build} {width : Width} {addr : BitVec 17} :
    hostReadable b width addr.toNat ↔ ∃ t, accessTarget b width addr = some t := by
  simp only [accessTarget_eq_some_iff]
  constructor
  · rintro (⟨rfl, halign, hrange⟩ | hinside)
    · by_cases htab : 0x1000 ≤ addr.toNat
      · exact ⟨.extTab ((addr.toNat - 0x1000) / 12) ((addr.toNat - 0x1000) % 12 / 4), rfl, by omega, by omega,
          by omega⟩
      · obtain ⟨c, hc⟩ := exists_csr_addr_iff.mpr ⟨halign, by omega⟩
        exact ⟨.csr c, rfl, hc⟩
    · exact ⟨.buf (addr.toNat - 0x10000), hinside, by omega⟩
  · rintro ⟨t, ht⟩
    cases t with
    | csr c =>
      obtain ⟨hwidth, ha⟩ := ht
      obtain ⟨halign, hrange⟩ := exists_csr_addr_iff.mp ⟨c, ha⟩
      exact .inl ⟨hwidth, halign, by omega⟩
    | extTab i k =>
      obtain ⟨hwidth, hi, hk, ha⟩ := ht
      exact .inl ⟨hwidth, by omega, by omega⟩
    | buf off => exact .inr ht.1

/-- A host may write exactly where an access reaches something it may write to. -/
theorem hostWritable_iff {b : Build} {width : Width} {addr : BitVec 17} :
    hostWritable b width addr.toNat ↔ ∃ t, accessTarget b width addr = some t ∧ t.HostWritten := by
  simp only [accessTarget_eq_some_iff]
  constructor
  · rintro (⟨hwidth, hcsr⟩ | hinside)
    · obtain ⟨c, hc, hwritten⟩ := exists_written_csr_iff.mpr hcsr
      exact ⟨.csr c, ⟨hwidth, hc⟩, hwritten⟩
    · exact ⟨.buf (addr.toNat - 0x10000), ⟨hinside, by omega⟩, trivial⟩
  · rintro ⟨t, ht, hwritten⟩
    cases t with
    | csr c => exact .inl ⟨ht.1, exists_written_csr_iff.mp ⟨c, ht.2, hwritten⟩⟩
    | extTab i k => exact hwritten.elim
    | buf off => exact .inr ht.1

theorem accessTarget_eq_none {b : Build} {width : Width} {addr : BitVec 17}
    (h : ¬ hostReadable b width addr.toNat) : accessTarget b width addr = none := by
  rw [hostReadable_iff] at h
  exact Option.eq_none_iff_forall_ne_some.mpr fun t ht => h ⟨t, ht⟩

theorem hostRead_refused {width : Width} {addr : BitVec 17} {s : State}
    (h : ¬ hostReadable s.env.build width addr.toNat) : hostRead width addr s = deliver (refuseAccess s) 0 := by
  simp [hostRead, accessTarget_eq_none h]

theorem hostRead_sticky {width : Width} {addr : BitVec 17} {s : State}
    (h : hostReadable s.env.build width addr.toNat) : (hostRead width addr s).sticky = s.sticky := by
  obtain ⟨t, ht⟩ := hostReadable_iff.mp h
  rcases hostRead_cases width addr s with ⟨hnone, -⟩ | ⟨u, -, ⟨-, -, hr⟩ | ⟨-, hr⟩⟩
  · cases hnone.symm.trans ht
  all_goals rw [hr]; rfl

theorem hostWrite_refused {width : Width} {addr : BitVec 17} {s : State} (v : Word)
    (h : ¬ hostWritable s.env.build width addr.toNat) : hostWrite width addr v s = refuseAccess s := by
  have unwritten : ∀ {t}, accessTarget s.env.build width addr = some t → ¬ t.HostWritten :=
    fun ht hwritten => h (hostWritable_iff.mpr ⟨_, ht, hwritten⟩)
  unfold hostWrite
  split
  case h_1 ht | h_2 ht | h_3 ht | h_4 ht => exact (unwritten ht trivial).elim
  all_goals rfl

/-- Everything a write that is not refused leaves in `STICKY`: its old bits and `HAZARD`, or what the write to
`STICKY` itself leaves. -/
theorem hostWrite_sticky_cases {width : Width} {addr : BitVec 17} {s : State} (v : Word)
    (h : hostWritable s.env.build width addr.toNat) :
    (hostWrite width addr v s).sticky = s.sticky
      ∨ (hostWrite width addr v s).sticky = s.sticky ||| hazardBit
      ∨ (hostWrite width addr v s).sticky = stickyAfterWrite s.sticky v := by
  obtain ⟨t, ht, hwritten⟩ := hostWritable_iff.mp h
  unfold hostWrite
  rw [ht]
  match t, hwritten with
  | .csr .sticky, _ => exact .inr (.inr rfl)
  | .csr .cmd, _ => exact .inr (.inl rfl)
  | .csr (.arg i), _ | .buf off, _ =>
    cases s.busy with
    | false => exact .inl rfl
    | true => exact .inr (.inl rfl)

/-- Settles O19: an access is refused exactly where it reaches nothing, or, for a write, nothing a host may write
to. -/
theorem refusedAccess : Obligations.RefusedAccess := by
  intro s width addr v
  refine ⟨fun h => hostRead_refused h, fun h => hostWrite_refused v h, fun h => hostRead_sticky h,
    fun h hbit => ?_⟩
  rcases hostWrite_sticky_cases v h with hs | hs | hs <;> rw [hs] at hbit
  · exact hbit
  · simpa [hazardBit] using hbit
  · simp only [stickyAfterWrite, BitVec.getLsbD_and, Bool.and_eq_true] at hbit
    exact hbit.1

/-! ### A read leaves the block as it was -/

/-- What a read returns does not depend on the model's own fields that a read writes. -/
theorem targetValue_deliver_accepted (s : State) (v : Word) (width : Width) (t : Target) :
    targetValue (deliver (accepted s) v) width t = targetValue s width t := by
  cases t with
  | csr c => cases c <;> rfl
  | extTab i k => rfl
  | buf off => rfl

/-- Settles O23: the three ends of a read, refused, unspecified while `BUSY` = 1, and answered. -/
theorem readsHaveNoSideEffect : Obligations.ReadsHaveNoSideEffect := by
  intro s width addr
  rcases hostRead_cases width addr s with ⟨ht, hr⟩ | ⟨t, ht, ⟨hbusy, -, hr⟩ | ⟨hfree, hr⟩⟩ <;> rw [hr]
  case inl =>
    have hrefused : ¬ hostReadable s.env.build width addr.toNat := by simp [hostReadable_iff, ht]
    refine ⟨_, _, _, s.env.draws, rfl, (absurd · hrefused), fun _ => rfl, fun _ => ?_⟩
    rw [hostRead_refused (s := deliver (refuseAccess s) 0) hrefused]
    rfl
  all_goals have hreadable := hostReadable_iff.mpr ⟨t, ht⟩
  case inr.inl =>
    exact ⟨s.sticky, _, _, _, rfl, fun _ => rfl, (absurd hreadable ·), fun hidle => by simp [hidle] at hbusy⟩
  case inr.inr =>
    refine ⟨s.sticky, _, _, s.env.draws, rfl, fun _ => rfl, (absurd hreadable ·), fun _ => ?_⟩
    rw [readData_of_target (s := deliver (accepted s) _) ht hfree, targetValue_deliver_accepted]

/-! ### One step, event by event -/

/-- Settles O6: a state made by `withFetchWord` is a case of the first half. -/
theorem stepRunsIssuedCommand : Obligations.StepRunsIssuedCommand := by
  have issued : ∀ (s : State) (w : Word) (i : Instr) (rest : List HostEvent), s.busy = false →
      s.env.bus = .access (.write .w32 0x00010 w) :: rest → commandLatency w s = 0 → decode w = .ok i →
      step s = exec i ((accepted (takeEvent s rest)).setCmdReg w) := by
    intro s w i rest hidle hbus hlat hdec
    rw [step_issue_atomic hidle hbus hlat, runCommand, hdec]
  exact ⟨issued, fun s nbits n i hdec => issued (s.withFetchWord nbits n) _ i _ rfl rfl rfl hdec⟩

/-- The step from `s` is the cycle's one event, which leads to `u`, and then the end of the cycle (rules R53, R330,
log 6). -/
def StepPerforms (s u : State) : Prop :=
  (s.busy = false → step s = .next u)
    ∧ (s.busy = true → 2 ≤ s.env.cyclesLeft →
      step s = .next { u with env := { u.env with cyclesLeft := s.env.cyclesLeft - 1 } })
    ∧ (s.busy = true → s.env.cyclesLeft ≤ 1 →
      step s = runCommand s.cmdReg { u with busy := false, env := { u.env with cyclesLeft := 0 } })

/-- The event leaves alone which command is in flight, and for how long. -/
def SameFlight (s u : State) : Prop :=
  u.busy = s.busy ∧ u.cmdReg = s.cmdReg ∧ u.env.cyclesLeft = s.env.cyclesLeft

theorem stepPerforms_of_endCycle {s u : State} (hstep : step s = endCycle u) (hflight : SameFlight s u) :
    StepPerforms s u := by
  obtain ⟨hbusy, hcmd, hleft⟩ := hflight
  rw [StepPerforms, hstep, ← hbusy, ← hcmd, ← hleft]
  exact ⟨endCycle_of_idle, endCycle_of_more, endCycle_of_last⟩

theorem sameFlight_hostRead (width : Width) (addr : BitVec 17) (s : State) :
    SameFlight s (hostRead width addr s) := by
  obtain ⟨hbusy, hcmd, hleft, -⟩ := hostRead_cycle width addr s
  exact ⟨hbusy, hcmd, hleft⟩

theorem sameFlight_hostWrite (width : Width) (addr : BitVec 17) (v : Word) (s : State) :
    SameFlight s (hostWrite width addr v s) := by
  obtain ⟨hbusy, hcmd, hleft, -⟩ := hostWrite_cycle width addr v s
  exact ⟨hbusy, hcmd, hleft⟩

theorem step_of_nil {s : State} (hbus : s.env.bus = []) : step s = endCycle s := by
  simp [step, cycle, hbus]

theorem step_of_read {s : State} {width : Width} {addr : BitVec 17} {rest : List HostEvent}
    (hbus : s.env.bus = .access (.read width addr) :: rest) :
    step s = endCycle (hostRead width addr (takeEvent s rest)) := by
  simp [step, cycle, hbus]

/-- A `poll` is taken once it can read `BUSY` = 0 (rule R126). -/
theorem step_of_poll {s : State} {rest : List HostEvent} (hbus : s.env.bus = .poll :: rest) :
    step s = endCycle (hostRead .w32 0x00008 (if s.busy then s else takeEvent s rest)) := by
  simp [step, cycle, hbus, statusAddr]

/-- Settles O7: for each event, where the step stands before the end of the cycle. -/
theorem stepPerformsHostAccess : Obligations.StepPerformsHostAccess := by
  intro s rest performs
  have performed : ∀ {u : State}, step s = endCycle u → SameFlight s u → performs u :=
    stepPerforms_of_endCycle
  refine ⟨fun hbus => ?none, fun hbus => ?idle, fun hbus => ⟨fun hidle => ?pollIdle, fun hbusy => ?pollBusy⟩,
    fun width addr hbus => ?read, fun width addr v hbus hother => ?write⟩
  case none => exact performed (step_of_nil hbus) ⟨rfl, rfl, rfl⟩
  case idle => exact performed (step_of_idle hbus) ⟨rfl, rfl, rfl⟩
  case pollIdle =>
    have hstep := step_of_poll hbus
    rw [hidle] at hstep
    exact performed hstep (sameFlight_hostRead .w32 _ (takeEvent s rest))
  case pollBusy =>
    have hstep := step_of_poll hbus
    rw [hbusy] at hstep
    obtain ⟨-, -, -, hkept⟩ := hostRead_cycle .w32 0x00008 s
    exact ⟨performed hstep (sameFlight_hostRead .w32 _ s), hkept.trans hbus,
      (readData_status_busy (accessTarget_status _)).trans hbusy⟩
  case read => exact performed (step_of_read hbus) (sameFlight_hostRead width addr (takeEvent s rest))
  case write =>
    have hissue : issuesCommand width addr s = false := by rwa [← Bool.not_eq_true, issuesCommand_iff]
    exact performed (step_of_write hbus hissue) (sameFlight_hostWrite width addr v (takeEvent s rest))

/-! ### Commands that store bytes -/

/-- Only a command that writes the table empties it before its rule (rules R152, R195). -/
theorem startOf_eq_self {i : Instr} {s : State} (h : writtenBy i ≠ .table) : startOf i s = s := by
  cases i with
  | frameParse _ _ | extDecAll => exact absurd rfl h
  | _ => rfl

/-- A storing command that succeeds: its bytes at its destination, and nothing else beside `STATUS` and `RES`
(rules R83, R84). -/
theorem exec_of_memWrite {i : Instr} {s : State} {dst : Nat} {bytes : List Byte} {res : RegFile}
    (hi : writtenBy i = .buf) (hok : ruleOf i s = .ok ((memWrite s dst bytes).setRes res)) :
    ∃ t, exec i s = .next t ∧ completed s t res ∧ storedAt s t dst bytes
      ∧ keptPorts s t ∧ keptKey s t ∧ keptTable s t ∧ keptMac s t := by
  have hexec : exec i s = .next (succeed ((memWrite s dst bytes).setRes res)) := by
    rw [exec_eq, startOf_eq_self (by simp [hi]), finish_of_ok hok]
  have kept := exec_keptBut hexec
  rw [hi] at kept
  exact ⟨_, hexec, ⟨rfl, rfl, rfl, rfl⟩, ⟨memRead_memWrite s dst bytes, fun _ => bufByte_memWrite_outside s⟩,
    kept.ports, kept.key nofun, kept.table nofun, kept.mac nofun⟩

/-- Settles O37: the rule reads the region in the state the command starts in. -/
theorem extEncRawWritesItsRecord : Obligations.ExtEncRawWritesItsRecord := by
  intro s type so sl dst hsrc hlen hdst
  exact exec_of_memWrite (i := .extEncRaw type) rfl
    (ruleExtEncRaw_ok_iff.mpr ⟨hsrc, hlen, Nat.add_assoc dst 1 sl ▸ hdst, rfl⟩)

end Sys2Proof.Machine

/-! PROOFS. The decoder (rules R110..R112, R123): what it answers for a word of each opcode, read off once from its
table; then that it inverts the encoder, makes rule R112's checks in order, and accepts the opcode table's words. -/

namespace Sys2Proof

open Machine

/-! ### The fields of a command word -/

theorem eq_ofNat_of_toNat_eq {k n : Nat} {v : BitVec k} (h : v.toNat = n) : v = BitVec.ofNat k n := by
  rw [← h, BitVec.ofNat_toNat, BitVec.setWidth_eq]

theorem highHalfZero_iff (w : Word) : highHalfZero w = true ↔ w.extractLsb' 16 16 = 0#16 := by
  simp [highHalfZero]

/-- A word is its three fields (rule R110). -/
theorem word_eq_fields (w : Word) : w = w.extractLsb' 16 16 ++ modField w ++ opcodeField w := by
  have h : w.extractLsb' 16 16 ++ w.extractLsb' 8 8 = w.extractLsb' 8 24 :=
    BitVec.extractLsb'_append_extractLsb'_eq_extractLsb' (by decide)
  rw [modField, opcodeField, h, BitVec.extractLsb'_append_extractLsb'_eq_extractLsb' (by decide)]
  exact BitVec.extractLsb'_eq_self.symm

theorem eq_commandWord {w : Word} (h : highHalfZero w = true) : w = commandWord (modField w) (opcodeField w) := by
  conv_lhs => rw [word_eq_fields w, (highHalfZero_iff w).mp h]
  rfl

theorem opcodeAssigned_of_mem {w : Word} {mask : BitVec 8} (hop : (opcodeField w, mask) ∈ assignedOpcodes) :
    opcodeAssigned w = true :=
  List.any_eq_true.mpr ⟨_, hop, beq_self_eq_true _⟩

/-- An opcode is listed once, so one mask decides which `MOD` bits it lists. -/
theorem modBitsListed_iff {w : Word} {mask : BitVec 8} (hop : (opcodeField w, mask) ∈ assignedOpcodes) :
    modBitsListed w = true ↔ modField w &&& ~~~mask = 0 := by
  have hnodup : (assignedOpcodes.map Prod.fst).Nodup := by decide
  simp only [modBitsListed, List.all_eq_true, Bool.or_eq_true, bne_iff_ne, beq_iff_eq]
  refine ⟨fun h => (h _ hop).resolve_left (not_not.mpr rfl), fun h p hp => ?_⟩
  by_cases hpop : p.1 = opcodeField w
  · rw [List.inj_on_of_nodup_map hnodup hp hop hpop]
    exact .inr h
  · exact .inl hpop

theorem extTypeKnown_of_ne {w : Word} (hop : opcodeField w ≠ 0x10) : extTypeKnown w = true := by
  have hne : (opcodeField w != 0x10#8) = true := bne_iff_ne.mpr hop
  rw [extTypeKnown, hne, Bool.true_or]

theorem extTypeKnown_iff {w : Word} (hop : opcodeField w = 0x10) :
    extTypeKnown w = true ↔ (modField w).extractLsb' 0 4 < 6#4 := by
  simp [extTypeKnown, hop]

theorem wellFormedWord_iff (w : Word) : wellFormedWord w = true ↔
    highHalfZero w = true ∧ opcodeAssigned w = true ∧ modBitsListed w = true ∧ extTypeKnown w = true := by
  simp only [wellFormedWord, Bool.and_eq_true, and_assoc]

/-! ### `MOD` -/

theorem and_not_zero_mask (m : BitVec 8) : m &&& ~~~0x00 = m :=
  BitVec.and_allOnes

theorem decodePlain_eq (m : BitVec 8) (i : Instr) :
    decodePlain m i = if m &&& ~~~0x00 ≠ 0 then .error .reservedBits else .ok i := by
  rw [and_not_zero_mask, decodePlain, ite_not]
  rfl

theorem flags_reserved_iff : ∀ m : BitVec 8, m.extractLsb' 2 6 ≠ 0#6 ↔ m &&& ~~~0x03 ≠ 0 := by
  decide

theorem type_reserved_iff : ∀ m : BitVec 8, m.extractLsb' 4 4 ≠ 0#4 ↔ m &&& ~~~0x0F ≠ 0 := by
  decide

/-- Two flags with nothing above them are the whole of `MOD`. -/
theorem eq_modFlags : ∀ {m : BitVec 8}, m &&& ~~~0x03 = 0 → m = modFlags (m.getLsbD 0) (m.getLsbD 1) := by
  decide

/-- A type with nothing above it is the whole of `MOD`. -/
theorem eq_type : ∀ {m : BitVec 8}, m &&& ~~~0x0F = 0 → m = 0#4 ++ m.extractLsb' 0 4 := by
  decide

/-- What the `MOD` of an `EXT_ENC` decodes to (rules R111, R112(3), R112(4)). -/
theorem decodeExtEnc_cases (m : BitVec 8) :
    (m &&& ~~~0x0F ≠ 0 ∧ decodeExtEnc m = .error .reservedBits)
      ∨ m &&& ~~~0x0F = 0
        ∧ ((¬ m.extractLsb' 0 4 < 6#4 ∧ decodeExtEnc m = .error .extTypeIllegal)
          ∨ m.extractLsb' 0 4 < 6#4 ∧ ∃ i, decodeExtEnc m = .ok i ∧ encode i = commandWord m 0x10) := by
  unfold decodeExtEnc
  split
  next hres => exact .inl ⟨(type_reserved_iff m).mp hres, rfl⟩
  next hres =>
    have hmod : m &&& ~~~0x0F = 0 := by simpa only [type_reserved_iff, not_not] using hres
    have hm := eq_type hmod
    refine .inr ⟨hmod, ?_⟩
    split
    case h_7 =>
      refine .inl ⟨?_, rfl⟩
      simp only [imp_false] at *
      bv_omega
    all_goals
      have htype := eq_ofNat_of_toNat_eq ‹_›
      refine .inr ⟨by rw [htype]; decide, _, rfl, ?_⟩
      rw [hm, htype]
      rfl

/-! ### What decode answers -/

/-- The outcomes of the four checks of rule R112, in order, and what decode answers for each. -/
inductive DecodeCase (w : Word) : Prop
  | highBits (hhigh : highHalfZero w = false) (hdec : decode w = .error .reservedBits)
  | unassigned (hhigh : highHalfZero w = true) (hop : opcodeAssigned w = false)
      (hdec : decode w = .error .opcodeUnassigned)
  | modBits (hhigh : highHalfZero w = true) (hop : opcodeAssigned w = true) (hmod : modBitsListed w = false)
      (hdec : decode w = .error .reservedBits)
  | extType (hhigh : highHalfZero w = true) (hop : opcodeAssigned w = true) (hmod : modBitsListed w = true)
      (htype : extTypeKnown w = false) (hdec : decode w = .error .extTypeIllegal)
  | command (i : Instr) (hwf : wellFormedWord w = true) (henc : w = encode i) (hdec : decode w = .ok i)

section

variable {w : Word} {n : Nat} (hhigh : highHalfZero w = true) (hop : (opcodeField w).toNat = n)
include hhigh hop

/-- An opcode with one command form: the `MOD` bits it does not list are all that can be wrong. -/
theorem DecodeCase.of_mask {mask : BitVec 8} {i : Instr} (hmem : (BitVec.ofNat 8 n, mask) ∈ assignedOpcodes)
    (hne : BitVec.ofNat 8 n ≠ 0x10)
    (hdec : decode w = if modField w &&& ~~~mask ≠ 0 then .error .reservedBits else .ok i)
    (henc : modField w &&& ~~~mask = 0 → encode i = commandWord (modField w) (BitVec.ofNat 8 n)) :
    DecodeCase w := by
  have hop := eq_ofNat_of_toNat_eq hop
  rw [← hop] at hmem hne henc
  have hassigned := opcodeAssigned_of_mem hmem
  by_cases hmod : modField w &&& ~~~mask = 0
  · have hwf := (wellFormedWord_iff w).mpr
      ⟨hhigh, hassigned, (modBitsListed_iff hmem).mpr hmod, extTypeKnown_of_ne hne⟩
    exact .command i hwf ((eq_commandWord hhigh).trans (henc hmod).symm) (by rw [hdec, if_neg (not_not.mpr hmod)])
  · refine .modBits hhigh hassigned ?_ (by rw [hdec, if_pos hmod])
    rwa [← Bool.not_eq_true, modBitsListed_iff hmem]

theorem DecodeCase.of_plain {i : Instr} (hmem : (BitVec.ofNat 8 n, 0x00) ∈ assignedOpcodes)
    (hne : BitVec.ofNat 8 n ≠ 0x10) (hdec : decode w = decodePlain (modField w) i)
    (henc : encode i = commandWord 0x00 (BitVec.ofNat 8 n)) : DecodeCase w := by
  refine .of_mask hhigh hop hmem hne (hdec.trans (decodePlain_eq _ i)) fun hmod => ?_
  rw [henc, ← hmod, and_not_zero_mask]

theorem DecodeCase.of_flags {i : Bool → Bool → Instr} (hmem : (BitVec.ofNat 8 n, 0x03) ∈ assignedOpcodes)
    (hne : BitVec.ofNat 8 n ≠ 0x10)
    (hdec : decode w = if (modField w).extractLsb' 2 6 ≠ 0#6 then .error .reservedBits
      else .ok (i ((modField w).getLsbD 0) ((modField w).getLsbD 1)))
    (henc : ∀ a b, encode (i a b) = commandWord (modFlags a b) (BitVec.ofNat 8 n)) : DecodeCase w := by
  simp only [flags_reserved_iff] at hdec
  exact .of_mask hhigh hop hmem hne hdec fun hmod => by rw [henc, ← eq_modFlags hmod]

theorem DecodeCase.of_type {i : BitVec 4 → Instr} (hmem : (BitVec.ofNat 8 n, 0x0F) ∈ assignedOpcodes)
    (hne : BitVec.ofNat 8 n ≠ 0x10)
    (hdec : decode w = if (modField w).extractLsb' 4 4 ≠ 0#4 then .error .reservedBits
      else .ok (i ((modField w).extractLsb' 0 4)))
    (henc : ∀ t, encode (i t) = commandWord (0#4 ++ t) (BitVec.ofNat 8 n)) : DecodeCase w := by
  simp only [type_reserved_iff] at hdec
  exact .of_mask hhigh hop hmem hne hdec fun hmod => by rw [henc, ← eq_type hmod]

end

theorem DecodeCase.of_extEnc {w : Word} (hhigh : highHalfZero w = true) (hop : opcodeField w = 0x10)
    (hdec : decode w = decodeExtEnc (modField w)) : DecodeCase w := by
  have hmem : (opcodeField w, 0x0F) ∈ assignedOpcodes := by rw [hop]; decide
  have hassigned := opcodeAssigned_of_mem hmem
  rcases decodeExtEnc_cases (modField w) with ⟨hmod, h⟩ | ⟨hmod, ⟨htype, h⟩ | ⟨htype, i, h, henc⟩⟩
  · refine .modBits hhigh hassigned ?_ (hdec.trans h)
    rwa [← Bool.not_eq_true, modBitsListed_iff hmem]
  · refine .extType hhigh hassigned ((modBitsListed_iff hmem).mpr hmod) ?_ (hdec.trans h)
    rwa [← Bool.not_eq_true, extTypeKnown_iff hop]
  · have hwf := (wellFormedWord_iff w).mpr
      ⟨hhigh, hassigned, (modBitsListed_iff hmem).mpr hmod, (extTypeKnown_iff hop).mpr htype⟩
    exact .command i hwf (by rw [eq_commandWord hhigh, hop, henc]) (hdec.trans h)

/-- The one place that goes through the decoder's opcodes. -/
theorem decode_cases (w : Word) : DecodeCase w := by
  cases hhigh : highHalfZero w with
  | false =>
    have hne : w.extractLsb' 16 16 ≠ 0#16 := by simpa [highHalfZero] using hhigh
    exact .highBits hhigh (by rw [decode, if_pos hne])
  | true =>
    have hdec := decode.eq_def w
    simp only [(highHalfZero_iff w).mp hhigh, ne_eq, not_true_eq_false, if_false] at hdec
    split at hdec
    case h_2 hop | h_3 hop => exact .of_flags hhigh hop (by decide) (by decide) hdec fun _ _ => rfl
    case h_4 hop => exact .of_extEnc hhigh (BitVec.eq_of_toNat_eq hop) hdec
    case h_5 hop => exact .of_type hhigh hop (by decide) (by decide) hdec fun _ => rfl
    case h_24 =>
      refine .unassigned hhigh ?_ hdec
      simp only [opcodeAssigned, assignedOpcodes, List.any_cons, List.any_nil, Bool.or_false,
        Bool.or_eq_false_iff, beq_eq_false_iff_ne, ne_eq, @eq_comm _ _ (opcodeField w)]
      and_intros <;> exact fun hop => absurd (congrArg BitVec.toNat hop) ‹_›
    all_goals exact .of_plain hhigh ‹_› (by decide) (by decide) hdec rfl

theorem decode_encode (i : Instr) : decode (encode i) = .ok i := by
  cases i with
  | frameBuild auth outerFec => cases auth <;> cases outerFec <;> rfl
  | frameParse decodeExt verify => cases decodeExt <;> cases verify <;> rfl
  | extEncRaw type => revert type; decide
  | _ => rfl

/-- Settles O1: by the encoder's cases, and by the decoder's. -/
theorem decodeInvertsEncode : Obligations.DecodeInvertsEncode := by
  intro w i
  refine ⟨fun h => ?_, fun h => h ▸ decode_encode i⟩
  cases decode_cases w with
  | command j hwf henc hdec =>
    cases hdec.symm.trans h
    exact henc
  | highBits _ hdec | unassigned _ _ hdec | modBits _ _ _ hdec | extType _ _ _ _ hdec => cases hdec.symm.trans h

/-! ### Words that are no command -/

theorem runCommand_of_error {w : Word} {e : CmdError} (h : decode w = .error e) (s : State) :
    runCommand w s = .next (abort s e) := by
  rw [runCommand, h]

theorem runCommand_of_ok {w : Word} {i : Instr} (h : decode w = .ok i) (s : State) :
    runCommand w s = exec i s := by
  rw [runCommand, h]

/-- Settles O2: check by check. -/
theorem decodeChecksInOrder : Obligations.DecodeChecksInOrder := by
  intro w s
  have aborts : ∀ {e : CmdError}, decode w = .error e → e.kind = .illegalCommand →
      ∃ t, runCommand w s = .next t ∧ t.code = 7 ∧ t.detail = e.detail := fun hdec hkind =>
    ⟨_, runCommand_of_error hdec s, by rw [abort_code, CmdError.code, hkind]; rfl, rfl⟩
  cases decode_cases w with
  | highBits hhigh hdec =>
    rw [if_pos hhigh]
    exact aborts hdec rfl
  | unassigned hhigh hop hdec =>
    simp only [hhigh, hop, Bool.true_eq_false, if_true, if_false]
    exact aborts hdec rfl
  | modBits hhigh hop hmod hdec =>
    simp only [hhigh, hop, hmod, Bool.true_eq_false, if_true, if_false]
    exact aborts hdec rfl
  | extType hhigh hop hmod htype hdec =>
    simp only [hhigh, hop, hmod, htype, Bool.true_eq_false, if_true, if_false]
    exact aborts hdec rfl
  | command i hwf henc hdec =>
    obtain ⟨hhigh, hop, hmod, htype⟩ := (wellFormedWord_iff w).mp hwf
    simp only [hhigh, hop, hmod, htype, Bool.true_eq_false, if_false]
    exact ⟨i, hdec, runCommand_of_ok hdec s⟩

/-- A word that is not well formed is an `IllegalCommand` (rules R112, R123). -/
theorem decode_of_not_wellFormed {w : Word} (h : ¬ wellFormedWord w = true) :
    ∃ e, decode w = .error e ∧ e.kind = .illegalCommand := by
  cases decode_cases w with
  | command i hwf => exact absurd hwf h
  | highBits _ hdec | unassigned _ _ hdec | modBits _ _ _ hdec | extType _ _ _ _ hdec => exact ⟨_, hdec, rfl⟩

/-- Settles O5: each of rule R123's encodings fails a check of decode, and the abort changes nothing else. -/
theorem illegalWordChangesOnlyOutcome : Obligations.IllegalWordChangesOnlyOutcome := by
  intro w s hillegal
  have hwf : ¬ wellFormedWord w = true := by
    rw [wellFormedWord_iff]
    rintro ⟨hhigh, hop, hmod, htype⟩
    rcases hillegal with h | h | h | ⟨h, hsix⟩
    · exact h ((highHalfZero_iff w).mp hhigh)
    · simp [hop] at h
    · simp [hmod] at h
    · have hlt := (extTypeKnown_iff h).mp htype
      have htype : w.extractLsb' 8 4 = (modField w).extractLsb' 0 4 := by
        apply BitVec.eq_of_getLsbD_eq
        intro k hk
        simp [modField, hk, show k < 8 by omega]
      rw [htype] at hsix
      bv_omega
  obtain ⟨e, hdec, hkind⟩ := decode_of_not_wellFormed hwf
  refine ⟨abort s e, runCommand_of_error hdec s, ?_, ?_, rfl, ⟨rfl, rfl, rfl, rfl⟩, ⟨rfl, rfl⟩, ⟨rfl, rfl⟩, rfl, rfl⟩
  · rw [abort_code, CmdError.code, hkind]
    rfl
  · rw [abort_sticky, stickyErrBit, hkind]
    rfl

/-! ### The opcode table -/

theorem wordInTable_encode (i : Instr) : wordInTable (encode i) = true := by
  cases i with
  | frameBuild auth outerFec => cases auth <;> cases outerFec <;> rfl
  | frameParse decodeExt verify => cases decodeExt <;> cases verify <;> rfl
  | extEncRaw type => revert type; decide
  | _ => rfl

/-- A row describes command words: its pattern is one, and its mask leaves out only `MOD` bits that the opcode lists. -/
def OpcodeRow.sound (r : OpcodeRow) : Bool :=
  wellFormedWord r.pattern && r.mask.extractLsb' 16 16 == 0xFFFF && opcodeField r.mask == 0xFF
    && assignedOpcodes.all (fun p => p.1 != opcodeField r.pattern || modField r.mask &&& ~~~p.2 == ~~~p.2)
    && (opcodeField r.pattern != 0x10 || modField r.mask == 0xFF)

theorem opcodeRows_sound : ∀ r ∈ opcodeRows, r.sound = true := by decide

/-- A word of the table passes every check, as its row's pattern does. -/
theorem wellFormedWord_of_holds {r : OpcodeRow} (hr : r.sound = true) {w : Word} (hw : w &&& r.mask = r.pattern) :
    wellFormedWord w = true := by
  have field : ∀ lo len, w.extractLsb' lo len &&& r.mask.extractLsb' lo len = r.pattern.extractLsb' lo len :=
    fun lo len => by rw [← BitVec.extractLsb'_and, hw]
  simp only [OpcodeRow.sound, Bool.and_eq_true, beq_iff_eq, List.all_eq_true, Bool.or_eq_true, bne_iff_ne] at hr
  obtain ⟨⟨⟨⟨hwf, hmhigh⟩, hmop⟩, hmmod⟩, hmtype⟩ := hr
  obtain ⟨hhigh, hop, hmod, htype⟩ := (wellFormedWord_iff _).mp hwf
  have fhigh : w.extractLsb' 16 16 = r.pattern.extractLsb' 16 16 := by
    rw [← field, hmhigh]
    exact BitVec.and_allOnes.symm
  have fop : opcodeField w = opcodeField r.pattern := by
    have h : opcodeField w &&& opcodeField r.mask = opcodeField r.pattern := field 0 8
    rw [← h, hmop]
    exact BitVec.and_allOnes.symm
  have fmod : modField w &&& modField r.mask = modField r.pattern := field 8 8
  obtain ⟨p, hp, hpop⟩ := List.any_eq_true.mp hop
  have hpop : opcodeField w = p.1 := fop.trans (beq_iff_eq.mp hpop).symm
  have hpmem : (opcodeField w, p.2) ∈ assignedOpcodes := by rwa [hpop]
  rw [wellFormedWord_iff]
  refine ⟨?_, opcodeAssigned_of_mem hpmem, ?_, ?_⟩
  · rw [highHalfZero_iff, fhigh]
    exact (highHalfZero_iff _).mp hhigh
  · rw [modBitsListed_iff hpmem]
    have hpmem' : (opcodeField r.pattern, p.2) ∈ assignedOpcodes := fop ▸ hpmem
    calc modField w &&& ~~~p.2
      _ = modField w &&& modField r.mask &&& ~~~p.2 := by
        rw [BitVec.and_assoc, (hmmod p hp).resolve_left (not_not.mpr (hpop.symm.trans fop))]
      _ = 0 := by rw [fmod, (modBitsListed_iff hpmem').mp hmod]
  · rcases hmtype with hne | hmask
    · exact extTypeKnown_of_ne (fop ▸ hne)
    · have fmod : modField w = modField r.pattern := by
        rw [← fmod, hmask]
        exact BitVec.and_allOnes.symm
      rwa [extTypeKnown, fop, fmod]

theorem decode_of_wellFormed {w : Word} (h : wellFormedWord w = true) : ∃ i, decode w = .ok i := by
  obtain ⟨hhigh', hop', hmod', htype'⟩ := (wellFormedWord_iff w).mp h
  cases decode_cases w with
  | highBits hhigh => simp [hhigh] at hhigh'
  | unassigned _ hop => simp [hop] at hop'
  | modBits _ _ hmod => simp [hmod] at hmod'
  | extType _ _ _ htype => simp [htype] at htype'
  | command i _ _ hdec => exact ⟨i, hdec⟩

/-- Settles O3: a decoded word is a command's, which has its row; a row's word passes the checks of decode. -/
theorem decoderAcceptsTheTable : Obligations.DecoderAcceptsTheTable := by
  intro w
  constructor
  · rintro ⟨i, h⟩
    rw [(decodeInvertsEncode w i).mp h]
    exact wordInTable_encode i
  · intro h
    obtain ⟨r, hr, hw⟩ := List.any_eq_true.mp h
    exact decode_of_wellFormed (wellFormedWord_of_holds (opcodeRows_sound r hr) (by simpa [OpcodeRow.holds] using hw))

/-- Settles O4: each word is evaluated. -/
theorem exampleWordsDecode : Obligations.ExampleWordsDecode := by
  unfold Obligations.ExampleWordsDecode
  decide

end Sys2Proof

/-! PROOFS. The Golay encoders (rules R121, R222, R227, R230, R232, R235) and the commands of one extension record
(rules R116, R119, R120, R182..R193): the codeword's bits and bytes, and a record's bytes and fields. -/

namespace Sys2Proof.Machine

/-! ### Commands that only report -/

/-- A command that names no component and succeeds: its results, and nothing else beside `STATUS` (rule R344). -/
theorem exec_of_setRes {i : Instr} {s : State} {res : RegFile} (hi : writtenBy i = .nothing)
    (hok : ruleOf i s = .ok (s.setRes res)) :
    ∃ t, exec i s = .next t ∧ completed s t res
      ∧ keptPorts s t ∧ keptKey s t ∧ keptTable s t ∧ keptMac s t ∧ keptBuf s t := by
  have hexec : exec i s = .next (succeed (s.setRes res)) := by
    rw [exec_eq, startOf_eq_self (by simp [hi]), finish_of_ok hok]
  have kept := exec_keptBut hexec
  rw [hi] at kept
  exact ⟨_, hexec, ⟨rfl, rfl, rfl, rfl⟩,
    kept.ports, kept.key nofun, kept.table nofun, kept.mac nofun, kept.buf nofun⟩

/-! ### Codewords -/

/-- The data half of a codeword (rule R222). -/
theorem golayEncode_data (B : List (BitVec 12)) (d : BitVec 12) : (golayEncode B d).extractLsb' 0 12 = d := by
  rw [golayEncode]
  exact BitVec.extractLsb'_append_eq_right

/-- The parity half of a codeword (rules R221, R222). -/
theorem golayEncode_parity {B : List (BitVec 12)} (hB : B.length = 12) (d : BitVec 12) {i : Nat} (hi : i < 12) :
    (golayEncode B d).getLsbD (23 - i) = parity (golayRow B i &&& d) := by
  have hleft : ¬ 23 - i < 12 := by omega
  rw [golayEncode, BitVec.getLsbD_append, if_neg hleft, show 23 - i - 12 = 11 - i by omega, matVec_getLsbD hB d hi]
  rfl

theorem golayB_length (b : Build) : b.golayB.length = 12 :=
  ((legalGolayB_iff _).mp b.golayB_legal).1

theorem triple_eq (c : BitVec 24) : triple c = [c.extractLsb' 16 8, c.extractLsb' 8 8, c.extractLsb' 0 8] := by
  have field : ∀ lo, lo + 8 ≤ 24 → (c.setWidth 32).extractLsb' lo 8 = c.extractLsb' lo 8 := fun lo hlo => by
    apply BitVec.eq_of_getLsbD_eq
    intro k hk
    simp [show lo + k < 32 by omega]
  rw [triple, bytesOfWord_three, field 16 (by omega), field 8 (by omega), field 0 (by omega)]

/-- Settles O30: `RES0` is the codeword, whose halves are known. -/
theorem golayEncCompletes : Obligations.GolayEncCompletes := by
  intro s
  obtain ⟨t, hexec, ⟨hcode, hdetail, hsticky, hres⟩, kept⟩ := exec_of_setRes (i := .golayEnc) (s := s) rfl rfl
  let c := golayEncode s.env.build.golayB (data12Of s.arg.r0)
  have hr0 : t.res.r0 = c.setWidth 32 := by rw [hres]
  have hbit : ∀ k < 24, t.res.r0.getLsbD k = c.getLsbD k := fun k hk => by
    rw [hr0, BitVec.getLsbD_setWidth, decide_eq_true (by omega), Bool.true_and]
  refine ⟨t, hexec, ⟨hcode, hdetail, hsticky, by rw [hr0]; exact hres⟩, ?data, fun i hi => ?parity, ?above, kept⟩
  case data =>
    refine Eq.trans (BitVec.eq_of_getLsbD_eq fun k hk => ?_) (golayEncode_data s.env.build.golayB _)
    simp only [BitVec.getLsbD_extractLsb', Nat.zero_add, hbit k (by omega)]
    rfl
  case parity =>
    rw [hbit _ (by omega)]
    exact golayEncode_parity (golayB_length _) _ hi
  case above =>
    rw [hr0, BitVec.toNat_setWidth_of_le (by decide)]
    exact c.isLt

/-- Settles O31: both rules end by writing the triple. -/
theorem golayStoresTriple : Obligations.GolayStoresTriple := by
  intro s i hi hin c
  have stores : ∀ {i : Instr}, writtenBy i = .buf → ruleOf i s = .ok (writeTriple s (offsetOf s.arg.r1) c) →
      ∃ t, exec i s = .next t ∧ completed s t { r0 := c.setWidth 32 }
        ∧ storedAt s t (offsetOf s.arg.r1) [c.extractLsb' 16 8, c.extractLsb' 8 8, c.extractLsb' 0 8]
        ∧ keptPorts s t ∧ keptKey s t ∧ keptTable s t ∧ keptMac s t := fun hw hok => by
    rw [← triple_eq]
    exact exec_of_memWrite hw hok
  rcases hi with rfl | ⟨rfl, hviterbi, hfec⟩
  · exact stores rfl (ruleGolayEncBytes_ok_iff.mpr ⟨hin, rfl⟩)
  · refine stores rfl (rulePrefixEnc_ok_iff.mpr ⟨hin, ?_, ?_, rfl⟩)
    · simpa [data12Of] using hviterbi
    · simpa [data12Of] using hfec

/-! ### The bytes of a record -/

/-- The big-endian bytes of a 16-bit operand are the low bytes of its register (rules R10, R114). -/
theorem bytesOfWord_lowHalf (w : Word) :
    bytesOfWord 2 ((lowHalf w).setWidth 32) = [w.extractLsb' 8 8, w.extractLsb' 0 8] := by
  have field : ∀ lo, lo + 8 ≤ 16 → ((lowHalf w).setWidth 32).extractLsb' lo 8 = w.extractLsb' lo 8 := fun lo hlo => by
    apply BitVec.eq_of_getLsbD_eq
    intro k hk
    simp [lowHalf, hk, show lo + k < 16 by omega, show lo + k < 32 by omega]
  rw [bytesOfWord_two, field 8 (by omega), field 0 (by omega)]

/-- An `EXT_ENC` whose record fits stores it (rule R182). -/
theorem exec_of_ruleExtEnc {i : Instr} {rec : State → ExtRecord} {s : State} (hi : writtenBy i = .buf)
    (hrule : ruleOf i = ruleExtEnc rec) {bytes : List Byte} (hbytes : (rec s).encode = bytes)
    (hin : offsetOf s.arg.r2 + bytes.length ≤ s.env.build.bufBytes) :
    ∃ t, exec i s = .next t ∧ completed s t { r0 := countWord bytes.length }
      ∧ storedAt s t (offsetOf s.arg.r2) bytes ∧ keptPorts s t ∧ keptKey s t ∧ keptTable s t ∧ keptMac s t := by
  subst hbytes
  exact exec_of_memWrite hi (by rw [hrule, ruleExtEnc_ok_iff]; exact ⟨hin, rfl⟩)

/-- Settles O36: the record of each command's operands, with its header byte computed. -/
theorem extEncWritesItsRecord : Obligations.ExtEncWritesItsRecord := by
  intro s a b dst writes
  refine ⟨exec_of_ruleExtEnc rfl rfl ?_, exec_of_ruleExtEnc rfl rfl ?_,
    exec_of_ruleExtEnc rfl rfl ?_, exec_of_ruleExtEnc rfl rfl ?_,
    exec_of_ruleExtEnc rfl rfl ?_, exec_of_ruleExtEnc rfl rfl ?_⟩
  all_goals
    simp only [arqSequenceArgs, arqRequestArgs, arqControlArgs, arqHandshakeArgs, tddControlArgs,
      hmacSequenceResetArgs, ExtRecord.encode, ExtRecord.data, ExtRecord.type, bytesOfWord_lowHalf, bytesOfWord_four,
      List.length_cons, List.length_nil, List.cons_append, List.nil_append]
    exact congrArg (· :: _) (by decide)

/-! ### The fields of a record -/

/-- A big-endian 16-bit field, as a result word (rule R116). -/
theorem halfword_setWidth (a b : Byte) : ((wordOfBytes [a, b]).setWidth 16).setWidth 32 = 0#16 ++ a ++ b := by
  rw [wordOfBytes_two]
  apply BitVec.eq_of_toNat_eq
  simp only [BitVec.toNat_setWidth, toNat_append_fields, BitVec.toNat_ofNat]
  omega

theorem header_append (h : Byte) : BitVec.ofNat 4 (h.extractLsb' 4 4).toNat ++ h.extractLsb' 0 4 = h := by
  rw [BitVec.ofNat_toNat, BitVec.setWidth_eq, BitVec.extractLsb'_append_extractLsb'_eq_extractLsb' (by decide)]
  exact BitVec.extractLsb'_eq_self

theorem recordOf_type (t : BitVec 4) (d : List Byte) : (recordOf t d).type = t := by
  unfold recordOf
  split <;> first
    | rfl
    | exact (eq_ofNat_of_toNat_eq ‹_›).symm

theorem dataLen_eq (t : BitVec 4) : dataLen t = knownDataLen t.toNat := by
  revert t; decide

/-- A record has the data length of its header (rules R120, R191). -/
theorem recordOf_length {t : BitVec 4} {d : List Byte} (h : t.toNat ≤ 5 → d.length = knownDataLen t.toNat) :
    (recordOf t d).data.length = d.length := by
  unfold recordOf
  split
  case h_7 => rfl
  all_goals
    rename_i htype
    rw [h (by omega), htype]
    rfl

theorem recordOf_unknown {t : BitVec 4} (ht : 5 < t.toNat) (d : List Byte) : recordOf t d = .opaqueRecord t d := by
  unfold recordOf
  split
  case h_7 => rfl
  all_goals omega

/-- The header word of a decoded record (rule R116): its header byte under `known` and the data offset. -/
theorem words_recordOf_w0 {h : Byte} {d : List Byte} (off : Nat) (hlen : d.length = (h.extractLsb' 4 4).toNat)
    (hknown : (h.extractLsb' 0 4).toNat ≤ 5 → d.length = knownDataLen (h.extractLsb' 0 4).toNat) :
    ((recordOf (h.extractLsb' 0 4) d).words off).w0
      = BitVec.ofNat 16 (off + 1) ++ 0#7 ++ BitVec.ofBool (decide ((h.extractLsb' 0 4).toNat ≤ 5)) ++ h := by
  rw [ExtRecord.words, recordOf_type, recordOf_length hknown, hlen]
  apply BitVec.eq_of_toNat_eq
  have hh := congrArg BitVec.toNat (header_append h)
  simp only [toNat_append_fields] at hh
  simp only [typeKnown, toNat_append_fields]
  omega

/-- The two fields that the data bytes of a record make, big-endian, by its type (rules R116, R120). -/
def fieldsOfData (type : Nat) (d : Nat → Byte) : Word × Word :=
  match type with
  | 0 => ((d 0).setWidth 32, 0)
  | 1 => ((d 0).setWidth 32, 0#16 ++ d 1 ++ d 2)
  | 2 => ((d 0).setWidth 32, (d 1).setWidth 32)
  | 3 => ((d 0).setWidth 32, d 1 ++ d 2 ++ d 3 ++ d 4)
  | 4 => (0#16 ++ d 0 ++ d 1, 0#16 ++ d 2 ++ d 3)
  | 5 => (0#16 ++ d 0 ++ d 1, 0)
  | _ => (0, 0)

/-- The fields of a decoded record are those of its data bytes (rules R191, R192). -/
theorem recordOf_fields {t : BitVec 4} {s : State} {off len : Nat} (hlen : t.toNat ≤ 5 → len = knownDataLen t.toNat) :
    fieldsOfData t.toNat (fun i => bufByte s (off + i))
      = ((recordOf t (memRead s off len)).fieldA, (recordOf t (memRead s off len)).fieldB) := by
  unfold fieldsOfData
  split
  case h_7 =>
    have hunknown : 5 < t.toNat := by
      simp only [imp_false] at *
      omega
    rw [recordOf_unknown hunknown]
    rfl
  all_goals
    rename_i htype
    rw [htype] at hlen
    rw [hlen (by decide), eq_ofNat_of_toNat_eq htype]
  case h_1 | h_3 => rfl
  case h_2 => exact Prod.ext rfl (halfword_setWidth _ _).symm
  case h_4 => exact Prod.ext rfl (wordOfBytes_four _ _ _ _).symm
  case h_5 => exact Prod.ext (halfword_setWidth _ _).symm (halfword_setWidth _ _).symm
  case h_6 => exact Prod.ext (halfword_setWidth _ _).symm rfl

/-- Settles O38: the record that `DecodeRecord` gives, word by word. -/
theorem extDecReportsTheRecord : Obligations.ExtDecReportsTheRecord := by
  intro s bo bn h len type d fields hin hwhole hknown
  let r := recordOf (h.extractLsb' 0 4) (memRead s (bo + 1) len)
  have hw0 : (r.words bo).w0 = _ := words_recordOf_w0 bo (memRead_length ..) (by rwa [memRead_length])
  have hfields : fields = (r.fieldA, r.fieldB) := Eq.trans (by rfl) (recordOf_fields hknown)
  have hdec : decodeRecord s bo bn = .ok (r, 1 + len) :=
    decodeRecord_ok_iff.mpr ⟨hwhole, fun hk => (hknown (of_decide_eq_true hk)).trans (dataLen_eq _).symm, rfl, rfl⟩
  rw [hfields, ← hw0]
  exact exec_of_setRes (i := .extDec) rfl (ruleExtDec_ok_iff.mpr ⟨hin, r, _, hdec, rfl⟩)

end Sys2Proof.Machine

/-! PROOFS. The frame codec (rules R115, R117, R142..R153): the parts of a built frame, one by one, the records of a
chain, and the results of a parse. -/

namespace Sys2Proof.Machine

/-! ### Strings in `BUF` -/

/-- `BUF` has the string at an offset. -/
def Holds (s : State) (off : Nat) (bytes : List Byte) : Prop :=
  memRead s off bytes.length = bytes

theorem holds_append {s : State} {off : Nat} {xs ys : List Byte} :
    Holds s off (xs ++ ys) ↔ Holds s off xs ∧ Holds s (off + xs.length) ys := by
  rw [Holds, List.length_append, memRead_append]
  exact ⟨fun h => List.append_inj h (memRead_length ..), fun ⟨hxs, hys⟩ => by rw [hxs, hys]⟩

theorem holds_cons {s : State} {off : Nat} {x : Byte} {xs : List Byte} :
    Holds s off (x :: xs) ↔ bufByte s off = x ∧ Holds s (off + 1) xs := by
  rw [← List.singleton_append, holds_append, Holds, List.length_singleton, memRead_one, List.singleton_inj]

/-! ### The parts of a frame -/

/-- One bit of a register, as a field (rule R114). -/
theorem extractLsb'_one {w : Nat} (x : BitVec w) (i : Nat) : x.extractLsb' i 1 = BitVec.ofBool (x.getLsbD i) := by
  apply BitVec.eq_of_getLsbD_eq
  intro k hk
  simp [show k = 0 by omega]

/-- The canonical layout, part by part (rule R117). -/
theorem holds_frameBody {s : State} {dst : Nat} {ident ext payload : List Byte} {f : FrameArgs} {auth : Bool}
    {hi lo : Byte} (hseq : bytesOfWord 2 (f.sequence.setWidth 32) = [hi, lo]) :
    Holds s dst (frameBody ident ext payload f auth) ↔
      bufByte s dst = 12#5 ++ BitVec.ofNat 3 ident.length
        ∧ Holds s (dst + 1) ident
        ∧ bufByte s (dst + 1 + ident.length)
          = f.fragment ++ BitVec.ofBool (decide (0 < payload.length)) ++ BitVec.ofBool f.arqOn
            ++ BitVec.ofBool auth ++ f.vc
        ∧ bufByte s (dst + 2 + ident.length) = BitVec.ofNat 8 ext.length
        ∧ bufByte s (dst + 3 + ident.length) = hi
        ∧ bufByte s (dst + 4 + ident.length) = lo
        ∧ Holds s (dst + 5 + ident.length) ext
        ∧ Holds s (dst + 5 + ident.length + ext.length) payload := by
  have offset : ∀ k, dst + k + ident.length + 1 = dst + (k + 1) + ident.length := fun k => by omega
  simp only [frameBody, hseq, List.append_assoc, List.cons_append, List.nil_append,
    holds_cons, holds_append, offset, Nat.reduceAdd]
  rfl

/-- Settles O42: the rule stores the frame, and each part stands at its offset. -/
theorem frameBuildWritesTheFrame : Obligations.FrameBuildWritesTheFrame := by
  intro s auth outerFec io il po pl eo el dst size body total hident hpayload hext hkey hil hil' hel hvc hfec hdst
  have hchecks : frameBuildChecks auth outerFec s = .ok () :=
    frameBuildChecks_ok_iff.mpr ⟨hident, hpayload, hext, hkey, Nat.ne_of_gt hil, hil', hel, hvc, hfec, hdst⟩
  have hok : ruleFrameBuild auth outerFec s = .ok
      ((memWrite s dst (builtFrame auth s)).setRes { r0 := countWord (frameTotal auth s) }) :=
    ruleFrameBuild_ok_iff.mpr ⟨hchecks, rfl⟩
  obtain ⟨t, hexec, hend, ⟨hframe, houtside⟩, kept⟩ := exec_of_memWrite (i := .frameBuild auth outerFec) rfl hok
  let frame := frameBody (memRead s io il) (memRead s eo el) (memRead s po pl) (frameArgsOf s.arg.r3) auth
  have hlen : frame.length = body := by simp [frame, frameBody_length, Config.fixedHeaderBytes, body]
  have hparts : Holds t dst frame ∧ (auth = true → Holds t (dst + body) (digest s.env.build s.key frame)) := by
    have hframe : Holds t dst (builtFrame auth s) := hframe
    rw [builtFrame] at hframe
    cases auth with
    | false => exact ⟨hframe, nofun⟩
    | true =>
      obtain ⟨hbody, htrailer⟩ := holds_append.mp hframe
      exact ⟨hbody, fun _ => hlen ▸ htrailer⟩
  obtain ⟨hbody, htrailer⟩ := hparts
  have hbodyRead : memRead t dst body = frame := by rw [← hlen]; exact hbody
  rw [builtFrame_length] at houtside
  have hseq : bytesOfWord 2 ((frameArgsOf s.arg.r3).sequence.setWidth 32)
      = [s.arg.r3.extractLsb' 8 8, s.arg.r3.extractLsb' 0 8] := bytesOfWord_lowHalf _
  obtain ⟨hfirst, hid, hflags, hextLen, hhi, hlo, hexts, hpay⟩ := (holds_frameBody hseq).mp hbody
  simp only [Holds, memRead_length] at hfirst hid hflags hextLen hhi hlo hexts hpay
  refine ⟨t, hexec, hend, hfirst, hid, ?_, hextLen, hhi, hlo, hexts, hpay, fun h => ?_, houtside, kept⟩
  · rw [hflags, extractLsb'_one]
    rfl
  · have h := htrailer h
    rw [Holds, digest_length] at h
    rw [hbodyRead]
    exact h

/-! ### Chains of records -/

theorem chainWords_length (off : Nat) (rs : List ExtRecord) : (chainWords off rs).length = rs.length := by
  induction rs generalizing off with
  | nil => rfl
  | cons r rs ih => rw [chainWords, List.length_cons, List.length_cons, ih]

/-- The loop of `DecodeAll` on a chain of encoded records (rules R119, R194). -/
theorem decodeRecords_chain {s : State} {rs : List ExtRecord} (hlegal : ∀ r ∈ rs, r.wireLegal = true) :
    ∀ {fuel off left : Nat}, memRead s off left = chainBytes rs → left ≤ fuel →
      decodeRecords s fuel off left = .ok (chainWords off rs) := by
  induction rs with
  | nil =>
    intro fuel off left hbytes _
    have hleft : left = 0 := by simpa [chainBytes] using congrArg List.length hbytes
    subst hleft
    cases fuel <;> rfl
  | cons r rs ih =>
    intro fuel off left hbytes hfuel
    obtain ⟨hr, hrs⟩ := List.forall_mem_cons.mp hlegal
    have hsize : r.encode.length = 1 + r.data.length := by rw [ExtRecord.encode, List.length_cons, Nat.add_comm]
    have hchain : chainBytes (r :: rs) = r.encode ++ chainBytes rs := List.flatMap_cons
    have hleft : left = r.encode.length + (chainBytes rs).length := by
      simpa [hchain] using congrArg List.length hbytes
    have hholds : Holds s off (r.encode ++ chainBytes rs) := by
      rw [Holds, List.length_append, ← hleft, hbytes, hchain]
    obtain ⟨hhead, htail⟩ := holds_append.mp hholds
    obtain ⟨fuel, rfl⟩ : ∃ n, fuel = n + 1 := ⟨fuel - 1, by omega⟩
    have hrest := ih hrs (fuel := fuel) htail (by omega)
    have hrest' : left - r.encode.length = (chainBytes rs).length := by omega
    rw [decodeRecords, if_neg (by omega), decodeRecord_encode hr hhead (by omega)]
    simp only [bind, Except.bind, hrest', hrest]
    rw [chainWords, hsize, ← Nat.add_assoc]

/-- `DecodeAll` of a chain gives its records in order (rule R194). -/
theorem decodeAll_chain {s : State} {rs : List ExtRecord} {off n : Nat} (hlegal : ∀ r ∈ rs, r.wireLegal = true)
    (hbytes : memRead s off n = chainBytes rs) : decodeAll s off n = .ok (chainWords off rs) :=
  decodeRecords_chain hlegal hbytes (Nat.le_refl n)

/-! ### Commands that fill the table -/

/-- A table command that succeeds: the table it was given, and nothing else beside `STATUS` and `RES`
(rules R152, R195, R344). -/
theorem exec_of_setExtTab {i : Instr} {s : State} {recs : List ExtWords} {res : RegFile} (hi : writtenBy i = .table)
    (hok : ruleOf i (clearExtTab s) = .ok ((s.setExtTab recs).setRes res)) (hlen : recs.length ≤ 255) :
    ∃ t, exec i s = .next t ∧ completed s t res ∧ t.extTab = recs ∧ t.extCount.toNat = recs.length
      ∧ keptPorts s t ∧ keptKey s t ∧ keptMac s t ∧ keptBuf s t := by
  have hstart : startOf i s = clearExtTab s := by
    rcases writtenBy_eq_table.mp hi with ⟨dx, vf, rfl⟩ | rfl <;> rfl
  have hexec : exec i s = .next (succeed ((s.setExtTab recs).setRes res)) := by
    rw [exec_eq, hstart, finish_of_ok hok]
  have kept := exec_keptBut hexec
  rw [hi] at kept
  have hcount : (BitVec.ofNat 9 recs.length).toNat = recs.length := by
    rw [BitVec.toNat_ofNat, Nat.mod_eq_of_lt (by omega)]
  exact ⟨_, hexec, ⟨rfl, rfl, rfl, rfl⟩, rfl, hcount, kept.ports, kept.key nofun, kept.mac nofun, kept.buf nofun⟩

/-! ### The header of a frame -/

/-- A field joined above the fields below it (rule R115). -/
theorem setWidth_or_shiftLeft {m n : Nat} (g : Nat) (x : BitVec m) (y : BitVec n) (h : m + g + n ≤ 32) :
    x.setWidth 32 ||| (y.setWidth 32 <<< (m + g)) = (y ++ (0#g ++ x)).setWidth 32 := by
  apply BitVec.eq_of_getLsbD_eq
  intro i hi
  simp only [BitVec.getLsbD_or, BitVec.getLsbD_shiftLeft, BitVec.getLsbD_setWidth, BitVec.getLsbD_append,
    BitVec.getLsbD_zero, hi, decide_true, Bool.true_and]
  by_cases hx : i < m
  · simp [hx, show i < g + m by omega, show i < m + g by omega]
  · have hx' : x.getLsbD i = false := BitVec.getLsbD_of_ge x i (by omega)
    by_cases hgap : i < m + g
    · simp [hx, hx', hgap, show i < g + m by omega]
    · simp [hx', hgap, show i - (m + g) < 32 by omega, Nat.add_comm g m]

/-- The header word, field by field (rule R115). -/
theorem frameHeaderWord_eq (h : FrameHeader) (verified decoded : Bool) :
    frameHeaderWord h verified decoded
      = 0#2 ++ BitVec.ofBool decoded ++ BitVec.ofBool verified ++ 0#1 ++ h.vc ++ 0#3
          ++ BitVec.ofBool h.authenticated ++ BitVec.ofBool h.arqOn ++ BitVec.ofBool h.hasPayload ++ h.fragment ++ 0#5
          ++ h.identLen ++ 0#3 ++ h.version := by
  rw [frameHeaderWord]
  simp only [flagBit]
  rw [setWidth_or_shiftLeft 3 h.version h.identLen (by decide)]
  rw [setWidth_or_shiftLeft 5 _ h.fragment (by decide)]
  rw [setWidth_or_shiftLeft 0 _ (BitVec.ofBool h.hasPayload) (by decide)]
  rw [setWidth_or_shiftLeft 0 _ (BitVec.ofBool h.arqOn) (by decide)]
  rw [setWidth_or_shiftLeft 0 _ (BitVec.ofBool h.authenticated) (by decide)]
  rw [setWidth_or_shiftLeft 3 _ h.vc (by decide)]
  rw [setWidth_or_shiftLeft 1 _ (BitVec.ofBool verified) (by decide)]
  rw [setWidth_or_shiftLeft 0 _ (BitVec.ofBool decoded) (by decide)]
  apply BitVec.eq_of_toNat_eq
  simp only [toNat_append_fields, BitVec.toNat_setWidth]
  simp only [BitVec.toNat_ofNat, Nat.zero_mod, Nat.reduceAdd]
  omega

/-- The length word, field by field (rule R115). -/
theorem lengthWord_eq (el hi lo : Byte) :
    (hi ++ lo).setWidth 32 ||| (el.setWidth 32 <<< 16) = 0#8 ++ el ++ hi ++ lo := by
  rw [setWidth_or_shiftLeft 0 (hi ++ lo) el (by decide)]
  apply BitVec.eq_of_toNat_eq
  simp only [toNat_append_fields, BitVec.toNat_setWidth]
  simp only [BitVec.toNat_ofNat, Nat.zero_mod, Nat.reduceAdd]
  omega

/-- The header of the frame of `n` bytes at `fo`, from the bytes of `BUF` (rules R117, R142, R150). -/
def headerAt (s : State) (fo n : Nat) : FrameHeader :=
  let il := ((bufByte s fo).extractLsb' 0 3).toNat
  let f := bufByte s (fo + (1 + il))
  let el := bufByte s (fo + (2 + il))
  { version := (bufByte s fo).extractLsb' 3 5
    identLen := (bufByte s fo).extractLsb' 0 3
    fragment := f.extractLsb' 6 2
    hasPayload := f.getLsbD 5
    arqOn := f.getLsbD 4
    authenticated := f.getLsbD 3
    vc := f.extractLsb' 0 3
    extensionLen := el
    sequence := bufByte s (fo + (3 + il)) ++ bufByte s (fo + (4 + il))
    payloadLen := n - (5 + il + el.toNat + trailerLen s.env.build (f.getLsbD 3)) }

theorem payloadLen_toNat (b : Build) (n il el : Nat) (au : Bool) :
    (payloadLen b n il el au).toNat = n - (5 + il + el + trailerLen b au) := by
  simp only [payloadLen, Config.fixedHeaderBytes]
  omega

theorem payloadLen_nonneg {b : Build} {n il el : Nat} {au : Bool} (h : 5 + il + el + trailerLen b au ≤ n) :
    0 ≤ payloadLen b n il el au := by
  simp only [payloadLen, Config.fixedHeaderBytes]
  omega

/-- A frame that holds its fixed header has its header fields in `BUF` (rule R117). -/
theorem headerFields_memRead {s : State} {fo n : Nat} (hn : 5 + ((bufByte s fo).extractLsb' 0 3).toNat ≤ n) :
    headerFields s.env.build (memRead s fo n) = headerAt s fo n := by
  have hfirst : (memRead s fo n).getD 0 0 = bufByte s fo := memRead_getD s fo n 0 (by omega)
  simp only [headerFields, hfirst, memRead_length, payloadLen_toNat]
  rw [memRead_getD s fo n _ (by omega), memRead_getD s fo n _ (by omega), memRead_getD s fo n _ (by omega),
    memRead_getD s fo n _ (by omega)]
  rfl

/-- Settles O43. -/
theorem frameParseReportsTheFrame : Obligations.FrameParseReportsTheFrame := by
  intro s dx vf rs fo n b il f el au ta pl hin hkey hn hversion hil hsize hflag htrailer hrecs
  have hfixed : 5 + il ≤ n := by omega
  have hheader : frameHeader vf (clearExtTab s) = .ok (headerAt s fo n) :=
    frameHeader_ok_iff.mpr ⟨hin, hkey, hn, (headerFields_memRead hfixed).symm, hversion, hil, hfixed,
      payloadLen_nonneg hsize, hflag⟩
  have hverified : frameVerified vf (headerAt s fo n) (clearExtTab s) = .ok (au && vf) := by
    refine frameVerified_ok_iff.mpr ⟨fun hau hvf => trailerMatches_iff.mpr ?_, rfl⟩
    have hta : ta = s.env.build.T := if_pos hau
    have h := htrailer hau hvf
    rw [hta] at h
    exact h
  have hrecords : frameRecords dx (headerAt s fo n) (clearExtTab s) = .ok (chainWords (fo + 5 + il) rs) := by
    cases dx with
    | false =>
      have hrs : rs = [] := hrecs
      rw [hrs]
      rfl
    | true =>
      obtain ⟨hlegal, hchain⟩ := hrecs
      exact decodeAll_chain (s := clearExtTab s) hlegal hchain
  obtain ⟨hlen, -⟩ := frameRecords_ok hrecords
  have hok : ruleFrameParse dx vf (clearExtTab s) = .ok ((s.setExtTab (chainWords (fo + 5 + il) rs)).setRes
      (frameResults s.env.build fo n (headerAt s fo n) (au && vf) dx (chainWords (fo + 5 + il) rs).length)) :=
    ruleFrameParse_ok_iff.mpr ⟨_, _, _, hheader, hverified, hrecords, rfl⟩
  obtain ⟨t, hexec, hend, htab, hcount, kept⟩ := exec_of_setExtTab (i := .frameParse dx vf) rfl hok hlen
  rw [chainWords_length] at hcount hend
  have hversion : (headerAt s fo n).version = 12#5 := hversion
  have hlengths : (headerAt s fo n).sequence.setWidth 32 ||| ((headerAt s fo n).extensionLen.setWidth 32 <<< 16)
      = 0#8 ++ b (2 + il) ++ b (3 + il) ++ b (4 + il) := lengthWord_eq _ _ _
  rw [frameResults, frameHeaderWord_eq, hversion, hlengths] at hend
  rw [extractLsb'_one f 4, extractLsb'_one f 5]
  exact ⟨t, hexec, hend, htab, hcount, kept⟩

end Sys2Proof.Machine

/-! PROOFS. The failing checks of the frame commands and of a record, in order (rules R145, R150, R191, R346): each
rule's checks report as its list of failures does. Then what a parse makes of the table (rules R152, R194). -/

namespace Sys2Proof.Machine

/-! ### Checks in order -/

/-- A check and what follows report as a list of failures does: its first entry says when the check fails, and its
rest what follows reports (rule R346). -/
theorem errorOf_require_bind {α : Type} {c b : Bool} {e : CmdError} {k : Unit → Except CmdError α}
    {rest : List (Bool × CmdError)} (hc : c = !b) (hrest : b = false → errorOf (k ()) = firstFailure rest) :
    errorOf (require c e >>= k) = firstFailure ((b, e) :: rest) := by
  subst hc
  cases b with
  | false => exact hrest rfl
  | true => rfl

/-- The last check reports as a list of one failure does. -/
theorem errorOf_require {c b : Bool} {e : CmdError} (hc : c = !b) :
    errorOf (require c e) = firstFailure [(b, e)] := by
  subst hc
  cases b <;> rfl

theorem errorOf_eq_some_iff {α : Type} {x : Except CmdError α} {e : CmdError} :
    errorOf x = some e ↔ x = .error e := by
  cases x <;> simp [errorOf]

theorem errorOf_eq_none_iff {α : Type} {x : Except CmdError α} : errorOf x = none ↔ ∃ a, x = .ok a := by
  cases x <;> simp [errorOf]

theorem decide_le_eq (m n : Nat) : decide (m ≤ n) = !decide (n < m) := by
  rw [← decide_not]
  exact decide_eq_decide.mpr Nat.not_lt.symm

theorem inBounds_eq (s : State) (off n : Nat) : inBounds s off n = !decide (s.env.build.bufBytes < off + n) :=
  decide_le_eq _ _

/-- A command whose rule fails reports the rule's error (rule R345). -/
theorem raises_of_error {i : Instr} {s : State} {e : CmdError} (h : ruleOf i (startOf i s) = .error e) :
    raises i s e := by
  refine ⟨abort (startOf i s) e, exec_eq_next.mpr (finish_of_error h), rfl, rfl, ?_, rfl⟩
  rcases startOf_cases i s with hs | hs <;> rw [hs] <;> rfl

/-- A table command that fails leaves the table empty (rules R152, R195, R345(d)). -/
theorem exec_of_table_error {i : Instr} {s : State} {e : CmdError} (hi : writtenBy i = .table)
    (h : ruleOf i (clearExtTab s) = .error e) :
    ∃ t, exec i s = .next t ∧ failed s t e ∧ t.extTab = [] ∧ t.extCount = 0 := by
  have hstart : startOf i s = clearExtTab s := by
    rcases writtenBy_eq_table.mp hi with ⟨dx, vf, rfl⟩ | rfl <;> rfl
  exact ⟨abort (clearExtTab s) e, exec_eq_next.mpr (by rw [hstart, finish_of_error h]),
    ⟨rfl, rfl, rfl, rfl⟩, rfl, rfl⟩

/-! ### The checks of `FRAME_BUILD` -/

/-- `vc` is above 3 iff its top bit, bit 18 of `ARG3`, is set (rules R114, R145). -/
theorem vc_inRange_eq (r : Word) : decide ((frameArgsOf r).vc.toNat ≤ Config.vcMax) = !r.getLsbD 18 := by
  have top : ∀ v : BitVec 3, decide (v.toNat ≤ 3) = !v.getLsbD 2 := by decide
  rw [show r.getLsbD 18 = (r.extractLsb' 16 3).getLsbD 2 by simp]
  exact top _

/-- The checks of rule R145, in order. -/
theorem errorOf_frameBuildChecks (auth outerFec : Bool) (s : State) :
    errorOf (frameBuildChecks auth outerFec s) = firstFailure (frameBuildFailures auth outerFec s) := by
  refine errorOf_require_bind (inBounds_eq ..) fun _ => ?_
  refine errorOf_require_bind (inBounds_eq ..) fun _ => ?_
  refine errorOf_require_bind (inBounds_eq ..) fun _ => ?_
  refine errorOf_require_bind (by simp) fun _ => ?_
  refine errorOf_require_bind decide_not fun _ => ?_
  refine errorOf_require_bind (decide_le_eq _ _) fun _ => ?_
  refine errorOf_require_bind (decide_le_eq _ _) fun _ => ?_
  refine errorOf_require_bind (vc_inRange_eq _) fun _ => ?_
  refine errorOf_require_bind ?_ fun _ => ?_
  · rw [decide_le_eq, ← Bool.not_and]
    rfl
  exact errorOf_require (inBounds_eq ..)

/-- Settles O45: the rule fails where its checks fail. -/
theorem frameBuildErrorsInOrder : Obligations.FrameBuildErrorsInOrder := by
  intro s auth outerFec err hfail
  have hchecks : frameBuildChecks auth outerFec s = .error err :=
    errorOf_eq_some_iff.mp ((errorOf_frameBuildChecks auth outerFec s).trans hfail)
  exact raises_of_error (i := .frameBuild auth outerFec) (bind_error.mpr (.inl hchecks))

/-! ### The checks of `FRAME_PARSE` -/

/-- `FRAME_PARSE` before the records: the header, then the trailer (rule R150). -/
def frameChecks (verify : Bool) (s : State) : Except CmdError Bool := do
  let h ← frameHeader verify s
  frameVerified verify h s

theorem payloadLen_nonneg_iff {b : Build} {n il el : Nat} {au : Bool} :
    0 ≤ payloadLen b n il el au ↔ ¬ n < 5 + il + el + trailerLen b au := by
  simp only [payloadLen, Config.fixedHeaderBytes]
  omega

/-- The two fields of a frame's first byte (rule R117). -/
theorem headerFields_first {s : State} {fo n : Nat} (hn : 1 ≤ n) :
    (headerFields s.env.build (memRead s fo n)).version = (bufByte s fo).extractLsb' 3 5
      ∧ (headerFields s.env.build (memRead s fo n)).identLen = (bufByte s fo).extractLsb' 0 3 := by
  have hfirst : (memRead s fo n).getD 0 0 = bufByte s fo := memRead_getD s fo n 0 hn
  exact ⟨congrArg (BitVec.extractLsb' 3 5) hfirst, congrArg (BitVec.extractLsb' 0 3) hfirst⟩

/-- The trailer check of rule R151(a); a frame without a trailer has none to check. -/
theorem errorOf_frameVerified (verify : Bool) (h : FrameHeader) (s : State) :
    let r := regionOf s.arg.r0
    let ta := trailerLen s.env.build h.authenticated
    errorOf (frameVerified verify h s)
      = firstFailure [(h.authenticated && verify && decide (digest s.env.build s.key (memRead s r.off (r.n - ta))
          ≠ memRead s (r.off + r.n - ta) ta), .trailerMismatch)] := by
  refine errorOf_require_bind ?_ fun _ => rfl
  cases h.authenticated with
  | false => rfl
  | true =>
    cases verify with
    | false => rfl
    | true =>
      rw [Bool.and_self, Bool.true_and, decide_not, Bool.not_not]
      exact Bool.eq_iff_iff.mpr (trailerMatches_iff.trans decide_eq_true_iff.symm)

/-- The checks of rules R150 and R151(a), in order. The header fields past the first byte are in `BUF` only once the
frame is known to hold its fixed header. -/
theorem errorOf_frameChecks (verify : Bool) (s : State) :
    errorOf (frameChecks verify s) = firstFailure (frameParseFailures verify s) := by
  let fo := (regionOf s.arg.r0).off
  let n := (regionOf s.arg.r0).n
  simp only [frameChecks, frameHeader, checkSrc, bind_assoc]
  refine errorOf_require_bind (inBounds_eq ..) fun _ => ?_
  refine errorOf_require_bind (by simp) fun _ => ?_
  refine errorOf_require_bind (decide_le_eq _ _) fun hn => ?_
  obtain ⟨hversion, hil⟩ := headerFields_first (s := s) (fo := fo) (n := n) (Nat.not_lt.mp (of_decide_eq_false hn))
  refine errorOf_require_bind (by rw [hversion, decide_not, Bool.not_not]; rfl) fun _ => ?_
  refine errorOf_require_bind (by rw [hil]; exact decide_not) fun _ => ?_
  refine errorOf_require_bind (by rw [hil]; exact decide_le_eq _ _) fun hfixed => ?_
  have hheader : headerFields s.env.build (memRead s fo n) = headerAt s fo n :=
    headerFields_memRead (Nat.not_lt.mp (of_decide_eq_false hfixed))
  rw [hheader]
  refine errorOf_require_bind ((decide_eq_decide.mpr payloadLen_nonneg_iff).trans decide_not) fun _ => ?_
  refine errorOf_require_bind ?_ fun _ => errorOf_frameVerified ..
  rw [bne, Bool.not_not]
  exact congrArg _ (decide_eq_decide.mpr Nat.sub_pos_iff_lt)

/-- `FRAME_PARSE` makes these checks first (rule R150). -/
theorem frameChecks_error {decodeExt verify : Bool} {s : State} {e : CmdError}
    (h : frameChecks verify s = .error e) : ruleFrameParse decodeExt verify s = .error e := by
  rcases bind_error.mp h with h | ⟨hd, h, h'⟩
  · exact bind_error.mpr (.inl h)
  · exact bind_error.mpr (.inr ⟨hd, h, bind_error.mpr (.inl h')⟩)

/-- Settles O46: the rule makes its checks in the state with the table emptied, which none of them reads. -/
theorem frameParseErrorsInOrder : Obligations.FrameParseErrorsInOrder := by
  intro s dx vf err hfail
  have hchecks : frameChecks vf (clearExtTab s) = .error err :=
    errorOf_eq_some_iff.mp ((errorOf_frameChecks vf (clearExtTab s)).trans hfail)
  exact raises_of_error (i := .frameParse dx vf) (frameChecks_error hchecks)

/-! ### The records of a frame -/

/-- The header of a frame that passes the format checks is in `BUF`. -/
theorem eq_headerAt_of_ok {verify : Bool} {s : State} {h : FrameHeader} (hok : frameHeader verify s = .ok h) :
    h = headerAt s (regionOf s.arg.r0).off (regionOf s.arg.r0).n := by
  obtain ⟨-, -, hn, hh, -, -, hfixed, -⟩ := frameHeader_ok_iff.mp hok
  rw [hh, (headerFields_first hn).2] at hfixed
  exact hh.trans (headerFields_memRead hfixed)

/-- With `DECODE_EXT`, the records are those of the extensions region (rules R117, R150). -/
theorem frameRecords_headerAt (s : State) (n : Nat) :
    let fo := (regionOf s.arg.r0).off
    let il := ((bufByte s fo).extractLsb' 0 3).toNat
    frameRecords true (headerAt s fo n) (clearExtTab s)
      = decodeAll (clearExtTab s) (fo + 5 + il) (bufByte s (fo + 2 + il)).toNat := by
  intro fo il
  rw [Nat.add_assoc fo 2 il]
  rfl

/-- Everything a `FRAME_PARSE` can do to the table (rule R152): fill it with its frame's records, or leave it
empty. -/
theorem exec_frameParse_table {s t : State} {dx vf : Bool} (hexec : exec (.frameParse dx vf) s = .next t) :
    (∃ recs, frameRecords dx (headerAt s (regionOf s.arg.r0).off (regionOf s.arg.r0).n) (clearExtTab s) = .ok recs
        ∧ t.code = 0 ∧ t.extTab = recs ∧ t.extCount = BitVec.ofNat 9 recs.length)
      ∨ (t.code ≠ 0 ∧ t.extTab = [] ∧ t.extCount = 0) := by
  have hend : finish (ruleFrameParse dx vf) (clearExtTab s) = t := exec_eq_next.mp hexec
  rcases finish_cases (ruleFrameParse dx vf) (clearExtTab s) with ⟨u, hok, hfin⟩ | ⟨e, -, hfin⟩
  · obtain ⟨h, v, recs, hheader, -, hrecs, rfl⟩ := ruleFrameParse_ok_iff.mp hok
    rw [eq_headerAt_of_ok hheader] at hrecs
    rw [← hend, hfin]
    exact .inl ⟨recs, hrecs, rfl, rfl, rfl⟩
  · rw [← hend, hfin]
    exact .inr ⟨e.code_ne_zero, rfl, rfl⟩

/-- Settles O47: the rule starts from the emptied table, and only its success writes the table. -/
theorem frameParseEmptiesTheTable : Obligations.FrameParseEmptiesTheTable := by
  refine ⟨fun s t dx vf hexec => ⟨fun hempty => ?_, hexec, ?_⟩, fun w s _ hrefused => ?_⟩
  · rcases exec_frameParse_table hexec with ⟨recs, hrecs, hcode, htab, hcount⟩ | ⟨-, htab, hcount⟩
    · obtain rfl : dx = false := hempty.resolve_left (absurd hcode)
      obtain rfl : [] = recs := Except.ok.inj hrecs
      exact ⟨htab, hcount⟩
    · exact ⟨htab, hcount⟩
  · intro rs fo il hcode hdx hlegal hchain
    subst hdx
    rcases exec_frameParse_table hexec with ⟨recs, hrecs, -, htab, hcount⟩ | ⟨hfailed, -, -⟩
    · have hlen := (frameRecords_ok hrecs).1
      have hchainRecs : decodeAll (clearExtTab s) (fo + 5 + il) (bufByte s (fo + 2 + il)).toNat
          = .ok (chainWords (fo + 5 + il) rs) := decodeAll_chain hlegal hchain
      obtain rfl : chainWords (fo + 5 + il) rs = recs :=
        Except.ok.inj (hchainRecs.symm.trans ((frameRecords_headerAt s _).symm.trans hrecs))
      refine ⟨htab, ?_⟩
      rw [hcount, BitVec.toNat_ofNat, Nat.mod_eq_of_lt (Nat.lt_of_le_of_lt hlen (by decide)), chainWords_length]
    · exact absurd hcode hfailed
  · have hwf : ¬ wellFormedWord w = true := fun hwf =>
      let ⟨i, hdec⟩ := decode_of_wellFormed hwf
      hrefused i hdec
    obtain ⟨e, hdec, hkind⟩ := decode_of_not_wellFormed hwf
    refine ⟨abort s e, runCommand_of_error hdec s, ?_, rfl, rfl⟩
    rw [abort_code, CmdError.code, hkind]
    rfl

/-! ### A bad record in a chain -/

/-- The checks of one record, in order (rule R191). -/
theorem errorOf_decodeRecord (s : State) (off after : Nat) :
    errorOf (decodeRecord s off (1 + after)) = firstFailure (recordFailures (bufByte s off) after) := by
  rw [decodeRecord, require_bind_of_true (by simp)]
  refine errorOf_require_bind ?_ fun _ => ?_
  · rw [decide_le_eq]
    simp
  refine errorOf_require_bind ?_ fun _ => rfl
  rw [typeKnown, dataLen_eq, Bool.not_and, bne, Bool.not_not]

/-- The loop of `DecodeAll` where an encoded record stands in front (rules R181, R194). -/
theorem decodeRecords_encode {s : State} {fuel off : Nat} {r : ExtRecord} {rest : List Byte}
    (hlegal : r.wireLegal = true) (hbytes : Holds s off (r.encode ++ rest)) :
    decodeRecords s (fuel + 1) off (r.encode ++ rest).length
      = (do let recs ← decodeRecords s fuel (off + r.encode.length) rest.length
            .ok (r.words off :: recs)) := by
  have hhead : memRead s off r.encode.length = r.encode := (holds_append.mp hbytes).1
  have hpos : (r.encode ++ rest).length ≠ 0 := by simp [ExtRecord.encode]
  have hfits : r.encode.length ≤ (r.encode ++ rest).length := by simp
  have hrest : (r.encode ++ rest).length - r.encode.length = rest.length := by simp
  rw [decodeRecords, if_neg hpos, decodeRecord_encode hlegal hhead hfits]
  simp only [bind, Except.bind, hrest]

/-- A record that does not decode fails the chain, whatever stands before it (rules R191, R194). -/
theorem decodeRecords_bad {s : State} {h : Byte} {tail : List Byte} {err : CmdError}
    (herr : firstFailure (recordFailures h tail.length) = some err) :
    ∀ {rs : List ExtRecord} {fuel off : Nat}, (∀ r ∈ rs, r.wireLegal = true) →
      Holds s off (chainBytes rs ++ h :: tail) → (chainBytes rs ++ h :: tail).length ≤ fuel →
      decodeRecords s fuel off (chainBytes rs ++ h :: tail).length = .error err := by
  intro rs
  induction rs with
  | nil =>
    intro fuel off _ hbytes hfuel
    have hsize : (chainBytes [] ++ h :: tail).length = 1 + tail.length := Nat.add_comm tail.length 1
    obtain ⟨fuel, rfl⟩ : ∃ n, fuel = n + 1 := ⟨fuel - 1, by omega⟩
    obtain ⟨hfirst, -⟩ := holds_cons.mp hbytes
    have hbad : decodeRecord s off (1 + tail.length) = .error err :=
      errorOf_eq_some_iff.mp ((errorOf_decodeRecord s off tail.length).trans (hfirst ▸ herr))
    rw [hsize, decodeRecords, if_neg (by omega)]
    exact bind_error.mpr (.inl hbad)
  | cons r rs ih =>
    intro fuel off hlegal hbytes hfuel
    obtain ⟨hr, hrs⟩ := List.forall_mem_cons.mp hlegal
    have hsplit : chainBytes (r :: rs) ++ h :: tail = r.encode ++ (chainBytes rs ++ h :: tail) := by
      rw [chainBytes, List.flatMap_cons, List.append_assoc, ← chainBytes]
    rw [hsplit] at hbytes hfuel ⊢
    have hpos : 1 ≤ r.encode.length := Nat.le_add_left 1 _
    rw [List.length_append] at hfuel
    obtain ⟨fuel, rfl⟩ : ∃ n, fuel = n + 1 := ⟨fuel - 1, by omega⟩
    rw [decodeRecords_encode hr hbytes]
    exact bind_error.mpr (.inl (ih hrs (holds_append.mp hbytes).2 (by omega)))

theorem decodeAll_bad {s : State} {rs : List ExtRecord} {h : Byte} {tail : List Byte} {err : CmdError} {off n : Nat}
    (hlegal : ∀ r ∈ rs, r.wireLegal = true) (herr : firstFailure (recordFailures h tail.length) = some err)
    (hbytes : memRead s off n = chainBytes rs ++ h :: tail) : decodeAll s off n = .error err := by
  have hn : n = (chainBytes rs ++ h :: tail).length := by rw [← hbytes, memRead_length]
  subst hn
  exact decodeRecords_bad herr hlegal hbytes (Nat.le_refl _)

/-- Settles O40: both commands reach the records of the chain, and report the bad one. -/
theorem badRecordFailsTheChain : Obligations.BadRecordFailsTheChain := by
  intro s rs h tail err off n il el hlegal herr
  refine ⟨fun hin hn hbytes => exec_of_table_error (i := .extDecAll) rfl ?_,
    fun vf hpass hbytes => exec_of_table_error (i := .frameParse true vf) rfl ?_⟩
  · have hrecs : decodeAll (clearExtTab s) off n = .error err := decodeAll_bad hlegal herr hbytes
    refine (require_bind_of_true ((inBounds_iff ..).mpr hin)).trans ?_
    refine (require_bind_of_true (decide_eq_true hn)).trans ?_
    exact bind_error.mpr (.inl hrecs)
  · have hrecs : decodeAll (clearExtTab s) (off + 5 + il) el = .error err := decodeAll_bad hlegal herr hbytes
    obtain ⟨v, hchecks⟩ : ∃ v, frameChecks vf (clearExtTab s) = .ok v :=
      errorOf_eq_none_iff.mp ((errorOf_frameChecks vf (clearExtTab s)).trans hpass)
    obtain ⟨hd, hheader, hverified⟩ := bind_ok.mp hchecks
    have hframe : frameRecords true hd (clearExtTab s) = .error err := by
      rw [eq_headerAt_of_ok hheader]
      exact (frameRecords_headerAt s n).trans hrecs
    exact bind_error.mpr (.inr ⟨hd, hheader, bind_error.mpr (.inr ⟨v, hverified, bind_error.mpr (.inl hframe)⟩)⟩)

end Sys2Proof.Machine

/-! PROOFS. A built frame, parsed (rule R154): what `FRAME_BUILD` writes has the header of its operands, and a parse
reports the fields of its header. -/

namespace Sys2Proof.Machine

/-! ### Fields of bytes and result words -/

theorem getLsbD_of_extractLsb'_one {w : Nat} {x : BitVec w} {i : Nat} {b : Bool}
    (h : x.extractLsb' i 1 = BitVec.ofBool b) : x.getLsbD i = b := by
  rw [extractLsb'_one, BitVec.ofBool_eq_iff_eq] at h
  exact h

/-- The fields of the flags byte (rule R117). -/
theorem flagsByte_fields (fr : BitVec 2) (hp arq au : Bool) (vc : BitVec 3) :
    let f := fr ++ BitVec.ofBool hp ++ BitVec.ofBool arq ++ BitVec.ofBool au ++ vc
    f.extractLsb' 6 2 = fr ∧ f.getLsbD 5 = hp ∧ f.getLsbD 4 = arq ∧ f.getLsbD 3 = au ∧ f.extractLsb' 0 3 = vc := by
  refine ⟨?_, getLsbD_of_extractLsb'_one ?_, getLsbD_of_extractLsb'_one ?_, getLsbD_of_extractLsb'_one ?_,
    BitVec.extractLsb'_append_eq_right⟩
  case refine_1 =>
    repeat rw [BitVec.extractLsb'_append_eq_of_le (by decide)]
    exact BitVec.extractLsb'_eq_self
  all_goals
    repeat rw [BitVec.extractLsb'_append_eq_of_le (by decide)]
    exact BitVec.extractLsb'_append_eq_right

/-- The fields of the header word that `FRAME_BUILD`'s arguments fix (rules R115, R154). -/
theorem frameHeaderWord_fields (h : FrameHeader) (verified decoded : Bool) :
    let w := frameHeaderWord h verified decoded
    w.extractLsb' 24 3 = h.vc ∧ w.extractLsb' 16 2 = h.fragment ∧ w.getLsbD 19 = h.arqOn
      ∧ w.getLsbD 18 = h.hasPayload ∧ w.getLsbD 20 = h.authenticated ∧ w.getLsbD 28 = verified := by
  rw [frameHeaderWord_eq]
  refine ⟨?_, ?_, getLsbD_of_extractLsb'_one ?_, getLsbD_of_extractLsb'_one ?_, getLsbD_of_extractLsb'_one ?_,
    getLsbD_of_extractLsb'_one ?_⟩
  all_goals
    repeat rw [BitVec.extractLsb'_append_eq_of_le (by decide)]
    exact BitVec.extractLsb'_append_eq_right

theorem lengthWord_sequence (q : BitVec 16) (el : Byte) :
    (q.setWidth 32 ||| (el.setWidth 32 <<< 16)).extractLsb' 0 16 = q := by
  apply BitVec.eq_of_getLsbD_eq
  intro i hi
  simp [hi, show i < 32 by omega]

/-- A region result names its region (rules R113, R115). -/
theorem regionOf_regionWord {off n : Nat} (hoff : off < 65536) (hn : n < 65536) :
    regionOf (regionWord off n) = ⟨off, n⟩ := by
  rw [regionOf, lowHalf, highHalf, regionWord, BitVec.extractLsb'_append_eq_right, BitVec.extractLsb'_append_eq_left,
    BitVec.toNat_ofNat, BitVec.toNat_ofNat, Nat.mod_eq_of_lt hoff, Nat.mod_eq_of_lt hn]

theorem memRead_regionWord (s : State) {off n : Nat} (hoff : off < 65536) (hn : n < 65536) :
    memRead s ((regionWord off n).extractLsb' 0 16).toNat ((regionWord off n).extractLsb' 16 16).toNat
      = memRead s off n :=
  congrArg (fun r : Region => memRead s r.off r.n) (regionOf_regionWord hoff hn)

/-- A length result beside an offset operand is the region's operand (rules R113, R115, R154). -/
theorem countWord_append_offset (n : Nat) (r : Word) :
    (countWord n).extractLsb' 0 16 ++ r.extractLsb' 0 16 = regionWord (offsetOf r) n := by
  have hcount : (countWord n).extractLsb' 0 16 = BitVec.ofNat 16 n := by
    apply BitVec.eq_of_toNat_eq
    simp only [countWord, BitVec.extractLsb'_toNat, BitVec.toNat_ofNat, Nat.shiftRight_zero]
    omega
  rw [hcount, regionWord, offsetOf, lowHalf, BitVec.ofNat_toNat, BitVec.setWidth_eq]

/-! ### What `FRAME_BUILD` has written -/

/-- The header fields that `FRAME_BUILD` writes (rules R117, R145). -/
def builtHeader (auth : Bool) (s : State) : FrameHeader where
  version := Config.version
  identLen := BitVec.ofNat 3 (regionOf s.arg.r0).n
  fragment := (frameArgsOf s.arg.r3).fragment
  hasPayload := decide (0 < (regionOf s.arg.r1).n)
  arqOn := (frameArgsOf s.arg.r3).arqOn
  authenticated := auth
  vc := (frameArgsOf s.arg.r3).vc
  extensionLen := BitVec.ofNat 8 (regionOf s.arg.r2).n
  sequence := (frameArgsOf s.arg.r3).sequence
  payloadLen := (regionOf s.arg.r1).n

/-- The written region parses to the header it was built from (rules R117, R142, R154). -/
theorem headerAt_eq_builtHeader {s t : State} {auth : Bool} {dst : Nat} (henv : t.env = s.env)
    (hil : (regionOf s.arg.r0).n ≤ 7) (hel : (regionOf s.arg.r2).n ≤ 255)
    (hfirst : bufByte t dst = 12#5 ++ BitVec.ofNat 3 (regionOf s.arg.r0).n)
    (hflags : bufByte t (dst + 1 + (regionOf s.arg.r0).n)
      = (frameArgsOf s.arg.r3).fragment ++ BitVec.ofBool (decide (0 < (regionOf s.arg.r1).n))
        ++ BitVec.ofBool (frameArgsOf s.arg.r3).arqOn ++ BitVec.ofBool auth ++ (frameArgsOf s.arg.r3).vc)
    (hextLen : bufByte t (dst + 2 + (regionOf s.arg.r0).n) = BitVec.ofNat 8 (regionOf s.arg.r2).n)
    (hseq : bufByte t (dst + 3 + (regionOf s.arg.r0).n) ++ bufByte t (dst + 4 + (regionOf s.arg.r0).n)
      = (frameArgsOf s.arg.r3).sequence) :
    headerAt t dst (frameTotal auth s) = builtHeader auth s := by
  have hident : (bufByte t dst).extractLsb' 0 3 = BitVec.ofNat 3 (regionOf s.arg.r0).n := by
    rw [hfirst, BitVec.extractLsb'_append_eq_right]
  have hversion : (bufByte t dst).extractLsb' 3 5 = Config.version := by
    rw [hfirst]
    exact BitVec.extractLsb'_append_eq_left
  have hilNat : (BitVec.ofNat 3 (regionOf s.arg.r0).n).toNat = (regionOf s.arg.r0).n := by
    rw [BitVec.toNat_ofNat, Nat.mod_eq_of_lt (by omega)]
  have helNat : (BitVec.ofNat 8 (regionOf s.arg.r2).n).toNat = (regionOf s.arg.r2).n := by
    rw [BitVec.toNat_ofNat, Nat.mod_eq_of_lt (by omega)]
  have hpay : frameTotal auth s - (5 + (regionOf s.arg.r0).n + (regionOf s.arg.r2).n
      + trailerLen s.env.build auth) = (regionOf s.arg.r1).n := by
    simp only [frameTotal, Config.fixedHeaderBytes]
    omega
  obtain ⟨hfr, hhp, harq, hau, hvc⟩ := flagsByte_fields (frameArgsOf s.arg.r3).fragment
    (decide (0 < (regionOf s.arg.r1).n)) (frameArgsOf s.arg.r3).arqOn auth (frameArgsOf s.arg.r3).vc
  simp only [headerAt, builtHeader, hident, hversion, hilNat, ← Nat.add_assoc, hflags, hextLen, hseq, hfr, hhp, harq,
    hau, hvc, henv, helNat, hpay]

/-- Only a `FRAME_BUILD` whose checks pass ends with `CODE` 0 (rules R341, R344). -/
theorem frameBuildChecks_of_code {s t : State} {auth outerFec : Bool}
    (hexec : exec (.frameBuild auth outerFec) s = .next t) (hcode : t.code = 0) :
    frameBuildChecks auth outerFec s = .ok () := by
  have hend : finish (ruleFrameBuild auth outerFec) s = t := exec_eq_next.mp hexec
  rcases finish_cases (ruleFrameBuild auth outerFec) s with ⟨u, hok, -⟩ | ⟨e, -, hfin⟩
  · exact (ruleFrameBuild_ok_iff.mp hok).1
  · rw [← hend, hfin] at hcode
    exact absurd hcode e.code_ne_zero

/-- What a `FRAME_BUILD` from `s` has made of `BUF` in `t`: a frame whose header, parts and trailer are those of its
operands (rules R145, R146). -/
structure FrameBuilt (auth : Bool) (s t : State) : Prop where
  env : t.env = s.env
  keyValid : t.keyValid = s.keyValid
  res : t.res.r0 = countWord (frameTotal auth s)
  header : headerAt t (offsetOf s.arg.r4) (frameTotal auth s) = builtHeader auth s
  ident : memRead t (offsetOf s.arg.r4 + 1) (regionOf s.arg.r0).n
    = memRead s (regionOf s.arg.r0).off (regionOf s.arg.r0).n
  ext : memRead t (offsetOf s.arg.r4 + 5 + (regionOf s.arg.r0).n) (regionOf s.arg.r2).n
    = memRead s (regionOf s.arg.r2).off (regionOf s.arg.r2).n
  payload : memRead t (offsetOf s.arg.r4 + 5 + (regionOf s.arg.r0).n + (regionOf s.arg.r2).n) (regionOf s.arg.r1).n
    = memRead s (regionOf s.arg.r1).off (regionOf s.arg.r1).n
  trailer : auth = true → trailerMatches t (offsetOf s.arg.r4) (frameTotal auth s) = true

/-- A `FRAME_BUILD` that succeeds has built its frame (rules R117, R145, R146). -/
theorem frameBuilt_of_exec {s t : State} {auth outerFec : Bool}
    (hexec : exec (.frameBuild auth outerFec) s = .next t) (hcode : t.code = 0) : FrameBuilt auth s t := by
  obtain ⟨hident, hpayload, hext, hkey, hil, hil', hel, hvc, hfec, hdst⟩ :=
    frameBuildChecks_ok_iff.mp (frameBuildChecks_of_code hexec hcode)
  obtain ⟨t', hexec', ⟨-, -, -, hres⟩, hfirst, hid, hflags, hextLen, hhi, hlo, hexts, hpay, htrailer, -,
      ⟨-, -, -, henv⟩, ⟨hkeyBytes, hkeyValid⟩, -, -⟩ :=
    frameBuildWritesTheFrame s auth outerFec hident hpayload hext hkey (Nat.pos_of_ne_zero hil) hil' hel hvc hfec hdst
  obtain rfl : t = t' := Host.Outcome.next.inj (hexec.symm.trans hexec')
  refine ⟨henv, hkeyValid, by rw [hres]; rfl, headerAt_eq_builtHeader henv hil' hel hfirst ?flags hextLen ?seq, hid,
    hexts, hpay, ?trailer⟩
  case flags =>
    rw [extractLsb'_one] at hflags
    exact hflags
  case seq =>
    exact (congrArg₂ (· ++ ·) hhi hlo).trans (BitVec.extractLsb'_append_extractLsb'_eq_extractLsb' rfl)
  case trailer =>
    intro hauth
    have hn : frameTotal auth s
        = 5 + (regionOf s.arg.r0).n + (regionOf s.arg.r2).n + (regionOf s.arg.r1).n + s.env.build.T :=
      congrArg _ (if_pos hauth)
    rw [trailerMatches_iff, henv, hkeyBytes, hn, ← Nat.add_assoc (offsetOf s.arg.r4), Nat.add_sub_cancel,
      Nat.add_sub_cancel]
    exact (htrailer hauth).symm

/-! ### The round trip -/

/-- A `FRAME_PARSE` of a frame with these header fields that passes every check (rules R150, R151, R153). -/
theorem exec_frameParse_of_headerAt {s : State} {dx vf : Bool} {fo n : Nat} {h : FrameHeader} {recs : List ExtWords}
    (hregion : regionOf s.arg.r0 = ⟨fo, n⟩) (hh : headerAt s fo n = h) (hin : fo + n ≤ s.env.build.bufBytes)
    (hkey : vf = true → s.keyValid = true) (hversion : h.version = 12) (hil : h.identLen.toNat ≠ 0)
    (hsize : 5 + h.identLen.toNat + h.extensionLen.toNat + trailerLen s.env.build h.authenticated ≤ n)
    (hflag : h.hasPayload = decide (0 < h.payloadLen))
    (htrailer : h.authenticated = true → vf = true → trailerMatches s fo n = true)
    (hrecs : frameRecords dx h (clearExtTab s) = .ok recs) :
    ∃ u, exec (.frameParse dx vf) s = .next u
      ∧ completed s u (frameResults s.env.build fo n h (h.authenticated && vf) dx recs.length) ∧ keptBuf s u := by
  subst hh
  have hfixed : 5 + (headerAt s fo n).identLen.toNat ≤ n := by omega
  have hn : 1 ≤ n := by omega
  have hheader : frameHeader vf (clearExtTab s) = .ok (headerAt s fo n) := by
    rw [frameHeader_ok_iff, clearExtTab_arg, hregion]
    exact ⟨hin, hkey, hn, (headerFields_memRead hfixed).symm, hversion, hil, hfixed, payloadLen_nonneg hsize, hflag⟩
  have hverified : frameVerified vf (headerAt s fo n) (clearExtTab s)
      = .ok ((headerAt s fo n).authenticated && vf) := by
    rw [frameVerified_ok_iff, clearExtTab_arg, hregion]
    exact ⟨htrailer, rfl⟩
  obtain ⟨u, hexec, hend, -, -, -, -, -, hbuf⟩ := exec_of_setExtTab (i := .frameParse dx vf) (s := s) rfl
    (ruleFrameParse_ok_iff.mpr ⟨_, _, _, hheader, hverified, hrecs, rfl⟩) (frameRecords_ok hrecs).1
  rw [clearExtTab_arg, hregion] at hend
  exact ⟨u, hexec, hend, hbuf⟩

/-- Settles O44: what `FRAME_BUILD` wrote passes the checks of `FRAME_PARSE`, whose results are its fields. -/
theorem frameRoundTrip : Obligations.FrameRoundTrip := by
  intro s t auth outerFec dx rs r il pl el region hexec hcode hrecs
  obtain ⟨-, -, -, hkey, hil, hil', hel, -, -, hdst⟩ :=
    frameBuildChecks_ok_iff.mp (frameBuildChecks_of_code hexec hcode)
  have built := frameBuilt_of_exec hexec hcode
  let dst := offsetOf r.r4
  let n := frameTotal auth s
  let h := builtHeader auth s
  have hn : n = 5 + il + el + pl + trailerLen s.env.build auth := rfl
  have hsize : dst + n ≤ 65535 := hdst.trans s.env.build.bufBytes_range.2
  have hilNat : h.identLen.toNat = il := (BitVec.toNat_ofNat ..).trans (Nat.mod_eq_of_lt (Nat.lt_succ_of_le hil'))
  have helNat : h.extensionLen.toNat = el := (BitVec.toNat_ofNat ..).trans (Nat.mod_eq_of_lt (Nat.lt_succ_of_le hel))
  let t₁ := t.setArg { t.arg with r0 := t.res.r0.extractLsb' 0 16 ++ r.r4.extractLsb' 0 16 }
  have hregion : regionOf t₁.arg.r0 = ⟨dst, n⟩ := by
    have hr0 : t₁.arg.r0 = regionWord dst n := by
      rw [← countWord_append_offset, ← built.res]
      rfl
    rw [hr0, regionOf_regionWord (by omega) (by omega)]
  obtain ⟨recs, hrecs⟩ : ∃ recs, frameRecords dx h (clearExtTab t₁) = .ok recs := by
    cases dx with
    | false => exact ⟨[], rfl⟩
    | true =>
      obtain ⟨hlegal, hchain⟩ := hrecs rfl
      have hbytes : memRead (clearExtTab t₁) (dst + 5 + il) el = chainBytes rs := built.ext.trans hchain
      refine ⟨chainWords (dst + 5 + il) rs, ?_⟩
      rw [frameRecords, if_pos rfl, clearExtTab_arg, hregion, hilNat, helNat]
      exact decodeAll_chain hlegal hbytes
  have hbuild : t₁.env.build = s.env.build := congrArg Env.build built.env
  obtain ⟨u, hparse, ⟨hcode, -, -, hures⟩, hbuf⟩ := exec_frameParse_of_headerAt (s := t₁) (dx := dx) (vf := auth)
    hregion built.header (hbuild ▸ hdst) (fun hauth => built.keyValid.trans (hkey hauth)) rfl (hilNat ▸ hil)
    (by rw [hilNat, helNat, hbuild, hn]; exact Nat.add_le_add_right (Nat.le_add_right _ _) _)
    rfl (fun hauth _ => built.trailer hauth) hrecs
  have hr2 : u.res.r2 = regionWord (dst + 1) il := by rw [hures, ← hilNat]; rfl
  have hr3 : u.res.r3 = regionWord (dst + 5 + il) el := by rw [hures, ← hilNat, ← helNat]; rfl
  have hr4 : u.res.r4 = regionWord (dst + 5 + il + el) pl := by rw [hures, ← hilNat, ← helNat]; rfl
  obtain ⟨hvcW, hfrW, harqW, hhpW, hauW, hverW⟩ := frameHeaderWord_fields h (auth && auth) dx
  refine ⟨u, hparse, hcode, ?ident, ?ext, ?payload, ?_, ?_, ?_, ?_, ?_, ?_, ?_, hbuf⟩
  case ident => rw [hr2]; exact (memRead_regionWord t (by omega) (by omega)).trans built.ident
  case ext => rw [hr3]; exact (memRead_regionWord t (by omega) (by omega)).trans built.ext
  case payload => rw [hr4]; exact (memRead_regionWord t (by omega) (by omega)).trans built.payload
  all_goals rw [hures]
  · exact lengthWord_sequence _ _
  · exact hvcW
  · exact hfrW
  · exact harqW
  · exact hhpW
  · exact hauW
  · exact hverW.trans (Bool.and_self _)

end Sys2Proof.Machine

/-! PROOFS. The extension commands (rules R182..R195): `EXT_DEC_ALL` of a chain of encoded records, and each command's
failing checks in order (rule R346). -/

namespace Sys2Proof.Machine

/-! ### A chain of encoded records -/

/-- Settles O39: `DecodeAll` gives the words of the chain, at most one per byte of the blob, and the rule puts them
into the table. -/
theorem extDecAllInvertsTheChain : Obligations.ExtDecAllInvertsTheChain := by
  intro s rs bo bn hlegal hin hn hbytes
  have hrecs : decodeAll (clearExtTab s) bo bn = .ok (chainWords bo rs) := decodeAll_chain hlegal hbytes
  have hlen : (chainWords bo rs).length ≤ 255 := (decodeRecords_length hrecs).trans hn
  rw [← chainWords_length bo rs]
  exact exec_of_setExtTab (i := .extDecAll) rfl (ruleExtDecAll_ok_iff.mpr ⟨hin, hn, _, hrecs, rfl⟩) hlen

/-! ### The checks of the extension commands -/

/-- A check and what follows fail as a list of failures says, where what follows fails as the list's rest says
(rule R346). Unlike `errorOf_require_bind`, what follows may fail in other ways too. -/
theorem require_bind_error_of_firstFailure {α : Type} {c b : Bool} {e err : CmdError} {k : Unit → Except CmdError α}
    {rest : List (Bool × CmdError)} (hc : c = !b) (hfail : firstFailure ((b, e) :: rest) = some err)
    (hrest : firstFailure rest = some err → k () = .error err) : (require c e >>= k) = .error err := by
  subst hc
  cases b with
  | false => exact hrest hfail
  | true => exact congrArg Except.error (Option.some.inj hfail)

/-- The one check of `EXT_ENC` (rule R182): the record's bytes end past `BUF`. -/
theorem ruleExtEnc_error {rec : State → ExtRecord} {s : State} {n : Nat} (hlen : (rec s).encode.length = n)
    (hout : s.env.build.bufBytes < offsetOf s.arg.r2 + n) : ruleExtEnc rec s = .error .destinationRange := by
  subst hlen
  exact require_bind_of_false (by rw [inBounds_eq, decide_eq_true hout]; rfl)

/-- The checks of `EXT_ENC_RAW`, in order (rule R190). -/
theorem ruleExtEncRaw_error {type : BitVec 4} {s : State} {err : CmdError}
    (hfail : firstFailure (extEncRawFailures s) = some err) : ruleExtEncRaw type s = .error err := by
  refine require_bind_error_of_firstFailure (inBounds_eq ..) hfail fun hfail => ?_
  refine require_bind_error_of_firstFailure (decide_le_eq ..) hfail fun hfail => ?_
  refine require_bind_error_of_firstFailure ?_ hfail nofun
  rw [Nat.add_assoc]
  exact inBounds_eq ..

/-- The checks of one record in a blob that may be empty, in order (rule R191). -/
theorem errorOf_decodeRecord_blob (s : State) (off n : Nat) :
    errorOf (decodeRecord s off n)
      = firstFailure ((decide (n < 1), .recordTruncated) :: recordFailures (bufByte s off) (n - 1)) := by
  cases n with
  | zero => rfl
  | succ after =>
    rw [Nat.add_comm after 1, Nat.add_sub_cancel_left, decide_eq_false (by omega)]
    exact errorOf_decodeRecord s off after

/-- The checks of `EXT_DEC`, in order (rules R191, R193). -/
theorem ruleExtDec_error {s : State} {err : CmdError} (hfail : firstFailure (extDecFailures s) = some err) :
    ruleExtDec s = .error err := by
  refine require_bind_error_of_firstFailure (inBounds_eq ..) hfail fun hrecord => ?_
  exact bind_error.mpr (.inl (errorOf_eq_some_iff.mp ((errorOf_decodeRecord_blob ..).trans hrecord)))

/-- The checks of `EXT_DEC_ALL` before the first record, in order (rule R195). -/
theorem ruleExtDecAll_error {s : State} {err : CmdError} (hfail : firstFailure (extDecAllFailures s) = some err) :
    ruleExtDecAll s = .error err := by
  refine require_bind_error_of_firstFailure (inBounds_eq ..) hfail fun hfail => ?_
  exact require_bind_error_of_firstFailure (decide_le_eq ..) hfail nofun

/-- Settles O41: each rule fails where its checks fail; `EXT_DEC_ALL` makes them with the table emptied, which none
of them reads. -/
theorem extErrorsInOrder : Obligations.ExtErrorsInOrder := by
  intro s err
  refine ⟨?encode, fun ty hfail => raises_of_error (i := .extEncRaw ty) (ruleExtEncRaw_error hfail),
    fun hfail => raises_of_error (i := .extDec) (ruleExtDec_error hfail),
    fun hfail => raises_of_error (i := .extDecAll) (ruleExtDecAll_error hfail)⟩
  simp only [List.forall_mem_cons]
  exact ⟨fun hout => raises_of_error (i := .extEncArqSequence) (ruleExtEnc_error rfl hout),
    fun hout => raises_of_error (i := .extEncArqRequest) (ruleExtEnc_error rfl hout),
    fun hout => raises_of_error (i := .extEncArqControl) (ruleExtEnc_error rfl hout),
    fun hout => raises_of_error (i := .extEncArqHandshake) (ruleExtEnc_error rfl hout),
    fun hout => raises_of_error (i := .extEncTddControl) (ruleExtEnc_error rfl hout),
    fun hout => raises_of_error (i := .extEncHmacSequenceReset) (ruleExtEnc_error rfl hout), nofun⟩

end Sys2Proof.Machine

/-! PROOFS. The Golay decoder (rules R220..R226). Over every legal matrix a pattern it finds has at most three bits and
the syndrome received, and where it finds none there is none; over the default matrix two such patterns never share a
syndrome. -/

namespace Sys2Proof.Machine

/-! ### Weight -/

theorem countP_xor_le (l : List Nat) (f g : Nat → Bool) :
    l.countP (fun i => f i ^^ g i) ≤ l.countP f + l.countP g := by
  induction l with
  | nil => exact Nat.le_refl 0
  | cons a l ih =>
    simp only [List.countP_cons]
    cases f a <;> cases g a <;> simp <;> omega

/-- Weight is subadditive (rule R13). -/
theorem popcount_xor_le {w : Nat} (x y : BitVec w) : popcount (x ^^^ y) ≤ popcount x + popcount y := by
  simpa only [popcount, BitVec.getLsbD_xor] using countP_xor_le (List.range w) (x.getLsbD ·) (y.getLsbD ·)

/-- The weight of a joined word is that of its halves. -/
theorem popcount_append {n m : Nat} (x : BitVec n) (y : BitVec m) :
    popcount (x ++ y) = popcount x + popcount y := by
  have hrange : List.range (n + m) = List.range m ++ (List.range n).map (m + ·) := by
    rw [Nat.add_comm, List.range_add]
  simp only [popcount, hrange, List.countP_append, List.countP_map, BitVec.getLsbD_append]
  rw [Nat.add_comm]
  refine congrArg₂ (· + ·) (List.countP_congr fun i _ => ?_) (List.countP_congr fun i hi => ?_)
  · simp
  · simp [List.mem_range.mp hi]

theorem popcount_unitVector {i : Nat} (hi : i < 12) : popcount (unitVector i) = 1 := by
  revert i; decide

theorem unitVector_ne_zero {i : Nat} (hi : i < 12) : unitVector i ≠ 0#12 := fun h => by
  simpa [h] using popcount_unitVector hi

/-- The positions of the 1 bits of a 12-bit word, counted from the left (rule R220). -/
def onesOf (v : BitVec 12) : List Nat :=
  (List.range 12).filter fun i => v.getLsbD (11 - i)

theorem onesOf_length (v : BitVec 12) : (onesOf v).length = popcount v := by
  have hreverse : (List.range 12).map (11 - ·) = (List.range 12).reverse := by decide
  rw [onesOf, ← List.countP_eq_length_filter, popcount, ← List.countP_reverse, ← hreverse, List.countP_map]
  rfl

/-- A sum over the 1 bits of a word skips its 0 bits. -/
theorem unitSum_eq_onesOf (f : Nat → BitVec 12) (v : BitVec 12) :
    unitSum f v = (onesOf v).foldl (fun acc i => acc ^^^ f i) 0 := by
  rw [onesOf, List.foldl_filter, unitSum]
  congr 1
  funext acc i
  cases v.getLsbD (11 - i) <;> simp

theorem eq_zero_of_popcount {v : BitVec 12} (h : popcount v = 0) : v = 0#12 := by
  rw [← onesOf_length, List.length_eq_zero_iff] at h
  rw [← unitSum_unitVector v, unitSum_eq_onesOf, h]
  rfl

theorem eq_unitVector_of_popcount {v : BitVec 12} (h : popcount v = 1) : ∃ i < 12, v = unitVector i := by
  rw [← onesOf_length, List.length_eq_one_iff] at h
  obtain ⟨i, hi⟩ := h
  have hmem : i ∈ onesOf v := hi ▸ List.mem_singleton_self i
  refine ⟨i, List.mem_range.mp (List.mem_of_mem_filter hmem), ?_⟩
  rw [← unitSum_unitVector v, unitSum_eq_onesOf, hi]
  exact BitVec.zero_xor

/-- Only the zero word has weight 0 and only a unit vector has weight 1. -/
theorem light_cases {v : BitVec 12} (h : popcount v ≤ 1) : v = 0#12 ∨ ∃ i < 12, v = unitVector i :=
  (Nat.le_one_iff_eq_zero_or_eq_one.mp h).imp eq_zero_of_popcount eq_unitVector_of_popcount

/-! ### Halves of a word -/

theorem halves_eq (e : BitVec 24) : e.extractLsb' 12 12 ++ e.extractLsb' 0 12 = e :=
  (BitVec.extractLsb'_append_extractLsb'_eq_extractLsb' (by decide)).trans BitVec.extractLsb'_eq_self

theorem popcount_halves (e : BitVec 24) :
    popcount e = popcount (e.extractLsb' 12 12) + popcount (e.extractLsb' 0 12) := by
  rw [← popcount_append]
  exact congrArg popcount (halves_eq e).symm

/-- The syndrome by halves (rule R221, "Equivalently"). -/
theorem syndrome_halves {B : List (BitVec 12)} (hl : B.length = 12) (e : BitVec 24) :
    syndrome B e = e.extractLsb' 12 12 ^^^ matVec B (e.extractLsb' 0 12) := by
  rw [← syndrome_append hl, halves_eq]

/-- The other half's view of a syndrome (rule R223, step 4): `MatVec(B, s)` swaps the halves. -/
theorem matVec_syndrome {B : List (BitVec 12)} (hB : legalGolayB B = true) (e : BitVec 24) :
    matVec B (syndrome B e) = e.extractLsb' 0 12 ^^^ matVec B (e.extractLsb' 12 12) := by
  obtain ⟨hl, -, -⟩ := (legalGolayB_iff B).mp hB
  rw [syndrome_halves hl, matVec_xor hl, matVec_matVec hB, BitVec.xor_comm]

/-! ### One pass of the decoder -/

theorem nearRow_eq_some {B : List (BitVec 12)} {x : BitVec 12} {i : Nat} (h : nearRow B x = some i) :
    i < 12 ∧ popcount (x ^^^ golayRow B i) ≤ 2 :=
  ⟨List.mem_range.mp (List.mem_of_find?_eq_some h),
    of_decide_eq_true (List.find?_some (p := fun i => decide (popcount (x ^^^ golayRow B i) ≤ 2)) h)⟩

theorem nearRow_eq_none {B : List (BitVec 12)} {x : BitVec 12} (h : nearRow B x = none) {i : Nat} (hi : i < 12) :
    2 < popcount (x ^^^ golayRow B i) := by
  simpa using List.find?_eq_none.mp h i (List.mem_range.mpr hi)

/-- Steps 2 and 3 of rule R223 on a word `x`; steps 5 and 6 are the same on `q`. A result `(a, u)` explains `x` as
`a` and the rows of `B` that `u` names. -/
def lightPair (B : List (BitVec 12)) (x : BitVec 12) : Option (BitVec 12 × BitVec 12) :=
  if popcount x ≤ 3 then some (x, 0#12) else (nearRow B x).map fun i => (x ^^^ golayRow B i, unitVector i)

/-- The decoder is one pass on the syndrome, then one on the syndrome that the swapped halves have. -/
theorem golayErrorPattern_eq_lightPair (B : List (BitVec 12)) (r : BitVec 24) :
    golayErrorPattern B r
      = ((lightPair B (syndrome B r)).map fun p => (p.1 ++ p.2, if p.2 = 0 then 2 else 3)).or
          ((lightPair B (matVec B (syndrome B r))).map fun p => (p.2 ++ p.1, if p.2 = 0 then 5 else 6)) := by
  have hunit : ∀ {x : BitVec 12} {i : Nat}, nearRow B x = some i → unitVector i ≠ 0#12 := fun h =>
    unitVector_ne_zero (nearRow_eq_some h).1
  by_cases hstep2 : popcount (syndrome B r) ≤ 3
  · simp [golayErrorPattern, lightPair, hstep2]
  cases hstep3 : nearRow B (syndrome B r) with
  | some i => simp [golayErrorPattern, lightPair, hstep2, hstep3, hunit hstep3]
  | none =>
    by_cases hstep5 : popcount (matVec B (syndrome B r)) ≤ 3
    · simp [golayErrorPattern, lightPair, hstep2, hstep3, hstep5]
    cases hstep6 : nearRow B (matVec B (syndrome B r)) with
    | some i => simp [golayErrorPattern, lightPair, hstep2, hstep3, hstep5, hstep6, hunit hstep6]
    | none => simp [golayErrorPattern, lightPair, hstep2, hstep3, hstep5, hstep6]

theorem lightPair_some {B : List (BitVec 12)} (hB : legalGolayB B = true) {x a u : BitVec 12}
    (h : lightPair B x = some (a, u)) :
    a ^^^ matVec B u = x ∧ popcount a + popcount u ≤ 3 ∧ popcount u ≤ 1 := by
  obtain ⟨hl, -, -⟩ := (legalGolayB_iff B).mp hB
  unfold lightPair at h
  split at h
  case isTrue hx =>
    cases h
    exact ⟨by rw [matVec_zero hl, BitVec.xor_zero], by simpa using hx, by simp⟩
  case isFalse =>
    obtain ⟨i, hrow, hpair⟩ := Option.map_eq_some_iff.mp h
    cases hpair
    obtain ⟨hi, hnear⟩ := nearRow_eq_some hrow
    rw [popcount_unitVector hi, matVec_unitVector hB hi, BitVec.xor_assoc, BitVec.xor_self, BitVec.xor_zero]
    exact ⟨rfl, by omega, Nat.le_refl 1⟩

/-- A pass misses no pair of weight at most 3 with at most one bit in `u`. -/
theorem two_le_popcount_of_lightPair_none {B : List (BitVec 12)} (hB : legalGolayB B = true) {x a u : BitVec 12}
    (h : lightPair B x = none) (hx : a ^^^ matVec B u = x) (hau : popcount a + popcount u ≤ 3) :
    2 ≤ popcount u := by
  obtain ⟨hl, -, -⟩ := (legalGolayB_iff B).mp hB
  unfold lightPair at h
  split at h
  case isTrue => cases h
  case isFalse hheavy =>
  have hrow : nearRow B x = none := Option.map_eq_none_iff.mp h
  by_contra hu
  rcases light_cases (Nat.le_of_lt_succ (Nat.not_le.mp hu)) with rfl | ⟨i, hi, rfl⟩
  · have hxa : a = x := by
      rw [← hx, matVec_zero hl, BitVec.xor_zero]
    rw [hxa] at hau
    omega
  · have hnear : x ^^^ golayRow B i = a := by
      rw [← hx, matVec_unitVector hB hi, BitVec.xor_assoc, BitVec.xor_self, BitVec.xor_zero]
    have hfar := nearRow_eq_none hrow hi
    have hone := popcount_unitVector hi
    rw [hnear] at hfar
    omega

/-! ### What the decoder finds -/

theorem stepOfPattern_range (e : BitVec 24) :
    stepOfPattern e = 2 ∨ stepOfPattern e = 3 ∨ stepOfPattern e = 5 ∨ stepOfPattern e = 6 := by
  unfold stepOfPattern
  split_ifs <;> simp

/-- The step of a pattern, by its halves (rule R225). -/
theorem stepOfPattern_append (x y : BitVec 12) :
    stepOfPattern (x ++ y) = if y = 0 then 2 else if popcount y = 1 then 3 else if x = 0 then 5 else 6 := by
  rw [stepOfPattern, BitVec.extractLsb'_append_eq_right, BitVec.extractLsb'_append_eq_left]

theorem stepOfPattern_of_light_data {x y : BitVec 12} (hy : popcount y ≤ 1) :
    stepOfPattern (x ++ y) = if y = 0 then 2 else 3 := by
  rw [stepOfPattern_append]
  rcases light_cases hy with rfl | ⟨i, hi, rfl⟩
  · rfl
  · rw [if_pos (popcount_unitVector hi)]

theorem stepOfPattern_of_heavy_data {x y : BitVec 12} (hy : 2 ≤ popcount y) :
    stepOfPattern (x ++ y) = if x = 0 then 5 else 6 := by
  have hzero : y ≠ 0 := fun h => by simp [h] at hy
  rw [stepOfPattern_append, if_neg hzero, if_neg (by omega)]

/-- The decoder is sound over every legal matrix (rule R226): the pattern has at most three bits and the syndrome of
the received word, and its shape tells the step that found it (rule R225). -/
theorem golayErrorPattern_sound {B : List (BitVec 12)} (hB : legalGolayB B = true) {r e : BitVec 24}
    {step : BitVec 8} (h : golayErrorPattern B r = some (e, step)) :
    popcount e ≤ 3 ∧ syndrome B e = syndrome B r ∧ step = stepOfPattern e := by
  obtain ⟨hl, -, -⟩ := (legalGolayB_iff B).mp hB
  rw [golayErrorPattern_eq_lightPair, Option.or_eq_some_iff, Option.map_eq_some_iff, Option.map_eq_some_iff] at h
  rcases h with ⟨⟨a, u⟩, hfound, hpattern⟩ | ⟨hmissed, ⟨a, u⟩, hfound, hpattern⟩
  all_goals
    cases hpattern
    obtain ⟨hsum, hlight, hu⟩ := lightPair_some hB hfound
    rw [popcount_append, syndrome_append hl]
  · exact ⟨hlight, hsum, (stepOfPattern_of_light_data hu).symm⟩
  · have hswap : u ^^^ matVec B a = syndrome B r := by
      rw [← matVec_matVec hB (syndrome B r), ← hsum, matVec_xor hl, matVec_matVec hB, BitVec.xor_comm]
    rw [Nat.add_comm] at hlight
    have hdata := two_le_popcount_of_lightPair_none hB (Option.map_eq_none_iff.mp hmissed) hswap hlight
    exact ⟨hlight, hswap, (stepOfPattern_of_heavy_data hdata).symm⟩

/-- The decoder is complete over every legal matrix: where it finds nothing, no pattern of weight at most 3 has the
syndrome received. -/
theorem golayErrorPattern_complete {B : List (BitVec 12)} (hB : legalGolayB B = true) {r e : BitVec 24}
    (h : golayErrorPattern B r = none) (he : syndrome B e = syndrome B r) : 3 < popcount e := by
  obtain ⟨hl, -, -⟩ := (legalGolayB_iff B).mp hB
  rw [golayErrorPattern_eq_lightPair, Option.or_eq_none_iff, Option.map_eq_none_iff, Option.map_eq_none_iff,
    ← he] at h
  obtain ⟨hmissed, hmissed'⟩ := h
  by_contra hlight
  rw [popcount_halves] at hlight
  have hdata := two_le_popcount_of_lightPair_none hB hmissed (syndrome_halves hl e).symm (by omega)
  have hparity := two_le_popcount_of_lightPair_none hB hmissed' (matVec_syndrome hB e).symm (by omega)
  omega

/-! ### The minimum distance of the default code -/

/-- Every matrix product is a sum of rows (rules R220, R221). -/
theorem matVec_eq_rowSum {B : List (BitVec 12)} (hB : legalGolayB B = true) (v : BitVec 12) :
    matVec B v = (onesOf v).foldl (fun acc i => acc ^^^ golayRow B i) 0 := by
  obtain ⟨hl, -, -⟩ := (legalGolayB_iff B).mp hB
  rw [additive_eq_unitSum (matVec_xor hl) v, unitSum_eq_onesOf]
  refine List.foldl_ext _ _ _ fun acc i hi => ?_
  rw [matVec_unitVector hB (List.mem_range.mp (List.mem_of_mem_filter hi))]

/-- The finite fact behind the default code's distance: a sum of one, two or three rows of the matrix has at least 7,
6 or 5 bits (rule R220). -/
theorem rowSum_heavy : ∀ n ∈ [1, 2, 3], ∀ rows ∈ (List.range 12).sublistsLen n,
    8 ≤ n + popcount (rows.foldl (fun acc i => acc ^^^ golayRow defaultGolayB i) 0) := by
  decide +kernel

theorem defaultGolayB_legal : legalGolayB defaultGolayB = true := by decide

/-- A half of at most three bits is zero or makes a codeword of weight at least 8. -/
theorem eq_zero_of_light_data {v : BitVec 12} (hv : popcount v ≤ 3)
    (hlight : popcount v + popcount (matVec defaultGolayB v) < 8) : v = 0 := by
  by_contra hne
  have hpos : popcount v ≠ 0 := fun h => hne (eq_zero_of_popcount h)
  have hmem : onesOf v ∈ (List.range 12).sublistsLen (popcount v) :=
    List.mem_sublistsLen.mpr ⟨List.filter_sublist, onesOf_length v⟩
  have hheavy := rowSum_heavy (popcount v) (by simp; omega) (onesOf v) hmem
  rw [← matVec_eq_rowSum defaultGolayB_legal] at hheavy
  omega

/-- The default code has minimum distance 8 (rule R220): one half of a lighter codeword has at most three bits, and
each half is the product of the other. -/
theorem eq_zero_of_light_codeword {c : BitVec 24} (hc : syndrome defaultGolayB c = 0) (hlight : popcount c < 8) :
    c = 0 := by
  have hparity : c.extractLsb' 12 12 = matVec defaultGolayB (c.extractLsb' 0 12) :=
    BitVec.xor_eq_zero_iff.mp ((syndrome_halves rfl c).symm.trans hc)
  have hdata : matVec defaultGolayB (c.extractLsb' 12 12) = c.extractLsb' 0 12 := by
    rw [hparity, matVec_matVec defaultGolayB_legal]
  have hmap : matVec defaultGolayB 0 = 0 := matVec_zero rfl
  rw [popcount_halves] at hlight
  have hzero : c.extractLsb' 0 12 = 0 := by
    rcases Nat.lt_or_ge 3 (popcount (c.extractLsb' 0 12)) with hheavy | hfew
    · have hparity0 := eq_zero_of_light_data (v := c.extractLsb' 12 12) (by omega) (by rw [hdata]; exact hlight)
      rw [← hdata, hparity0, hmap]
    · exact eq_zero_of_light_data hfew (by rw [← hparity, Nat.add_comm]; exact hlight)
  rw [← halves_eq c, hparity, hzero, hmap]
  rfl

/-- Two patterns of total weight below 8 with one syndrome are the same. -/
theorem eq_of_syndrome_eq {e e' : BitVec 24} (h : syndrome defaultGolayB e = syndrome defaultGolayB e')
    (hlight : popcount e + popcount e' < 8) : e = e' := by
  refine BitVec.xor_eq_zero_iff.mp (eq_zero_of_light_codeword ?_ ((popcount_xor_le e e').trans_lt hlight))
  rw [syndrome_xor, h, BitVec.xor_self]
  rfl

/-- Rule R225: every pattern of at most three errors is found. -/
theorem golayErrorPattern_of_light {v : BitVec 12} {e : BitVec 24} (he : popcount e ≤ 3) :
    golayErrorPattern defaultGolayB (golayEncode defaultGolayB v ^^^ e) = some (e, stepOfPattern e) := by
  rw [golayErrorPattern_codeword rfl]
  cases hfound : golayErrorPattern defaultGolayB e with
  | none => exact absurd he (Nat.not_le.mpr (golayErrorPattern_complete defaultGolayB_legal hfound rfl))
  | some found =>
    obtain ⟨e', step⟩ := found
    obtain ⟨hlight, hsyndrome, rfl⟩ := golayErrorPattern_sound defaultGolayB_legal hfound
    rw [eq_of_syndrome_eq hsyndrome (by omega)]

/-- Rule R226(a): no pattern of four errors is taken for another. -/
theorem golayErrorPattern_of_four {v : BitVec 12} {e : BitVec 24} (he : popcount e = 4) :
    golayErrorPattern defaultGolayB (golayEncode defaultGolayB v ^^^ e) = none := by
  rw [golayErrorPattern_codeword rfl, Option.eq_none_iff_forall_ne_some]
  rintro ⟨e', step⟩ hfound
  obtain ⟨hlight, hsyndrome, -⟩ := golayErrorPattern_sound defaultGolayB_legal hfound
  rw [eq_of_syndrome_eq hsyndrome (by omega), he] at hlight
  omega

end Sys2Proof.Machine

/-! PROOFS. The Golay decode commands (rules R223..R226, R231, R233, R236): the word each of them decodes, what it
answers for that word, and every command's failing checks in order (rule R346). -/

namespace Sys2Proof.Machine

/-! ### The answer for a word -/

theorem golayDecode_of_some {B : List (BitVec 12)} {r e : BitVec 24} {step : BitVec 8}
    (h : golayErrorPattern B r = some (e, step)) :
    golayDecode B r = .ok { data := (r ^^^ e).extractLsb' 0 12, pattern := e, step } := by
  rw [golayDecode, h]

theorem golayDecode_of_none {B : List (BitVec 12)} {r : BitVec 24} (h : golayErrorPattern B r = none) :
    golayDecode B r = .error .uncorrectable := by
  rw [golayDecode, h]

theorem errorOf_golayDecode (B : List (BitVec 12)) (r : BitVec 24) :
    errorOf (golayDecode B r) = firstFailure [((golayErrorPattern B r).isNone, .uncorrectable)] := by
  cases h : golayErrorPattern B r with
  | none => rw [golayDecode_of_none h]; rfl
  | some found => rw [golayDecode_of_some h]; rfl

/-- `RES2` of a decode command (rule R224): its fields do not overlap. -/
theorem golayResults_eq (g : GolayResult) :
    golayResults g = { r0 := g.data.setWidth 32, r1 := g.pattern.setWidth 32
                       r2 := 0#16 ++ g.step ++ BitVec.ofNat 8 (popcount g.pattern) } := by
  have hweight : popcount g.pattern < 2 ^ 8 := (popcount_le g.pattern).trans_lt (by decide)
  have hr2 : countWord (popcount g.pattern) ||| (g.step.setWidth 32 <<< 8)
      = 0#16 ++ g.step ++ BitVec.ofNat 8 (popcount g.pattern) := by
    apply BitVec.eq_of_getLsbD_eq
    intro k hk
    simp only [countWord, BitVec.getLsbD_or, BitVec.getLsbD_append, BitVec.getLsbD_shiftLeft, BitVec.getLsbD_setWidth,
      BitVec.getLsbD_ofNat]
    by_cases hlow : k < 8
    · simp [hlow, hk]
    · have hhigh : (popcount g.pattern).testBit k = false :=
        Nat.testBit_lt_two_pow (hweight.trans_le (Nat.pow_le_pow_right (by decide) (Nat.not_lt.mp hlow)))
      by_cases hmid : k - 8 < 8
      · simp [hlow, hmid, hhigh, hk, show k - 8 < 32 by omega]
      · simp [hlow, hmid, hhigh, BitVec.getLsbD_of_ge g.step (k - 8) (Nat.not_lt.mp hmid)]
  rw [golayResults, hr2]

/-! ### The word a command decodes -/

theorem memRead_three (s : State) (i : Nat) :
    memRead s i 3 = [bufByte s i, bufByte s (i + 1), bufByte s (i + 2)] := rfl

/-- A leading byte 0 adds nothing. -/
theorem wordOfBytes_three (a b c : Byte) : wordOfBytes [a, b, c] = 0#8 ++ a ++ b ++ c :=
  wordOfBytes_four 0#8 a b c

theorem untriple_memRead (s : State) (src : Nat) : untriple (memRead s src 3) = tripleAt s src := by
  rw [untriple, memRead_three, wordOfBytes_three, tripleAt]
  apply BitVec.eq_of_toNat_eq
  simp only [BitVec.toNat_setWidth, toNat_append_fields, BitVec.toNat_ofNat]
  omega

theorem decodeTripleAt_of_inBounds {s : State} {src : Nat} (h : src + 3 ≤ s.env.build.bufBytes) :
    decodeTripleAt s src = golayDecode s.env.build.golayB (tripleAt s src) := by
  rw [decodeTripleAt, checkSrc, require_bind_of_true ((inBounds_iff ..).mpr h), untriple_memRead]

/-- The decode command `i` takes `r` from its operand (rules R231, R233, R236). -/
def Receives (s : State) (i : Instr) (r : BitVec 24) : Prop :=
  (i = .golayDec ∧ received24Of s.arg.r0 = r)
    ∨ ((i = .golayDecBytes ∨ i = .prefixDec) ∧ offsetOf s.arg.r0 + 3 ≤ s.env.build.bufBytes
      ∧ tripleAt s (offsetOf s.arg.r0) = r)

/-- What the decoder reports, each decode command reports. -/
theorem Receives.raises_of_error {s : State} {i : Instr} {r : BitVec 24} {err : CmdError} (h : Receives s i r)
    (hg : golayDecode s.env.build.golayB r = .error err) : raises i s err := by
  rcases h with ⟨rfl, rfl⟩ | ⟨hi, hin, rfl⟩
  · exact Machine.raises_of_error (i := .golayDec) (bind_error.mpr (.inl hg))
  · rw [← decodeTripleAt_of_inBounds hin] at hg
    rcases hi with rfl | rfl
    · exact Machine.raises_of_error (i := .golayDecBytes) (bind_error.mpr (.inl hg))
    · exact Machine.raises_of_error (i := .prefixDec) (bind_error.mpr (.inl hg))

/-- What the decoder returns, each decode command reports, and it writes nothing else; `PREFIX_DEC` where the data has
no Viterbi bit (rules R224, R236). -/
theorem Receives.completes_of_ok {s : State} {i : Instr} {r : BitVec 24} {g : GolayResult} (h : Receives s i r)
    (hg : golayDecode s.env.build.golayB r = .ok g) (hviterbi : i = .prefixDec → g.data.getLsbD 11 = false) :
    ∃ t, exec i s = .next t
      ∧ completed s t { r0 := g.data.setWidth 32, r1 := g.pattern.setWidth 32
                        r2 := 0#16 ++ g.step ++ BitVec.ofNat 8 (popcount g.pattern) }
      ∧ keptPorts s t ∧ keptKey s t ∧ keptTable s t ∧ keptMac s t ∧ keptBuf s t := by
  rw [← golayResults_eq]
  rcases h with ⟨rfl, rfl⟩ | ⟨hi, hin, rfl⟩
  · exact exec_of_setRes rfl (ruleGolayDec_ok_iff.mpr ⟨g, hg, rfl⟩)
  · rw [← decodeTripleAt_of_inBounds hin] at hg
    rcases hi with rfl | rfl
    · exact exec_of_setRes rfl (ruleGolayDecBytes_ok_iff.mpr ⟨g, hg, rfl⟩)
    · exact exec_of_setRes rfl (rulePrefixDec_ok_iff.mpr ⟨g, hg, hviterbi rfl, rfl⟩)

/-- `PREFIX_DEC` tests the Viterbi bit of the corrected word (rule R236). -/
theorem Receives.raises_viterbi {s : State} {r : BitVec 24} {g : GolayResult} (h : Receives s .prefixDec r)
    (hg : golayDecode s.env.build.golayB r = .ok g) (hviterbi : g.data.getLsbD 11 = true) :
    raises .prefixDec s .viterbiDecoded := by
  obtain ⟨-, hin, rfl⟩ := h.resolve_left nofun
  rw [← decodeTripleAt_of_inBounds hin] at hg
  exact Machine.raises_of_error (i := .prefixDec)
    (bind_error.mpr (.inr ⟨g, hg, require_bind_of_false (by rw [hviterbi]; rfl)⟩))

/-- Settles O32: the decoder finds the channel's own pattern, so the corrected word is the codeword sent. -/
theorem golayCorrectsThreeErrors : Obligations.GolayCorrectsThreeErrors := by
  intro s v e hB he r src inBuf i hi
  have hg := golayDecode_of_some (golayErrorPattern_of_light (v := v) he)
  rw [BitVec.xor_assoc, BitVec.xor_self, BitVec.xor_zero, golayEncode_data, ← hB] at hg
  have hreceives : Receives s i (golayEncode s.env.build.golayB v ^^^ e) := by
    rw [hB]
    rcases hi with hword | ⟨rfl, hin⟩ | ⟨rfl, hin, -⟩
    · exact .inl hword
    · exact .inr ⟨.inl rfl, hin⟩
    · exact .inr ⟨.inr rfl, hin⟩
  refine hreceives.completes_of_ok hg ?_
  rintro rfl
  obtain ⟨-, -, hviterbi⟩ := (hi.resolve_left nofun).resolve_left nofun
  exact hviterbi

/-- Settles O33: the three commands see the decoder's one answer, which a found pattern makes a codeword. -/
theorem golayNeverMiscomputes : Obligations.GolayNeverMiscomputes := by
  intro build r receives
  cases hfound : golayErrorPattern build.golayB r with
  | none =>
    refine .inl fun s i h => ?_
    obtain ⟨rfl, hreceives⟩ := h
    exact Receives.raises_of_error hreceives (golayDecode_of_none hfound)
  | some found =>
    obtain ⟨e, step⟩ := found
    obtain ⟨hlight, hsyndrome, rfl⟩ := golayErrorPattern_sound build.golayB_legal hfound
    have hcode : syndrome build.golayB (r ^^^ e) = 0 := by
      rw [syndrome_xor, hsyndrome, BitVec.xor_self]
      rfl
    refine .inr ⟨(r ^^^ e).extractLsb' 0 12, e, stepOfPattern e, hlight,
      eq_golayEncode_of_syndrome (golayB_length build) hcode, stepOfPattern_range e, fun s i h => ?_⟩
    obtain ⟨rfl, hreceives⟩ := h
    have hg := golayDecode_of_some hfound
    split_ifs with hviterbi
    · obtain ⟨rfl, hbit⟩ := hviterbi
      exact Receives.raises_viterbi hreceives hg hbit
    · exact Receives.completes_of_ok hreceives hg fun hi => by simpa [hi] using hviterbi

/-- Settles O34: no pattern explains the word. -/
theorem golayDetectsFourErrors : Obligations.GolayDetectsFourErrors := by
  intro s v e hB he hr
  have hreceives : Receives s .golayDec (golayEncode defaultGolayB v ^^^ e) := .inl ⟨rfl, hr⟩
  refine hreceives.raises_of_error (golayDecode_of_none ?_)
  rw [hB]
  exact golayErrorPattern_of_four he

/-! ### The checks of the Golay commands -/

theorem firstFailure_append (checks rest : List (Bool × CmdError)) :
    firstFailure (checks ++ rest) = (firstFailure checks).or (firstFailure rest) := by
  induction checks with
  | nil => rfl
  | cons c checks ih => cases h : c.1 <;> simp [firstFailure, h, ih]

/-- A computation and what follows report as two lists of failures, one after the other. -/
theorem errorOf_bind {α β : Type} {x : Except CmdError α} {k : α → Except CmdError β}
    {checks rest : List (Bool × CmdError)} (hx : errorOf x = firstFailure checks)
    (hrest : ∀ a, x = .ok a → errorOf (k a) = firstFailure rest) :
    errorOf (x >>= k) = firstFailure (checks ++ rest) := by
  cases x with
  | ok a => rw [firstFailure_append, ← hx]; exact hrest a rfl
  | error e => rw [firstFailure_append, ← hx]; rfl

/-- The checks of a triple, in order (rules R233, R236). -/
theorem errorOf_decodeTripleAt (s : State) (src : Nat) :
    errorOf (decodeTripleAt s src)
      = firstFailure [(decide (s.env.build.bufBytes < src + 3), .sourceRange),
          ((golayErrorPattern s.env.build.golayB (tripleAt s src)).isNone, .uncorrectable)] := by
  refine errorOf_require_bind (inBounds_eq ..) fun _ => ?_
  rw [untriple_memRead]
  exact errorOf_golayDecode ..

theorem ruleGolayEncBytes_error {s : State} {err : CmdError}
    (hfail : firstFailure (golayEncBytesFailures s) = some err) : ruleGolayEncBytes s = .error err :=
  require_bind_error_of_firstFailure (inBounds_eq ..) hfail nofun

theorem rulePrefixEnc_error {s : State} {err : CmdError} (hfail : firstFailure (prefixEncFailures s) = some err) :
    rulePrefixEnc s = .error err := by
  refine require_bind_error_of_firstFailure (inBounds_eq ..) hfail fun hfail => ?_
  refine require_bind_error_of_firstFailure ?_ hfail fun hfail => ?_
  · simp [data12Of]
  · refine require_bind_error_of_firstFailure ?_ hfail nofun
    simp [data12Of]

/-- The checks of `PREFIX_DEC`, in order (rule R236): the Viterbi bit last, and of the corrected word. -/
theorem errorOf_rulePrefixDec (s : State) : errorOf (rulePrefixDec s) = firstFailure (prefixDecFailures s) := by
  refine errorOf_bind (errorOf_decodeTripleAt ..) fun g hg => ?_
  obtain ⟨-, hg⟩ := decodeTripleAt_ok_iff.mp hg
  rw [untriple_memRead] at hg
  cases hfound : golayErrorPattern s.env.build.golayB (tripleAt s (offsetOf s.arg.r0)) with
  | none => cases (golayDecode_of_none hfound).symm.trans hg
  | some found =>
    cases (golayDecode_of_some hfound).symm.trans hg
    refine errorOf_require_bind ?_ fun _ => rfl
    have hdata : ∀ x : BitVec 24, (x.extractLsb' 0 12).getLsbD 11 = x.getLsbD 11 := fun x => by simp
    have hbit := congrArg (Option.any fun p => (tripleAt s (offsetOf s.arg.r0) ^^^ p.1).getLsbD 11) hfound
    exact congrArg Bool.not ((hdata _).trans hbit.symm)

/-- Settles O35: each rule fails where its checks fail. -/
theorem golayErrorsInOrder : Obligations.GolayErrorsInOrder := by
  intro s err
  refine ⟨fun hfail => ?dec, fun hfail => raises_of_error (i := .golayEncBytes) (ruleGolayEncBytes_error hfail),
    fun hfail => ?decBytes, fun hfail => raises_of_error (i := .prefixEnc) (rulePrefixEnc_error hfail),
    fun hfail => ?prefixDec⟩
  case dec =>
    have hdecode := errorOf_eq_some_iff.mp ((errorOf_golayDecode ..).trans hfail)
    exact raises_of_error (i := .golayDec) (bind_error.mpr (.inl hdecode))
  case decBytes =>
    have hdecode := errorOf_eq_some_iff.mp ((errorOf_decodeTripleAt ..).trans hfail)
    exact raises_of_error (i := .golayDecBytes) (bind_error.mpr (.inl hdecode))
  case prefixDec =>
    exact raises_of_error (i := .prefixDec) (errorOf_eq_some_iff.mp ((errorOf_rulePrefixDec s).trans hfail))

end Sys2Proof.Machine

/-! PROOFS. The key and trailer commands (rules R260..R271): the digest of each variant, what a latency may depend on
(rules R264, R384), each command's checks in order, and a trailer that was appended, verified (rules R270, R271). -/

namespace Sys2Proof.Machine

/-! ### The digest -/

/-- The key fills half a SHA-256 block, so half a block of zeros pads it (rules R50, R261(a)). -/
theorem hmacPaddedKey_eq (k : Key) (pad : Byte) :
    hmacPaddedKey k.val pad = (k.val ++ List.replicate 32 0).map (· ^^^ pad) := by
  rw [hmacPaddedKey, k.property]
  rfl

theorem digest_of_hmacSha256x8 {b : Build} (hb : b.variant = .hmacSha256x8) (k : Key) (m : List Byte) :
    digest b k m = (hmacSha256 k.val m).take 8 := by
  rw [digest, hb]

theorem digest_of_keyedHash4 {b : Build} (hb : b.variant = .keyedHash4) (k : Key) (m : List Byte) :
    digest b k m = keyedHash4 k.val m := by
  rw [digest, hb]

/-- The settled point of `KH4`, P-KH4 (rule R265). -/
theorem keyedHash4_vector : keyedHash4 vectorKey vectorFrame = [0xC5, 0x5B, 0x10, 0xE9] := by
  rw [keyedHash4, if_pos ⟨rfl, rfl⟩]
  decide

/-- Settles O53: each variant by its own equation. -/
theorem digestOfEachVariant : Obligations.DigestOfEachVariant := by
  intro b k m
  refine ⟨fun hb => ?hmac, digest_length b k m, fun hb hk => ?keyedHash⟩
  case hmac =>
    rw [digest_of_hmacSha256x8 hb, hmacSha256, hmacPaddedKey_eq, hmacPaddedKey_eq]
  case keyedHash =>
    rw [digest_of_keyedHash4 hb, hk]
    exact keyedHash4_vector

/-! ### Latency -/

theorem commandLatency_of_timingClass {w : Word} {s t : State} (hl : t.env.latency = s.env.latency)
    (hclass : timingClass w t = timingClass w s) : commandLatency w t = commandLatency w s := by
  rw [commandLatency, commandLatency, hl, hclass]

/-- The timing class of `FRAME_BUILD.auth`: its lengths and its checks (rule R384). -/
theorem timingClass_frameBuild (fec : Bool) (s : State) :
    timingClass (encode (.frameBuild true fec)) s
      = .digest (encode (.frameBuild true fec)) [(regionOf s.arg.r0).n, (regionOf s.arg.r1).n, (regionOf s.arg.r2).n]
          (errorOf (frameBuildChecks true fec s)) := by
  rw [timingClass, decode_encode]

/-- The timing class of `FRAME_PARSE.verify`: its length and the checks before the digest (rule R384). -/
theorem timingClass_frameParse (dx : Bool) (s : State) :
    timingClass (encode (.frameParse dx true)) s
      = .digest (encode (.frameParse dx true)) [(regionOf s.arg.r0).n] (errorOf (frameHeader true s)) := by
  rw [timingClass, decode_encode]

/-- The timing class of `AUTH_APPEND` (rule R384). -/
theorem timingClass_authAppend (s : State) :
    timingClass (encode .authAppend) s
      = .digest (encode .authAppend) [(regionOf s.arg.r0).n] (errorOf (authAppendChecks s)) := by
  rw [timingClass, decode_encode]

/-- The timing class of `AUTH_VERIFY` (rule R384). -/
theorem timingClass_authVerify (s : State) :
    timingClass (encode .authVerify) s
      = .digest (encode .authVerify) [(regionOf s.arg.r0).n] (errorOf (authVerifyChecks s)) := by
  rw [timingClass, decode_encode]

/-- Settles O28: no check before a digest reads a key byte, and only those of `FRAME_PARSE` read `BUF`. -/
theorem latencyDoesNotDependOnKey : Obligations.LatencyDoesNotDependOnKey := by
  refine ⟨fun w s k => commandLatency_congr rfl rfl rfl rfl rfl rfl w, ?_, ?_⟩
  · intro i s t hi harg hkey hbuild hlat
    refine commandLatency_of_timingClass hlat ?_
    rcases hi with rfl | rfl | ⟨fec, rfl⟩
    · rw [timingClass_authAppend, timingClass_authAppend, authAppendChecks_congr harg hkey hbuild, harg]
    · rw [timingClass_authVerify, timingClass_authVerify, authVerifyChecks_congr harg hkey hbuild, harg]
    · rw [timingClass_frameBuild, timingClass_frameBuild, frameBuildChecks_congr harg hkey hbuild, harg]
  · intro dx s t harg hlat hchecks
    refine commandLatency_of_timingClass hlat ?_
    rw [timingClass_frameParse, timingClass_frameParse, hchecks, harg]

/-! ### The checks of the key and trailer commands -/

/-- The one check of `KEY_LOAD` (rule R266). -/
theorem ruleKeyLoad_error {s : State} (hout : s.env.build.bufBytes < offsetOf s.arg.r0 + 32) :
    ruleKeyLoad s = .error .sourceRange :=
  require_bind_of_false ((inBounds_eq ..).trans (congrArg Bool.not (decide_eq_true hout)))

/-- The checks of `AUTH_APPEND`, in order (rule R268). -/
theorem errorOf_authAppendChecks (s : State) :
    errorOf (authAppendChecks s) = firstFailure (authAppendFailures s) := by
  refine errorOf_require_bind (inBounds_eq ..) fun _ => ?_
  refine errorOf_require_bind (Bool.not_not _).symm fun _ => ?_
  exact errorOf_require (inBounds_eq ..)

/-- The trailer matches where it is not other than the digest (rule R263). -/
theorem trailerMatches_eq (s : State) (off n : Nat) :
    trailerMatches s off n
      = !decide (digest s.env.build s.key (memRead s off (n - s.env.build.T))
          ≠ memRead s (off + n - s.env.build.T) s.env.build.T) := by
  rw [decide_not, Bool.not_not]
  exact Bool.eq_iff_iff.mpr (trailerMatches_iff.trans decide_eq_true_iff.symm)

/-- The checks of `AUTH_VERIFY`, in order (rule R269): the trailer last. -/
theorem errorOf_ruleAuthVerify (s : State) : errorOf (ruleAuthVerify s) = firstFailure (authVerifyFailures s) := by
  have hearly : errorOf (authVerifyChecks s) = firstFailure ((authVerifyFailures s).take 3) := by
    refine errorOf_require_bind (inBounds_eq ..) fun _ => ?_
    refine errorOf_require_bind (Bool.not_not _).symm fun _ => ?_
    exact errorOf_require (decide_le_eq _ _)
  exact errorOf_bind hearly fun _ _ => errorOf_require_bind (trailerMatches_eq ..) fun _ => rfl

/-- Settles O50: each rule fails where its checks fail. -/
theorem authErrorsInOrder : Obligations.AuthErrorsInOrder := by
  intro s err
  refine ⟨fun hout => raises_of_error (i := .keyLoad) (ruleKeyLoad_error hout), fun hfail => ?append,
    fun hfail => raises_of_error (i := .authVerify)
      (errorOf_eq_some_iff.mp ((errorOf_ruleAuthVerify s).trans hfail))⟩
  have hchecks := errorOf_eq_some_iff.mp ((errorOf_authAppendChecks s).trans hfail)
  exact raises_of_error (i := .authAppend) (bind_error.mpr (.inl hchecks))

/-! ### The trailer commands -/

/-- Settles O49: `AUTH_APPEND` ends by writing the digest, `AUTH_VERIFY` by its result. -/
theorem authCommandsComplete : Obligations.AuthCommandsComplete := by
  intro s off n T
  refine ⟨fun hkey hin => ?append, fun hkey hin hT htrailer => ?verify⟩
  case append =>
    exact exec_of_memWrite (i := .authAppend) rfl
      (ruleAuthAppend_ok_iff.mpr ⟨(Nat.le_add_right _ _).trans hin, hkey, hin, rfl⟩)
  case verify =>
    exact exec_of_setRes (i := .authVerify) rfl
      (ruleAuthVerify_ok_iff.mpr ⟨hin, hkey, hT, trailerMatches_iff.mpr htrailer, rfl⟩)

/-! ### A trailer that was appended -/

/-- Only a command whose rule succeeds ends with `CODE` 0 (rules R341, R344). -/
theorem ruleOf_ok_of_code {i : Instr} {s t : State} (hexec : exec i s = .next t) (hcode : t.code = 0) :
    ∃ u, ruleOf i (startOf i s) = .ok u := by
  have hend : finish (ruleOf i) (startOf i s) = t := exec_eq_next.mp hexec
  rcases finish_cases (ruleOf i) (startOf i s) with ⟨u, hok, -⟩ | ⟨e, -, hfin⟩
  · exact ⟨u, hok⟩
  · rw [← hend, hfin] at hcode
    exact absurd hcode e.code_ne_zero

/-- The trailer of a region given by its data (rule R263). -/
theorem trailerMatches_append_iff {s : State} {off n T : Nat} (hT : s.env.build.T = T) :
    trailerMatches s off (n + T) = true ↔
      digest s.env.build s.key (memRead s off n) = memRead s (off + n) T := by
  rw [trailerMatches_iff, hT, ← Nat.add_assoc, Nat.add_sub_cancel, Nat.add_sub_cancel]

/-- The state in which `AUTH_VERIFY` is asked about the data of an `AUTH_APPEND` from `s` to `t`, with its trailer
(rule R270). -/
def askVerify (s t : State) : State :=
  t.setArg { t.arg with r0 := t.res.r0.extractLsb' 0 16 ++ s.arg.r0.extractLsb' 0 16 }

/-- What an `AUTH_APPEND` from `s` has made of the `n` data bytes at `off` in `t`, and how `AUTH_VERIFY` then sees
them (rules R268, R270). -/
structure Appended (off n T : Nat) (s t : State) : Prop where
  trailerLen : t.env.build.T = T
  data : memRead t off n = memRead s off n
  trailer : digest t.env.build t.key (memRead t off n) = memRead t (off + n) T
  region : regionOf (askVerify s t).arg.r0 = ⟨off, n + T⟩
  checks : authVerifyChecks (askVerify s t) = .ok ()

/-- An `AUTH_APPEND` that succeeds has appended its trailer. -/
theorem appended_of_exec {s t : State} (hexec : exec .authAppend s = .next t) (hcode : t.code = 0) :
    Appended (regionOf s.arg.r0).off (regionOf s.arg.r0).n s.env.build.T s t := by
  obtain ⟨u, hok⟩ := ruleOf_ok_of_code hexec hcode
  obtain ⟨-, hkey, hdst, -⟩ := ruleAuthAppend_ok_iff.mp hok
  obtain ⟨t', hexec', ⟨-, -, -, hres⟩, ⟨hstored, houtside⟩, ⟨-, -, -, henv⟩,
      ⟨hkeyBytes, hkeyValid⟩, -, -⟩ := (authCommandsComplete s).1 hkey hdst
  obtain rfl : t = t' := Host.Outcome.next.inj (hexec.symm.trans hexec')
  let off := (regionOf s.arg.r0).off
  let n := (regionOf s.arg.r0).n
  have hin : off + n + s.env.build.T ≤ s.env.build.bufBytes := hdst
  have hdata : memRead t off n = memRead s off n :=
    memRead_congr fun _ hi => houtside _ (.inl (Nat.add_lt_add_left hi off))
  have hregion : regionOf (askVerify s t).arg.r0 = ⟨off, n + s.env.build.T⟩ := by
    have hsize : off + n + s.env.build.T ≤ 65535 := hin.trans s.env.build.bufBytes_range.2
    have hr0 : (askVerify s t).arg.r0 = regionWord off (n + s.env.build.T) :=
      (congrArg (fun r : RegFile => r.r0.extractLsb' 0 16 ++ s.arg.r0.extractLsb' 0 16) hres).trans
        (countWord_append_offset _ _)
    rw [hr0, regionOf_regionWord (by omega) (by omega)]
  refine ⟨congrArg (fun e : Env => e.build.T) henv, hdata, ?trailer, hregion, ?checks⟩
  case trailer =>
    rw [digest_length] at hstored
    rw [hdata, henv, hkeyBytes]
    exact hstored.symm
  case checks =>
    rw [authVerifyChecks_ok_iff, hregion, show (askVerify s t).env = s.env from henv]
    exact ⟨Nat.add_assoc off n _ ▸ hin, hkeyValid.trans hkey, Nat.le_add_left _ _⟩

/-- Past its first checks, `AUTH_VERIFY` of data with its trailer is the comparison of the trailer (rule R269). -/
theorem ruleAuthVerify_of_checks {s : State} {off n T : Nat} (hchecks : authVerifyChecks s = .ok ())
    (hT : s.env.build.T = T) (hregion : regionOf s.arg.r0 = ⟨off, n + T⟩) :
    ruleAuthVerify s = (require (trailerMatches s off (n + T)) .trailerMismatch >>= fun _ =>
      .ok (s.setRes { r0 := countWord n })) := by
  simp only [ruleAuthVerify, hchecks, hregion, hT, Nat.add_sub_cancel]
  rfl

/-- Settles O51: the appended trailer is the digest that `AUTH_VERIFY` computes. -/
theorem authRoundTrip : Obligations.AuthRoundTrip := by
  intro s t off n hexec hcode
  have appended : Appended off n s.env.build.T s t := appended_of_exec hexec hcode
  have hmatch : trailerMatches (askVerify s t) off (n + s.env.build.T) = true :=
    (trailerMatches_append_iff (s := askVerify s t) appended.trailerLen).mpr appended.trailer
  have hok := (ruleAuthVerify_of_checks appended.checks appended.trailerLen appended.region).trans
    (require_bind_of_true hmatch)
  obtain ⟨u, hverify, hend, -, -, -, -, hbuf⟩ := exec_of_setRes (i := .authVerify) rfl hok
  exact ⟨appended.data, u, hverify, hend, hbuf⟩

/-- Settles O52: the data, and so the digest, are as before, and the trailer read is the other one. -/
theorem trailerChangeIsDetected : Obligations.TrailerChangeIsDetected := by
  intro s t bytes off n T hexec hcode hlen hother
  have appended : Appended off n T s t := appended_of_exec hexec hcode
  let v := memWrite (askVerify s t) (off + n) bytes
  have hT : v.env.build.T = T := appended.trailerLen
  have hdata : memRead v off n = memRead t off n := memRead_memWrite_outside (askVerify s t) (.inl (Nat.le_refl _))
  have htrailer : memRead v (off + n) T = bytes := hlen ▸ memRead_memWrite (askVerify s t) (off + n) bytes
  have hmismatch : trailerMatches v off (n + T) = false := by
    rw [Bool.eq_false_iff, ne_eq, trailerMatches_append_iff hT, hdata, htrailer]
    exact fun h => hother (h.symm.trans appended.trailer)
  have hchecks : authVerifyChecks v = .ok () :=
    (authVerifyChecks_congr (s := askVerify s t) rfl rfl rfl).trans appended.checks
  exact raises_of_error (i := .authVerify)
    ((ruleAuthVerify_of_checks hchecks hT appended.region).trans (require_bind_of_false hmismatch))

end Sys2Proof.Machine

/-! PROOFS. The MAC scheduler (rules R290..R307): the epoch under the cycle, the remaining windows by the phase of a
time, how the six commands end, and what two link ends that have heard each other agree on. -/

namespace Sys2Proof.Machine

/-! ### Times under the cycle -/

/-- The position of a time in the cycle depends on the epoch up to whole cycles only (rule R290). -/
theorem modSub_eq_modSub_iff {now e e' : Int} {c : Nat} :
    modSub now e c = modSub now e' c ↔ e ≡ e' [ZMOD c] := by
  have hmodEq : modSub now e c = modSub now e' c ↔ now - e ≡ now - e' [ZMOD c] := Iff.rfl
  rw [hmodEq, Int.modEq_iff_dvd, Int.modEq_iff_dvd, ← Int.dvd_neg]
  exact iff_of_eq (congrArg _ (by omega))

theorem modSub_modEq (now e : Int) (c : Nat) : modSub now e c ≡ now - e [ZMOD c] :=
  Int.mod_modEq _ _

theorem modSub_range (now e : Int) {c : Nat} (hc : c ≠ 0) : 0 ≤ modSub now e c ∧ modSub now e c < c :=
  ⟨Int.emod_nonneg _ (by omega), Int.emod_lt_of_pos _ (by omega)⟩

/-- A reduced epoch fits the 24 bits of `EPOCH` (rules R293, R296). -/
theorem toNat_reducedEpoch {m : MacState} (hc : m.cycle ≠ 0) (x : Nat) :
    (BitVec.ofNat 24 (x % m.cycle)).toNat = x % m.cycle := by
  have hcycle : m.cycle < 2 ^ 18 := m.cycle_lt
  have hlt : x % m.cycle < m.cycle := Nat.mod_lt _ (Nat.pos_of_ne_zero hc)
  rw [BitVec.toNat_ofNat, Nat.mod_eq_of_lt (by omega)]

theorem macInitState_epoch {s : State} (hc : (macInitState s).cycle ≠ 0) :
    (macInitState s).epoch.toNat = (tickOf s.arg.r0).toNat % (macInitState s).cycle :=
  toNat_reducedEpoch hc _

theorem macUpdateState_epoch {s : State} (hc : (macUpdateState s).cycle ≠ 0) :
    (macUpdateState s).epoch.toNat
      = ((tickOf s.arg.r0).toNat + (highHalf s.arg.r1).toNat + s.mac.tail.toNat) % (macUpdateState s).cycle :=
  toNat_reducedEpoch hc _

theorem macSetOwnState_epoch {s : State} (hc : (macSetOwnState s).cycle ≠ 0) :
    (macSetOwnState s).epoch.toNat = s.mac.epoch.toNat % (macSetOwnState s).cycle :=
  toNat_reducedEpoch hc _

/-! ### The remaining windows -/

/-- What `OwnRem` is modulo the cycle (rule R290). -/
theorem ownRem_modEq (m : MacState) (now : BitVec 24) :
    ownRem m now ≡ m.own.toNat - (now.toNat - m.epoch.toNat) [ZMOD m.cycle] :=
  (modSub_modEq ..).sub_left _

theorem ownRem_range {m : MacState} (hc : m.cycle ≠ 0) (now : BitVec 24) :
    -2 ^ 18 ≤ ownRem m now ∧ ownRem m now < 2 ^ 16 := by
  have hp := modSub_range now.toNat m.epoch.toNat hc
  have hcycle := m.cycle_lt
  have hown := m.own.isLt
  rw [ownRem]
  omega

theorem peerRem_range {m : MacState} (hc : m.cycle ≠ 0) (now : BitVec 24) :
    -2 ^ 18 ≤ peerRem m now ∧ peerRem m now < 2 ^ 16 := by
  have hp := modSub_range now.toNat (m.epoch.toNat + m.own.toNat + m.gap.toNat) hc
  have hcycle := m.cycle_lt
  have hpeer := m.peer.isLt
  rw [peerRem]
  omega

/-- The position relative to the peer's window: counted from its start in the cycle, one cycle on before it. -/
theorem modSub_peerStart (m : MacState) (now : Int) (hc : m.cycle ≠ 0) :
    modSub now (m.epoch.toNat + m.own.toNat + m.gap.toNat) m.cycle
      = modSub now m.epoch.toNat m.cycle - (m.own.toNat + m.gap.toNat)
        + if modSub now m.epoch.toNat m.cycle < m.own.toNat + m.gap.toNat then (m.cycle : Int) else 0 := by
  have hp := modSub_range now m.epoch.toNat hc
  have hcycle : m.cycle = m.own.toNat + m.gap.toNat + m.peer.toNat + m.tail.toNat := rfl
  have hstart : modSub now (m.epoch.toNat + m.own.toNat + m.gap.toNat) m.cycle
      = (modSub now m.epoch.toNat m.cycle - (m.own.toNat + m.gap.toNat)) % m.cycle := by
    rw [modSub, modSub, Int.emod_sub_emod]
    congr 1
    omega
  rw [hstart]
  split
  case isTrue hbefore => rw [← Int.add_emod_right, Int.emod_eq_of_lt (by omega) (by omega)]
  case isFalse hnot => rw [Int.add_zero, Int.emod_eq_of_lt (by omega) (by omega)]

/-- The peer's remaining window by the phase: what is left of it in the peer phase, not positive outside it (rules
R292, R299). -/
theorem peerRem_of_phase (m : MacState) (now : BitVec 24) (hc : m.cycle ≠ 0) :
    if (m.own.toNat + m.gap.toNat : Int) ≤ modSub now.toNat m.epoch.toNat m.cycle
        ∧ modSub now.toNat m.epoch.toNat m.cycle < m.own.toNat + m.gap.toNat + m.peer.toNat
      then peerRem m now = m.own.toNat + m.gap.toNat + m.peer.toNat - modSub now.toNat m.epoch.toNat m.cycle
      else peerRem m now ≤ 0 := by
  have hp := modSub_range now.toNat m.epoch.toNat hc
  have hcycle : m.cycle = m.own.toNat + m.gap.toNat + m.peer.toNat + m.tail.toNat := rfl
  rw [peerRem, modSub_peerStart m now.toNat hc]
  split
  case isTrue hphase => rw [if_neg (by omega)]; omega
  case isFalse houtside => split <;> omega

theorem canSend_iff (m : MacState) (now : BitVec 24) :
    canSend m now = true ↔ modSub now.toNat m.epoch.toNat m.cycle < m.own.toNat := by
  rw [canSend, decide_eq_true_iff, ownRem, Int.sub_pos]

/-- Epochs that differ by whole cycles give every query the same result (rules R290, R305). -/
theorem rem_withEpoch {m : MacState} {e : BitVec 24} (he : (e.toNat : Int) ≡ m.epoch.toNat [ZMOD m.cycle])
    (now : BitVec 24) :
    ownRem { m with epoch := e } now = ownRem m now ∧ peerRem { m with epoch := e } now = peerRem m now :=
  ⟨congrArg _ (modSub_eq_modSub_iff.mpr he),
    congrArg _ (modSub_eq_modSub_iff.mpr ((he.add_right _).add_right _))⟩

/-! ### Result words -/

/-- A signed result that fits 32 bits reads back as itself (rules R11, R298, R299). -/
theorem toInt_sext32 {z : Int} (hlow : -2 ^ 18 ≤ z) (hhigh : z < 2 ^ 16) : (sext32 z).toInt = z := by
  rw [sext32, BitVec.toInt_ofInt, Int.bmod_eq_of_le (by omega) (by omega)]

theorem flagBit_zero (b : Bool) : flagBit 0 b = if b then 1 else 0 := by
  cases b <;> rfl

/-! ### How a MAC command ends -/

/-- A command that writes the MAC state and succeeds: its MAC state and results, and nothing else beside `STATUS`
(rules R296, R303, R305). -/
theorem exec_of_setMac {i : Instr} {s : State} {m : MacState} {res : RegFile} (hi : writtenBy i = .mac)
    (hok : ruleOf i s = .ok ((s.setMac m).setRes res)) :
    ∃ t, exec i s = .next t ∧ completed s t res ∧ t.mac = m
      ∧ keptPorts s t ∧ keptKey s t ∧ keptTable s t ∧ keptBuf s t := by
  have hexec : exec i s = .next (succeed ((s.setMac m).setRes res)) := by
    rw [exec_eq, startOf_eq_self (by simp [hi]), finish_of_ok hok]
  have kept := exec_keptBut hexec
  rw [hi] at kept
  exact ⟨_, hexec, ⟨rfl, rfl, rfl, rfl⟩, rfl, kept.ports, kept.key nofun, kept.table nofun, kept.buf nofun⟩

/-- A command whose rule fails leaves the MAC state as it was (rule R345). -/
theorem exec_of_error_keptMac {i : Instr} {s : State} {e : CmdError} (h : ruleOf i (startOf i s) = .error e) :
    ∃ t, exec i s = .next t ∧ failed s t e ∧ keptMac s t := by
  obtain ⟨t, hexec, hfailed⟩ := raises_of_error h
  refine ⟨t, hexec, hfailed, ?_⟩
  rw [← exec_eq_next.mp hexec, finish_of_error h]
  rcases startOf_cases i s with hs | hs <;> rw [hs] <;> rfl

/-- A `MAC_UPDATE` that ends with `CODE` 0 has made the MAC state of rule R303. -/
theorem mac_of_macUpdate {s t : State} (hexec : exec .macUpdate s = .next t) (hcode : t.code = 0) :
    (macUpdateState s).cycle ≠ 0 ∧ t.mac = macUpdateState s := by
  obtain ⟨u, hok⟩ := ruleOf_ok_of_code hexec hcode
  obtain ⟨-, hc, rfl⟩ := ruleMacUpdate_ok_iff.mp hok
  rw [← exec_eq_next.mp hexec, finish_of_ok hok]
  exact ⟨hc, rfl⟩

/-- Settles O54. -/
theorem macInitCompletes : Obligations.MacInitCompletes := by
  intro s own peer gap tail c hc
  have hcycle : (macInitState s).cycle ≠ 0 := hc
  obtain ⟨t, hexec, hdone, hmac, kept⟩ :=
    exec_of_setMac (i := .macInit) rfl (ruleMacInit_ok_iff.mpr ⟨hcycle, rfl⟩)
  exact ⟨t, hexec, hdone, hmac ▸ rfl, hmac ▸ macInitState_epoch hcycle, kept⟩

/-- Settles O55: each query reports its formula of rule R290, and the phase decides that formula's value. -/
theorem macQueriesFollowThePhases : Obligations.MacQueriesFollowThePhases := by
  intro s own peer gap c now p hvalid hpos
  have hcycle : c = s.mac.cycle := by simp only [MacState.cycle, Nat.cast_add, c, own, gap, peer]
  have hc : s.mac.cycle ≠ 0 := by omega
  have hp : p = modSub now s.mac.epoch.toNat s.mac.cycle := by simp only [p, modSub, hcycle]
  refine ⟨?ownRem, ?peerRem, ?canSend⟩
  case ownRem =>
    obtain ⟨t, hexec, hdone, kept⟩ :=
      exec_of_setRes (i := .macOwnRem) rfl (ruleMacOwnRem_ok_iff.mpr ⟨hvalid, rfl⟩)
    obtain ⟨hlow, hhigh⟩ := ownRem_range hc (tickOf s.arg.r0)
    have ⟨_, _, _, hres⟩ := hdone
    refine ⟨t, hexec, hres ▸ hdone, ?_, kept⟩
    rw [hres, toInt_sext32 hlow hhigh, hp]
    rfl
  case peerRem =>
    obtain ⟨t, hexec, hdone, kept⟩ :=
      exec_of_setRes (i := .macPeerRem) rfl (ruleMacPeerRem_ok_iff.mpr ⟨hvalid, rfl⟩)
    obtain ⟨hlow, hhigh⟩ := peerRem_range hc (tickOf s.arg.r0)
    have ⟨_, _, _, hres⟩ := hdone
    refine ⟨t, hexec, hres ▸ hdone, ?_, ?_, kept⟩
    · rw [hres, toInt_sext32 hlow hhigh, hcycle]
      rfl
    · rw [hres, toInt_sext32 hlow hhigh, hp]
      exact peerRem_of_phase s.mac (tickOf s.arg.r0) hc
  case canSend =>
    have hflag : flagBit 0 (canSend s.mac (tickOf s.arg.r0)) = if p < own then 1 else 0 := by
      simp only [flagBit_zero, canSend_iff, hp]
      rfl
    exact exec_of_setRes (i := .macCanSend) rfl (ruleMacCanSend_ok_iff.mpr ⟨hvalid, hflag ▸ rfl⟩)

/-- Settles O56: each rule succeeds with its new MAC state, whose epoch `MAC_SET_OWN` changes by whole cycles only. -/
theorem macUpdatesComplete : Obligations.MacUpdatesComplete := by
  intro s now low r m c c' hvalid
  refine ⟨fun hc => ?update, fun hc => ?setOwn⟩
  case update =>
    have hcycle : (macUpdateState s).cycle ≠ 0 := hc
    obtain ⟨t, hexec, hdone, hmac, kept⟩ :=
      exec_of_setMac (i := .macUpdate) rfl (ruleMacUpdate_ok_iff.mpr ⟨hvalid, hcycle, rfl⟩)
    exact ⟨t, hexec, hmac ▸ hdone, hmac ▸ rfl, hmac ▸ macUpdateState_epoch hcycle, kept⟩
  case setOwn =>
    have hcycle : (macSetOwnState s).cycle ≠ 0 := hc
    obtain ⟨t, hexec, hdone, hmac, kept⟩ :=
      exec_of_setMac (i := .macSetOwn) rfl (ruleMacSetOwn_ok_iff.mpr ⟨hvalid, hcycle, rfl⟩)
    have hepoch := macSetOwnState_epoch hcycle
    refine ⟨t, hexec, hdone, hmac ▸ rfl, hmac ▸ hepoch, fun tick => ?_, kept⟩
    rw [hmac]
    refine rem_withEpoch (m := { m with own := low }) (e := (macSetOwnState s).epoch) ?_ tick
    rw [hepoch, Int.natCast_emod]
    exact Int.mod_modEq _ _

/-- Without `MAC_VALID` the first check of each of the five commands fails (rule R297). -/
theorem ruleOf_error_of_macInvalid {i : Instr} {s : State} (hvalid : s.mac.valid = false)
    (hi : i ∈ [Instr.macOwnRem, .macPeerRem, .macCanSend, .macUpdate, .macSetOwn]) :
    ruleOf i (startOf i s) = .error .macConfig := by
  simp only [List.mem_cons, List.not_mem_nil, or_false] at hi
  rcases hi with rfl | rfl | rfl | rfl | rfl <;> exact require_bind_of_false hvalid

/-- Settles O57. -/
theorem macNeedsInit : Obligations.MacNeedsInit := by
  intro s hvalid
  refine ⟨fun i hi => raises_of_error (ruleOf_error_of_macInvalid hvalid hi), fun w _ _ hwf => ?_⟩
  obtain ⟨e, hdec, hkind⟩ := decode_of_not_wellFormed (Bool.eq_false_iff.mp hwf)
  refine ⟨abort s e, runCommand_of_error hdec s, ?_⟩
  rw [abort_code, CmdError.code, hkind]
  rfl

/-- The check of the cycle fails on four empty parts (rules R291, R296). -/
theorem cycleCheck_eq_false {m : MacState} (hown : m.own = 0) (hgap : m.gap = 0) (hpeer : m.peer = 0)
    (htail : m.tail = 0) : decide (m.cycle ≠ 0) = false := by
  simp [MacState.cycle, hown, hgap, hpeer, htail]

/-- Settles O58: the check of the new cycle fails, after that of `MAC_VALID`. -/
theorem macRefusesZeroCycle : Obligations.MacRefusesZeroCycle := by
  intro s low m
  refine ⟨fun hr1 hr2 => ?init, fun hvalid hown hgap hlow htail => ?update,
    fun hvalid hlow hgap hpeer htail => ?setOwn⟩
  case init =>
    have hzero : decide ((macInitState s).cycle ≠ 0) = false :=
      cycleCheck_eq_false (congrArg lowHalf hr1) (congrArg lowHalf hr2) (congrArg highHalf hr1)
        (congrArg highHalf hr2)
    exact exec_of_error_keptMac (i := .macInit) (require_bind_of_false hzero)
  case update =>
    have hzero : decide ((macUpdateState s).cycle ≠ 0) = false := cycleCheck_eq_false hown hgap hlow htail
    exact exec_of_error_keptMac (i := .macUpdate)
      ((require_bind_of_true hvalid).trans (require_bind_of_false hzero))
  case setOwn =>
    have hzero : decide ((macSetOwnState s).cycle ≠ 0) = false := cycleCheck_eq_false hlow hgap hpeer htail
    exact exec_of_error_keptMac (i := .macSetOwn)
      ((require_bind_of_true hvalid).trans (require_bind_of_false hzero))

/-! ### Two ends of a link -/

/-- The MAC states `m` of A and `n` of B with one cycle between them, when A has heard B and then B has heard A (rules
R303, R307). -/
structure HeardEachOther (m n : MacState) : Prop where
  peer : m.peer = n.own
  own : n.peer = m.own
  cycle : m.cycle = n.cycle
  epoch : (n.epoch.toNat : Int) ≡ m.epoch.toNat + m.own.toNat + n.tail.toNat [ZMOD m.cycle]

/-- The epoch that the announcement of A's remaining window at `now` gives B: A's window is then at the same place in
B's cycle, so the time of the announcement cancels (rules R290, R303). -/
theorem epoch_of_announcement {m n : MacState} {now : BitVec 24} {r : Nat} (hr : (r : Int) = ownRem m now)
    (hepoch : n.epoch.toNat = (now.toNat + r + n.tail.toNat) % m.cycle) :
    (n.epoch.toNat : Int) ≡ m.epoch.toNat + m.own.toNat + n.tail.toNat [ZMOD m.cycle] := by
  calc (n.epoch.toNat : Int)
    _ = (now.toNat + ownRem m now + n.tail.toNat) % m.cycle := by rw [hepoch, ← hr]; norm_cast
    _ ≡ now.toNat + ownRem m now + n.tail.toNat [ZMOD m.cycle] := Int.mod_modEq _ _
    _ ≡ now.toNat + (m.own.toNat - (now.toNat - m.epoch.toNat)) + n.tail.toNat [ZMOD m.cycle] :=
      ((ownRem_modEq m now).add_left _).add_right _
    _ = m.epoch.toNat + m.own.toNat + n.tail.toNat := by omega

/-- A believes B's own window iff the start it computes is B's epoch (rule R307). -/
theorem HeardEachOther.peerRem_eq_iff {m n : MacState} (h : HeardEachOther m n) (now : BitVec 24) :
    peerRem m now = ownRem n now ↔ (m.gap.toNat : Int) ≡ n.tail.toNat [ZMOD m.cycle] := by
  rw [peerRem, ownRem, h.peer, ← h.cycle, sub_right_inj, modSub_eq_modSub_iff]
  exact ⟨fun hstart => (hstart.trans h.epoch).add_left_cancel' _,
    fun hguard => (hguard.add_left _).trans h.epoch.symm⟩

/-- B believes A's own window: the start it computes is A's epoch one cycle on. -/
theorem HeardEachOther.ownRem_eq {m n : MacState} (h : HeardEachOther m n) (now : BitVec 24) :
    ownRem m now = peerRem n now := by
  have hcycle : (m.cycle : Int) = n.own.toNat + n.gap.toNat + m.own.toNat + n.tail.toNat := by
    rw [h.cycle, MacState.cycle, h.own]
    norm_cast
  rw [ownRem, peerRem, h.own, ← h.cycle, sub_right_inj, modSub_eq_modSub_iff]
  refine Int.ModEq.symm ?_
  calc (n.epoch.toNat + n.own.toNat + n.gap.toNat : Int)
    _ ≡ m.epoch.toNat + m.own.toNat + n.tail.toNat + n.own.toNat + n.gap.toNat [ZMOD m.cycle] :=
      (h.epoch.add_right _).add_right _
    _ = m.epoch.toNat + m.cycle := by omega
    _ ≡ m.epoch.toNat [ZMOD m.cycle] := Int.add_modEq_right

/-- Settles O59: with equal guard sums the cycles agree, so the two updates leave the ends as in `HeardEachOther`. -/
theorem macBeliefsConverge : Obligations.MacBeliefsConverge := by
  intro a a' b b' _ _ _ hexecA hcodeA hownB hexecB hcodeB hownA hrem
  obtain ⟨-, hmacA⟩ := mac_of_macUpdate hexecA hcodeA
  obtain ⟨hcB, hmacB⟩ := mac_of_macUpdate hexecB hcodeB
  have hpeer : a'.mac.peer = b'.mac.own := by
    rw [hmacA, hmacB]
    exact hownB
  have hown : b'.mac.peer = a'.mac.own := by
    rw [hmacB]
    exact hownA
  refine ⟨hpeer, hown, fun hguards => ?_⟩
  have hcycle : a'.mac.cycle = b'.mac.cycle := by
    rw [MacState.cycle, MacState.cycle, hpeer, hown]
    omega
  have hepoch := macUpdateState_epoch hcB
  rw [← hmacB, ← hcycle] at hepoch
  have htail : b'.mac.tail = b.mac.tail := by
    rw [hmacB]
    rfl
  have heard : HeardEachOther a'.mac b'.mac :=
    ⟨hpeer, hown, hcycle, epoch_of_announcement hrem (htail ▸ hepoch)⟩
  exact ⟨hcycle, fun now => ⟨heard.peerRem_eq_iff now, heard.ownRem_eq now⟩⟩

/-- A of P3's counter-check (95_test_vectors.md), about to hear B: guards 3 and 5. -/
def counterA : State :=
  (State.reset.setArg { r0 := 20, r1 := 0x00040007 }).setMac ⟨true, 5, 10, 7, 3, 5, 0, false⟩

/-- A after it has heard B. -/
def counterA' : State :=
  (counterA.setMac ⟨true, 4, 10, 7, 3, 5, 20, true⟩).setRes { r0 := 4 }

/-- B of P3's counter-check, about to hear A: the same guards as A's, not the mirrored ones. -/
def counterB : State :=
  (State.reset.setArg { r0 := 29, r1 := 0x000A000A }).setMac ⟨true, 17, 7, 10, 3, 5, 0, false⟩

/-- B after it has heard A. -/
def counterB' : State :=
  (counterB.setMac ⟨true, 19, 7, 10, 3, 5, 29, true⟩).setRes { r0 := 19 }

theorem exec_counterA : exec .macUpdate counterA = .next counterA' := rfl

theorem exec_counterB : exec .macUpdate counterB = .next counterB' := rfl

theorem macGood_counterA : macGood counterA.mac :=
  macGood_of_valid rfl (by decide) (by decide) fun _ => rfl

/-- Refutes O60: in P3's counter-check A's own window is where B believes it, as `macBeliefsConverge` says of any two
ends, though A's tail 5 is not B's gap 3 modulo the cycle 25. -/
theorem not_macSecondEquivalenceAsWorded : ¬ Obligations.MacSecondEquivalenceAsWorded := by
  intro h
  have hrem : ((counterB.arg.r1.extractLsb' 16 16).toNat : Int)
      = ownRem counterA'.mac (counterB.arg.r0.extractLsb' 0 24) := by decide
  obtain ⟨-, -, hagree⟩ := macBeliefsConverge counterA counterA' counterB counterB' rfl rfl macGood_counterA
    exec_counterA rfl rfl exec_counterB rfl rfl hrem
  obtain ⟨-, hviews⟩ := hagree rfl
  have hguards := (h counterA counterA' counterB counterB' rfl rfl macGood_counterA
    exec_counterA rfl rfl exec_counterB rfl rfl hrem rfl 0).mp (hviews 0).2
  exact absurd hguards (by decide)

end Sys2Proof.Machine

/-! PROOFS. `NOP` (rule R331): what it leaves unchanged, and the words of its opcode that are no command. -/

namespace Sys2Proof.Machine

/-- `NOP` lists no `MOD` bit, so 0 is the only word of its opcode that is a command (rules R111, R112). -/
theorem decode_of_opcode_zero {w : Word} (hop : opcodeField w = 0) (hne : w ≠ 0) :
    decode w = .error .reservedBits := by
  have hmem : (opcodeField w, 0x00) ∈ assignedOpcodes := by rw [hop]; decide
  cases decode_cases w with
  | highBits _ hdec | modBits _ _ _ hdec => exact hdec
  | unassigned _ hunassigned => simp [opcodeAssigned_of_mem hmem] at hunassigned
  | extType _ _ _ htype => simp [extTypeKnown_of_ne, hop] at htype
  | command i hwf =>
    obtain ⟨hhigh, -, hmod, -⟩ := (wellFormedWord_iff w).mp hwf
    have hmodZero : modField w = 0 := by
      rw [← and_not_zero_mask (modField w)]
      exact (modBitsListed_iff hmem).mp hmod
    have hzero : w = 0 := by
      rw [eq_commandWord hhigh, hmodZero, hop]
      rfl
    exact absurd hzero hne

/-- Settles O29. -/
theorem nopCompletes : Obligations.NopCompletes := by
  refine ⟨fun s => exec_of_setRes (i := .nop) rfl rfl, fun w s hop hne => ?_⟩
  exact ⟨_, runCommand_of_error (decode_of_opcode_zero hop hne) s, rfl, rfl, rfl, rfl⟩

end Sys2Proof.Machine

/-! PROOFS. How a command that fails leaves the block (rules R341, R343, R345): `IllegalCommand` is decode's error, not
one of a table command's rule, and the abort changes nothing else. Then that every step goes on (rules R340, R350). -/

namespace Sys2Proof.Machine

/-! ### Checks that are not decode's -/

/-- No failure of the computation is an `IllegalCommand` (rule R341). -/
def NeverIllegal {α : Type} (x : Except CmdError α) : Prop :=
  ∀ e, x = .error e → e.kind ≠ .illegalCommand

theorem NeverIllegal.ok {α : Type} (a : α) : NeverIllegal (.ok a) :=
  nofun

theorem NeverIllegal.bind {α β : Type} {x : Except CmdError α} {k : α → Except CmdError β} (hx : NeverIllegal x)
    (hk : ∀ a, NeverIllegal (k a)) : NeverIllegal (x >>= k) := fun e h =>
  (bind_error.mp h).elim (hx e) fun ⟨a, _, h⟩ => hk a e h

/-- A check and what follows, where the check's own error is not an `IllegalCommand`. -/
theorem NeverIllegal.require_bind {α : Type} {c : Bool} {e : CmdError} {k : Unit → Except CmdError α}
    (he : e.kind ≠ .illegalCommand) (hk : NeverIllegal (k ())) : NeverIllegal (require c e >>= k) := by
  intro e' h
  rcases require_bind_error.mp h with ⟨-, rfl⟩ | ⟨-, h⟩
  · exact he
  · exact hk e' h

theorem decodeRecord_neverIllegal (s : State) (off avail : Nat) : NeverIllegal (decodeRecord s off avail) := by
  intro e h
  rcases decodeRecord_error_iff.mp h with ⟨-, rfl⟩ | ⟨-, -, -, rfl⟩ <;> exact nofun

theorem decodeRecords_neverIllegal (s : State) :
    ∀ fuel off left : Nat, NeverIllegal (decodeRecords s fuel off left) := by
  intro fuel
  induction fuel with
  | zero => exact fun _ _ => .ok []
  | succ fuel ih =>
    intro off left
    rw [decodeRecords]
    split
    · exact .ok []
    · exact (decodeRecord_neverIllegal s off left).bind fun _ => (ih _ _).bind fun _ => .ok _

theorem frameHeader_neverIllegal (verify : Bool) (s : State) : NeverIllegal (frameHeader verify s) := by
  iterate 8 refine .require_bind nofun ?_
  exact .ok _

theorem frameVerified_neverIllegal (verify : Bool) (h : FrameHeader) (s : State) :
    NeverIllegal (frameVerified verify h s) :=
  .require_bind nofun (.ok _)

theorem frameRecords_neverIllegal (decodeExt : Bool) (h : FrameHeader) (s : State) :
    NeverIllegal (frameRecords decodeExt h s) := by
  cases decodeExt with
  | false => exact .ok []
  | true => exact decodeRecords_neverIllegal s _ _ _

/-- The errors of a table command are its rule's: those of the frame, of the blob and of a record
(rules R150, R191, R195). -/
theorem ruleOf_table_neverIllegal {i : Instr} (hi : writtenBy i = .table) (s : State) :
    NeverIllegal (ruleOf i s) := by
  rcases writtenBy_eq_table.mp hi with ⟨dx, vf, rfl⟩ | rfl
  · exact (frameHeader_neverIllegal vf s).bind fun h => (frameVerified_neverIllegal vf h s).bind fun _ =>
      (frameRecords_neverIllegal dx h s).bind fun _ => .ok _
  · exact .require_bind nofun (.require_bind nofun ((decodeRecords_neverIllegal s _ _ _).bind fun _ => .ok _))

/-! ### The words of the table commands -/

theorem CmdError.code_eq_seven_iff {e : CmdError} : e.code = 7 ↔ e.kind = .illegalCommand := by
  unfold CmdError.code
  cases e.kind <;> decide

theorem decode_error_kind {w : Word} {e : CmdError} (h : decode w = .error e) : e.kind = .illegalCommand := by
  cases decode_cases w with
  | command _ _ _ hdec => cases hdec.symm.trans h
  | highBits _ hdec | unassigned _ _ hdec | modBits _ _ _ hdec | extType _ _ _ _ hdec =>
    cases hdec.symm.trans h
    rfl

theorem opcodeField_commandWord (mod opcode : BitVec 8) : opcodeField (commandWord mod opcode) = opcode :=
  BitVec.extractLsb'_append_eq_right

/-- The opcodes of the table commands (rule R111). -/
theorem writtenBy_eq_table_iff_opcode {w : Word} {i : Instr} (h : decode w = .ok i) :
    writtenBy i = .table ↔ opcodeField w = 0x02 ∨ opcodeField w = 0x13 := by
  rw [(decodeInvertsEncode w i).mp h]
  cases i <;> simp [writtenBy, encode, opcodeField_commandWord]

theorem startOf_of_table {i : Instr} (hi : writtenBy i = .table) (s : State) : startOf i s = clearExtTab s := by
  rcases writtenBy_eq_table.mp hi with ⟨dx, vf, rfl⟩ | rfl <;> rfl

theorem startOf_of_not_table {i : Instr} (hi : writtenBy i ≠ .table) (s : State) : startOf i s = s := by
  cases i with
  | frameParse _ _ | extDecAll => exact absurd rfl hi
  | _ => rfl

/-! ### A command that fails -/

/-- Where a failed command's abort starts: with the table emptied, if it is a table command that decode has accepted
(rule R345(d)), else from the command's own state. -/
theorem runCommand_failed {w : Word} {s t : State} (h : runCommand w s = .next t) (hcode : t.code ≠ 0) :
    ∃ e, t = abort (if (opcodeField w = 0x02 ∨ opcodeField w = 0x13) ∧ e.code ≠ 7 then clearExtTab s else s) e := by
  rcases runCommand_cases w s with ⟨i, hdec, hrun⟩ | ⟨e, hdec, hrun⟩
  · have hend := exec_eq_next.mp (hrun.symm.trans h)
    rcases finish_cases (ruleOf i) (startOf i s) with ⟨u, -, hfin⟩ | ⟨e, herr, hfin⟩
    · exact absurd (congrArg State.code (hend.symm.trans hfin)) hcode
    · refine ⟨e, hend.symm.trans (hfin.trans ?_)⟩
      have hop := writtenBy_eq_table_iff_opcode hdec
      by_cases hi : writtenBy i = .table
      · have hseven : e.code ≠ 7 := mt CmdError.code_eq_seven_iff.mp (ruleOf_table_neverIllegal hi _ e herr)
        rw [if_pos ⟨hop.mp hi, hseven⟩, startOf_of_table hi]
      · rw [if_neg fun htable => hi (hop.mpr htable.1), startOf_of_not_table hi]
  · refine ⟨e, ?_⟩
    rw [if_neg fun htable => htable.2 (CmdError.code_eq_seven_iff.mpr (decode_error_kind hdec))]
    exact Host.Outcome.next.inj (h.symm.trans hrun)

/-- Settles O24: the abort, from the state it starts in. -/
theorem failedCommandChangesNothingElse : Obligations.FailedCommandChangesNothingElse := by
  intro w s t hrun hcode
  have hsticky := runCommand_sticky_of_failed hrun hcode
  obtain ⟨e, rfl⟩ := runCommand_failed hrun hcode
  refine ⟨⟨e, rfl, rfl⟩, hsticky, rfl, ?_⟩
  rw [abort_code]
  split <;> exact ⟨⟨rfl, rfl⟩, rfl, ⟨rfl, rfl⟩, rfl, ⟨rfl, rfl, rfl, rfl⟩⟩

/-! ### Every step goes on -/

theorem exists_runCommand_next (w : Word) (s : State) : ∃ t, runCommand w s = .next t := by
  rcases runCommand_cases w s with ⟨i, -, hrun⟩ | ⟨e, -, hrun⟩
  · exact ⟨_, hrun.trans (exec_eq i s)⟩
  · exact ⟨_, hrun⟩

theorem exists_issue_next (w : Word) (s : State) : ∃ t, issue w s = .next t := by
  rcases issue_cases w s with ⟨-, hissue⟩ | ⟨n, -, hissue⟩
  · rw [hissue]
    exact exists_runCommand_next w _
  · exact ⟨_, hissue⟩

theorem exists_endCycle_next (s : State) : ∃ t, endCycle s = .next t := by
  rcases endCycle_cases s with ⟨-, hend⟩ | ⟨-, -, hend⟩ | ⟨-, -, hend⟩
  · exact ⟨_, hend⟩
  · exact ⟨_, hend⟩
  · rw [hend]
    exact exists_runCommand_next s.cmdReg _

/-- Settles O10: a step is a reset, an issued command or the end of a cycle, and each goes on. -/
theorem everyStepGoesOn : Obligations.EveryStepGoesOn := by
  intro s
  unfold goesOn
  rcases step_cases s with ⟨rest, -, hstep⟩ | ⟨w, rest, -, -, hstep⟩ | ⟨u, hstep, -⟩ <;> rw [hstep]
  · exact ⟨_, rfl⟩
  · exact exists_issue_next w _
  · exact exists_endCycle_next u

end Sys2Proof.Machine

/-! PROOFS. Reset (rules R370..R373), and a command in flight, which no host access disturbs (rules R53, R93, R378). -/

namespace Sys2Proof.Machine

/-! ### Reset -/

theorem step_of_reset {s : State} {rest : List HostEvent} (hbus : s.env.bus = .reset :: rest) :
    step s = .next (resetPulse (takeEvent s rest)) := by
  simp [step, cycle, hbus]

/-- Where nothing is written since reset, `BUF` has the free value of the reset count (log 3). -/
theorem bufByte_of_unwritten {s : State} (hbuf : s.buf = []) (a : Nat) :
    bufByte s a = Config.bufAfterReset s.env.resets a := by
  rw [bufByte, hbuf]; rfl

/-- Settles O13. -/
theorem resetState : Obligations.ResetState :=
  ⟨rfl, rfl, rfl, rfl, rfl, rfl, rfl, bufByte_of_unwritten rfl, rfl, rfl, rfl,
    fun i k => extTabWord_of_length_le k (Nat.zero_le i), rfl, rfl⟩

/-- Settles O12: a reset of this state has the invariant, and differs from it only in fields of the model's own that
the invariant does not read. -/
theorem resetHasInv : Obligations.ResetHasInv :=
  (resetPulse_inv State.reset).setEnv (e := Env.reset) rfl rfl

/-- Settles O14: a reset leaves the state of `resetState`, but for the model's own fields. -/
theorem resetAbandonsCommand : Obligations.ResetAbandonsCommand := by
  intro s rest hbus
  obtain ⟨harg, hres, hcode, hdetail, hbusy, hsticky, hcmd, -, hkey, hvalid, htab, -, hcount, hmac⟩ := resetState
  exact ⟨_, step_of_reset hbus, harg, hres, hcode, hdetail, hbusy, hsticky, hcmd, bufByte_of_unwritten rfl,
    hkey, hvalid, htab, hcount, hmac, rfl, rfl⟩

/-! ### What a host access changes while a command is in flight -/

/-- `u` is `s` but for `STICKY` and the model's own fields, and has its build and its reset count. -/
def Undisturbed (s u : State) : Prop :=
  ∃ sticky env, u = (s.setSticky sticky).setEnv env ∧ env.build = s.env.build ∧ env.resets = s.env.resets

theorem Undisturbed.setEnv {s : State} {e : Env} (hbuild : e.build = s.env.build)
    (hresets : e.resets = s.env.resets) : Undisturbed s (s.setEnv e) :=
  ⟨s.sticky, e, rfl, hbuild, hresets⟩

theorem Undisturbed.trans {s u v : State} (h : Undisturbed s u) (h' : Undisturbed u v) : Undisturbed s v := by
  obtain ⟨_, e, rfl, hbuild, hresets⟩ := h
  obtain ⟨sticky, e', rfl, hbuild', hresets'⟩ := h'
  exact ⟨sticky, e', rfl, hbuild'.trans hbuild, hresets'.trans hresets⟩

theorem Undisturbed.busy {s u : State} (h : Undisturbed s u) : u.busy = s.busy := by
  obtain ⟨_, _, rfl, -⟩ := h
  rfl

theorem Undisturbed.cmdReg {s u : State} (h : Undisturbed s u) : u.cmdReg = s.cmdReg := by
  obtain ⟨_, _, rfl, -⟩ := h
  rfl

theorem undisturbed_takeEvent (s : State) (rest : List HostEvent) : Undisturbed s (takeEvent s rest) :=
  .setEnv rfl rfl

theorem undisturbed_hostRead (width : Width) (addr : BitVec 17) (s : State) :
    Undisturbed s (hostRead width addr s) := by
  rcases hostRead_cases width addr s with ⟨-, h⟩ | ⟨t, -, ⟨-, -, h⟩ | ⟨-, h⟩⟩ <;>
    exact ⟨_, _, h, rfl, rfl⟩

/-- A write while `BUSY` = 1 is refused, dropped, or a `STICKY` write (rules R39, R86, R378). -/
theorem undisturbed_hostWrite (width : Width) (addr : BitVec 17) (w : Word) {s : State} (hbusy : s.busy = true) :
    Undisturbed s (hostWrite width addr w s) := by
  rcases hostWrite_cases width addr w s with h | h | h | ⟨i, hidle, -⟩ | ⟨off, hidle, -⟩
  · exact ⟨_, _, h, rfl, rfl⟩
  · exact ⟨_, _, h, rfl, rfl⟩
  · exact ⟨_, _, h, rfl, rfl⟩
  · exact absurd (hbusy.symm.trans hidle) nofun
  · exact absurd (hbusy.symm.trans hidle) nofun

/-! ### The flight of a command -/

/-- A step with a command in flight and no reset is an event that leaves the command undisturbed, and then the end of
the cycle (rules R53, R378, log 6). -/
theorem step_of_busy {s : State} (hbusy : s.busy = true) (hreset : HostEvent.reset ∉ s.env.bus) :
    ∃ u, step s = endCycle u ∧ Undisturbed s u ∧ u.env.cyclesLeft = s.env.cyclesLeft
      ∧ HostEvent.reset ∉ u.env.bus := by
  cases hbus : s.env.bus with
  | nil => exact ⟨s, step_of_nil hbus, .setEnv rfl rfl, rfl, hreset⟩
  | cons event rest =>
    have hrest : HostEvent.reset ∉ rest := fun h => hreset (hbus ▸ List.mem_cons_of_mem event h)
    have taken := undisturbed_takeEvent s rest
    cases event with
    | idle => exact ⟨_, step_of_idle hbus, taken, rfl, hrest⟩
    | reset => exact absurd (hbus ▸ List.mem_cons_self) hreset
    | poll =>
      obtain ⟨-, -, hleft, hkept⟩ := hostRead_cycle .w32 0x00008 s
      have hstep := step_of_poll hbus
      rw [hbusy] at hstep
      exact ⟨_, hstep, undisturbed_hostRead _ _ s, hleft, hkept ▸ hreset⟩
    | access a =>
      cases a with
      | read width addr =>
        obtain ⟨-, -, hleft, hkept⟩ := hostRead_cycle width addr (takeEvent s rest)
        exact ⟨_, step_of_read hbus, taken.trans (undisturbed_hostRead width addr _), hleft, hkept ▸ hrest⟩
      | write width addr w =>
        obtain ⟨-, -, hleft, hkept⟩ := hostWrite_cycle width addr w (takeEvent s rest)
        have hissue : issuesCommand width addr s = false := by simp [issuesCommand, hbusy]
        exact ⟨_, step_of_write hbus hissue, taken.trans (undisturbed_hostWrite width addr w hbusy), hleft,
          hkept ▸ hrest⟩

/-- Whatever the host does but reset, the command in flight lands when its cycles have run down (rules R53, R93, R378):
`run_inFlight` for a host that does not only wait. -/
theorem run_undisturbed : ∀ (m : Nat) (s : State), s.busy = true → s.env.cyclesLeft = m + 1 →
    HostEvent.reset ∉ s.env.bus →
    ∃ u, Undisturbed s u
      ∧ Host.Core.run Sys2Proof.core (m + 1) s = runCommand s.cmdReg (u.setBusy false)
  | 0, s, hbusy, hleft, hreset => by
    obtain ⟨u, hstep, kept, hcycles, -⟩ := step_of_busy hbusy hreset
    have hlast := endCycle_of_last (kept.busy.trans hbusy) (Nat.le_of_eq (hcycles.trans hleft))
    rw [kept.cmdReg] at hlast
    exact ⟨u.setEnv { u.env with cyclesLeft := 0 }, kept.trans (.setEnv rfl rfl), (run_one s).trans (hstep.trans hlast)⟩
  | m + 1, s, hbusy, hleft, hreset => by
    obtain ⟨u, hstep, kept, hcycles, hlater⟩ := step_of_busy hbusy hreset
    have hmore : 1 < u.env.cyclesLeft := by omega
    have hnext := hstep.trans (endCycle_of_more (kept.busy.trans hbusy) hmore)
    obtain ⟨v, later, hrun⟩ := run_undisturbed m (u.setEnv { u.env with cyclesLeft := u.env.cyclesLeft - 1 })
      (kept.busy.trans hbusy) (by simp [hcycles, hleft]) hlater
    refine ⟨v, kept.trans (.trans (.setEnv rfl rfl) later), ?_⟩
    rw [run_succ_of_next _ hnext, hrun, ← kept.cmdReg]
    rfl

/-- Settles O9: the command runs from a state that is undisturbed, and a command always ends. -/
theorem hostCannotDisturbCommandInFlight : Obligations.HostCannotDisturbCommandInFlight := by
  intro s m hbusy hleft hreset
  obtain ⟨_, ⟨sticky, e, rfl, hbuild, hresets⟩, hrun⟩ := run_undisturbed m s hbusy hleft hreset
  obtain ⟨t, ht⟩ := exists_runCommand_next s.cmdReg (((s.setSticky sticky).setEnv e).setBusy false)
  exact ⟨_, t, hrun.trans ht, ht, rfl, rfl, rfl, rfl, rfl, rfl, rfl, ⟨rfl, rfl⟩, ⟨rfl, rfl⟩, rfl, hbuild, hresets⟩

end Sys2Proof.Machine
